-- ==== Sys2Proof/Word.lean ====
section
/-! DEFINITION. The word types of the pfa-inskip AES core (spec 00_scope.md R8, R9, R10): a byte has 8 bits, a word has 32,
bit 0 is the least significant bit, every value is unsigned. -/

namespace Sys2Proof

/-- A byte (R10): an S-box entry, a byte of DATA_MEM, a byte of a key or of a block. -/
abbrev Byte := BitVec 8

/-- A word (R10, R8 "word width"): a register, a T-table entry, a schedule word. -/
abbrev Word := BitVec 32

/-- Four words: a 16-byte block in word form (R65), a round-key group (R14), a working-register set (R49). -/
structure Quad where
  w0 : Word
  w1 : Word
  w2 : Word
  w3 : Word
deriving DecidableEq, Repr

/-- A 16-byte sequence: a block in byte form (R65, R51). -/
abbrev Bytes16 := Vector Byte 16

/-- A table of 256 bytes: an S-box, POW, LOG (R46, R48). -/
abbrev ByteTable := Vector Byte 256

/-- A table of 256 words: one T-table (R46). -/
abbrev WordTable := Vector Word 256

/-- The 64 round-key words of a context, or of the scratch schedule TMPK (R40, R50; RK_WORDS of R8). -/
abbrev Schedule := Vector Word 64

/-- A context index: the 2-bit CTX field as a plain unsigned index (R90, R94). -/
abbrev CtxIdx := Fin 4

end Sys2Proof
end

