-- ==== Sys2Proof/Config.lean ====
section
/-! DEFINITION. What an implementation of the core fixes (the parameters of 00_scope.md R8), the constants the spec fixes, and
the free values: what the spec leaves unspecified, as constants with no body. -/

namespace Sys2Proof

/-- FAULT_FORM (R8, R129, 90_conflicts.md C1): the value an S-box index receives that the fault mask skips. -/
inductive FaultForm where
  /-- NO_CONST, the default: the rotate-XOR combination without the final `^ 0x63`. -/
  | noConst
  /-- PRE_AFFINE: the inverse itself, before any affine step. -/
  | preAffine
deriving DecidableEq, Repr

/-- The parameters of R8 that an implementation chooses. "A model takes each one as an argument": a state carries them
(State.params), no step changes them, so that a statement about every state covers every legal choice (log 3, DESIGN CHOICE, safe).
LAT(op), R8's fourth parameter, is no number here: the schedule of events stands for it (log 2, DESIGN CHOICE, safe). -/
structure Params where
  /-- N_CTX: the number of cipher contexts. -/
  nCtx : Nat
  /-- BUF_BYTES: the size of DATA_MEM in bytes. -/
  bufBytes : Nat
  /-- FAULT_FORM. -/
  faultForm : FaultForm
deriving DecidableEq, Repr

/-- The reference configuration: the defaults of R8. -/
def Params.reference : Params := { nCtx := 2, bufBytes := 4096, faultForm := .noConst }

/-- The legal values of R8. -/
def Params.legal (p : Params) : Bool :=
  decide (1 ≤ p.nCtx) && decide (p.nCtx ≤ 4) &&
    decide (p.bufBytes % 16 = 0) && decide (16 ≤ p.bufBytes) && decide (p.bufBytes ≤ 4096)

/-- The value of the identity register ID (R2, R24). -/
def Config.idValue : Word := 0x41455307

/-- FREE VALUE (R64, R310, R336; 93_implementation_defined.md I5): the byte DATA_MEM holds at an offset after a reset until it
is written, "arbitrary values fixed at reset". Applied to the number of resets so far and to the offset. Log 4, DESIGN CHOICE, safe. -/
opaque Config.dataMemAtReset : Nat → Nat → Byte

/-- FREE VALUE (R331, R310; I3, I4, I7): what an unspecified bus read, or a bus response while `rst` is asserted, carries.
Applied to a counter in State, so that every such read has a value of its own. Log 5, DEDUCED, unsafe. -/
opaque Config.unspecified : Nat → Word

end Sys2Proof
end

