-- ==== Sys2Proof/Syntax.lean ====
section
/-! DEFINITION. The commands of the core: one constructor for each row of spec/opcode_table.json (30_encoding.md R92). -/

namespace Sys2Proof

/-- The seven commands (R92). A context command carries the context index c of its CTX field (R94); every other operand is
read from an operand register (R93). -/
inductive Instr where
  /-- NOP (44_control.md R254). -/
  | nop
  /-- BUILD_TABLES (40_tables.md R134). -/
  | buildTables
  /-- SETKEY_ENC c (41_key_schedule.md R160). -/
  | setkeyEnc (c : CtxIdx)
  /-- SETKEY_DEC c (41_key_schedule.md R165). -/
  | setkeyDec (c : CtxIdx)
  /-- CRYPT_ECB c (42_block.md R190). -/
  | cryptEcb (c : CtxIdx)
  /-- CRYPT_CBC c (43_cbc.md R220). -/
  | cryptCbc (c : CtxIdx)
  /-- WIPE c (44_control.md R255). -/
  | wipe (c : CtxIdx)
deriving DecidableEq, Repr

end Sys2Proof
end

