-- ==== Sys2Proof/WellFormed.lean ====
section
/-! DEFINITION. Well-formed commands: the one check a command's operands have, CTX below N_CTX (30_encoding.md R91, R92). -/

namespace Sys2Proof

/-- A command that some legal word encodes under the parameters p: a context command names an existing context
("the CTX field must also be below N_CTX", R92). NOP and BUILD_TABLES carry no index, so nothing is left to check. -/
def Instr.wellFormed (p : Params) : Instr → Bool
  | .nop => true
  | .buildTables => true
  | .setkeyEnc c => decide (c.val < p.nCtx)
  | .setkeyDec c => decide (c.val < p.nCtx)
  | .cryptEcb c => decide (c.val < p.nCtx)
  | .cryptCbc c => decide (c.val < p.nCtx)
  | .wipe c => decide (c.val < p.nCtx)

end Sys2Proof
end

