-- ==== Sys2Proof/Decode.lean ====
section
/-! DEFINITION. Decoding and encoding of the 32-bit command word (30_encoding.md R90, R91, R92). The decoder is total: a word is a
command, or it is rejected by name. -/

namespace Sys2Proof

/-- Why a word decodes to ILLEGAL: the four causes of R99, in the order R91 tests them. -/
inductive Illegal where
  /-- RES, bits 31:6, is not 0. -/
  | reservedBits
  /-- NOP or BUILD_TABLES with CTX not 0. -/
  | ctxNotZero
  /-- A context command with CTX at or above N_CTX. -/
  | ctxOutOfRange
  /-- OPCODE 0x7 to 0xF. -/
  | reservedOpcode
deriving DecidableEq, Repr

/-- OPCODE, bits 3:0 (R90). -/
def opcodeField (w : Word) : BitVec 4 := w.extractLsb' 0 4

/-- CTX, bits 5:4, as an index (R90, R94). -/
def ctxField (w : Word) : CtxIdx := ⟨(w.extractLsb' 4 2).toNat, (w.extractLsb' 4 2).isLt⟩

/-- RES, bits 31:6 (R90). -/
def resField (w : Word) : BitVec 26 := w.extractLsb' 6 26

/-- A command with no context: its CTX field must be 0 (R91). -/
def decodeGlobal (c : CtxIdx) (i : Instr) : Except Illegal Instr :=
  if c.val = 0 then .ok i else .error .ctxNotZero

/-- A context command: its CTX field must be below N_CTX (R91). -/
def decodeContext (p : Params) (c : CtxIdx) (i : Instr) : Except Illegal Instr :=
  if c.val < p.nCtx then .ok i else .error .ctxOutOfRange

/-- The opcode map (R92), once RES is known to be 0. -/
def decodeOpcode (p : Params) (op : BitVec 4) (c : CtxIdx) : Except Illegal Instr :=
  match op.toNat with
  | 0 => decodeGlobal c .nop
  | 1 => decodeGlobal c .buildTables
  | 2 => decodeContext p c (.setkeyEnc c)
  | 3 => decodeContext p c (.setkeyDec c)
  | 4 => decodeContext p c (.cryptEcb c)
  | 5 => decodeContext p c (.cryptCbc c)
  | 6 => decodeContext p c (.wipe c)
  | _ => .error .reservedOpcode

/-- The decoder of R91. -/
def decode (p : Params) (w : Word) : Except Illegal Instr :=
  if resField w ≠ 0 then .error .reservedBits else decodeOpcode p (opcodeField w) (ctxField w)

/-- A context command's word: the opcode, and c in bits 5:4 (R92, R102: `0x02 + 16*N` and so on). -/
def encodeContext (op : Word) (c : CtxIdx) : Word := op ||| (BitVec.ofNat 32 c.val <<< 4)

/-- The command word of a command (R92, R102). -/
def encode : Instr → Word
  | .nop => 0x00000000
  | .buildTables => 0x00000001
  | .setkeyEnc c => encodeContext 0x00000002 c
  | .setkeyDec c => encodeContext 0x00000003 c
  | .cryptEcb c => encodeContext 0x00000004 c
  | .cryptCbc c => encodeContext 0x00000005 c
  | .wipe c => encodeContext 0x00000006 c

/-- The command word whose low nbits bits are those of w and whose other bits are 0. A command is one 32-bit word (R100), so
bits at and above 32 do not exist. -/
def commandWord (nbits w : Nat) : Word := BitVec.ofNat 32 (w % 2 ^ nbits)

/-- The decoder read through the numbering of spec/opcode_table.json, under the reference configuration of R8. The table's row
is one word of 32 bits; a longer word is no command (R100). -/
def decodeTableWord (nbits w : Nat) : Option Instr :=
  if w % 2 ^ nbits < 2 ^ 32 then
    match decode Params.reference (commandWord nbits w) with
    | .ok i => some i
    | .error _ => none
  else none

end Sys2Proof
end

