-- ==== Sys2Proof/Machine/State.lean ====
section
/-! DEFINITION. The state of the core as plain data (10_state.md), and its reset value (70_reset_and_hazards.md R310).

A value the spec defines as a view of another is computed, not stored twice: STATUS.BUSY (R27, from SEQ), STATUS.TBL_DONE (R32),
STATUS.TRIG (R33), the STATUS, CONFIG and CTXINFO words (Machine/Flags.lean), `irq` (R53), ID (R24, a constant), RK_OFF (R40,
hardwired to 0). CMD holds no state (R25). -/

namespace Sys2Proof.Machine

/-! ## Sequencer -/

/-- Status codes (60_exceptions.md R270). STATUS.ERR never holds 7 to 15 (R29), so there are seven. -/
inductive StatusCode where
  /-- 0 OK. -/
  | ok
  /-- 1 INVALID_KEY_LENGTH (R271). -/
  | invalidKeyLength
  /-- 2 INVALID_MODE (R272). -/
  | invalidMode
  /-- 3 INVALID_INPUT_LENGTH (R273). -/
  | invalidInputLength
  /-- 4 ILLEGAL_COMMAND (R274). -/
  | illegalCommand
  /-- 5 RANGE (R275). -/
  | range
  /-- 6 UNDEFINED_USE (R276). -/
  | undefinedUse
deriving DecidableEq, Repr

/-- What SEQ latches of a command word: the decoded command, or ILLEGAL (R25, R251). -/
inductive Command where
  | legal (i : Instr)
  | illegal
deriving DecidableEq, Repr

/-- How far the table build of a running command has come, as far as `trig` shows it (R125 steps 1-3, step 4, steps 5-6;
R131). A command that builds no table stays at `start` until it completes. Log 7, DESIGN CHOICE, safe. -/
inductive Phase where
  /-- The S-box loop has not begun. -/
  | start
  /-- The S-box loop of R127 is running. -/
  | sboxLoop
  /-- The S-box loop is over. -/
  | tail
deriving DecidableEq, Repr

/-- The command sequencer SEQ (R21): IDLE, or BUSY(op, c). -/
inductive Seq where
  | idle
  | busy (cmd : Command) (phase : Phase)
deriving DecidableEq, Repr

/-! ## Cipher contexts and tables -/

/-- NR (R40): 0 means empty; 10, 12 and 14 are its only other legal values, and it can hold no other (R41). Log 15, DEDUCED, safe. -/
inductive RoundCount where
  | empty
  | ten
  | twelve
  | fourteen
deriving DecidableEq, Repr

/-- A cipher context (R40). RK_OFF is hardwired to 0 (I14) and is `Context.rkOff`, not a field. -/
structure Context where
  /-- NR. -/
  nr : RoundCount
  /-- RK[0..63]. -/
  rk : Schedule
deriving DecidableEq, Repr

/-- The empty context. -/
def Context.blank : Context := { nr := .empty, rk := Vector.replicate 64 0 }

/-- The table set (R46). -/
structure TableSet where
  /-- FSB, the forward S-box. -/
  fsb : ByteTable
  /-- RSB, the reverse S-box. -/
  rsb : ByteTable
  /-- FT[0..3], the forward T-tables. -/
  ft : Vector WordTable 4
  /-- RT[0..3], the reverse T-tables. -/
  rt : Vector WordTable 4
  /-- RCON[0..9], the round constants. -/
  rcon : Vector Word 10
deriving DecidableEq, Repr

/-- The table RAMs at reset: every entry 0 (R46, R310). -/
def TableSet.blank : TableSet :=
  { fsb := Vector.replicate 256 0
    rsb := Vector.replicate 256 0
    ft := Vector.replicate 4 (Vector.replicate 256 0)
    rt := Vector.replicate 4 (Vector.replicate 256 0)
    rcon := Vector.replicate 10 0 }

/-! ## The bus port and the outside world -/

/-- The access size line of the bus port (R54, R62). -/
inductive AccessSize where
  | bits8
  | bits16
  | bits32
deriving DecidableEq, Repr

/-- The write/read indication of the bus port, with the write data (R54). -/
inductive AccessKind where
  | read
  | write (data : Word)
deriving DecidableEq, Repr

/-- One bus access: the core decodes only the 13-bit offset in its window (R61). -/
structure BusAccess where
  offset : BitVec 13
  size : AccessSize
  kind : AccessKind
deriving DecidableEq, Repr

/-- The response of the bus port (R54, R62). -/
inductive BusResp where
  | okay
  | error
deriving DecidableEq, Repr

/-- What the bus port drives in answer to an access: a response and, for a read, the read data (R54). -/
inductive BusReply where
  | read (resp : BusResp) (data : Word)
  | write (resp : BusResp)
deriving DecidableEq, Repr

/-- What moves the core (R257 and the ports of R54). Which comes next is what the outside world and the latency LAT decide;
State.inbox holds the order (log 1, log 2, DESIGN CHOICE, safe). -/
inductive Event where
  /-- The host performs one bus access (R60, R71). -/
  | access (a : BusAccess)
  /-- The running command passes the next edge of its S-box loop, where it has one (R131), with other events still to come. -/
  | advance
  /-- The execution of the running command goes on to its end (R252); a build passes the edges of its S-box loop on the way. -/
  | finish
  /-- The `rst` input takes this level (R54). -/
  | reset (level : Bool)
deriving DecidableEq, Repr

/-! ## Memory -/

/-- DATA_MEM (R61) as the bytes written since the last reset: offset and byte, offsets strictly rising. An offset that is not
listed has no value of its own (Memory.unlisted); what a read of it gives is said once, in State.memByte. -/
abbrev Memory := List Host.Cell

/-- What an unlisted offset holds: no value, since reset does not initialise DATA_MEM (R64, R310). -/
def Memory.unlisted : Option Byte := none

/-- The canonical form: offsets strictly rising. (No entry can equal what an unlisted offset holds, which is no byte.) -/
def Memory.wf : Memory → Bool
  | [] => true
  | [_] => true
  | a :: b :: rest => decide (a.1 < b.1) && Memory.wf (b :: rest)

/-! ## The state -/

/-- The state of the core. Every field cites the rule that gives it; the last five are the model's own. -/
structure State where
  /-- SEQ (R21). -/
  seq : Seq
  /-- STATUS.DONE (R28). -/
  done : Bool
  /-- STATUS.ERR (R29). -/
  err : StatusCode
  /-- STATUS.HAZ (R30). -/
  haz : Bool
  /-- STATUS.UNDEF (R31). -/
  undef : Bool
  /-- CONFIG.IRQ_EN (R34). -/
  irqEn : Bool
  /-- CONFIG.TRIG_EN (R34). -/
  trigEn : Bool
  /-- MODE (R35). -/
  mode : Word
  /-- KEYBITS (R36). -/
  keybits : Word
  /-- LENGTH (R37). -/
  length : Word
  /-- SRC (R37). -/
  src : Word
  /-- DST (R37). -/
  dst : Word
  /-- KEY0..KEY7 (R39). -/
  key : Vector Word 8
  /-- DIN0..DIN3 (R42). -/
  din : Quad
  /-- DOUT0..DOUT3 (R43). -/
  dout : Quad
  /-- IV0..IV3 (R44). -/
  iv : Quad
  /-- FMASK0..FMASK7 (R45). -/
  fmask : Vector Word 8
  /-- CTX[0..3] (R40); the slots at and above N_CTX do not exist and stay empty (log 12, DESIGN CHOICE, safe). -/
  ctx : Vector Context 4
  /-- The table set (R46). -/
  tables : TableSet
  /-- TBL_DONE (R47). -/
  tblDone : Bool
  /-- POW (R48). -/
  pow : ByteTable
  /-- LOG (R48). -/
  log : ByteTable
  /-- The copy of FMASK a build latches (R125 step 1, R126); its reset value and its life after the build are log 8, DESIGN
  CHOICE, unsafe. -/
  maskLatch : Vector Word 8
  /-- The copy `tr` of CONFIG.TRIG_EN a build latches (R125 step 1, R131); log 8 likewise. -/
  trLatch : Bool
  /-- X[0..3] (R49). -/
  x : Quad
  /-- Y[0..3] (R49). -/
  y : Quad
  /-- TMPK[0..63] (R50). -/
  tmpk : Schedule
  /-- CHAIN[0..15] (R51). -/
  chain : Bytes16
  /-- SAVE[0..15] (R51). -/
  save : Bytes16
  /-- The `trig` output (R52). -/
  trig : Bool
  /-- DATA_MEM (R61). -/
  mem : Memory
  /-- The level of the `rst` input (R54, R310). -/
  rst : Bool
  /-- What the bus port last drove in answer to an access (R54, R62); none before the first (log 13, DESIGN CHOICE,
  unsafe). -/
  reply : Option BusReply
  /-- Not the spec's: the parameters of R8, which no step changes (log 3). -/
  params : Params
  /-- Not the spec's: what the outside world does next, first event first (log 1, DESIGN CHOICE, safe). -/
  inbox : List Event
  /-- Not the spec's: the number of resets so far, which picks the arbitrary bytes of DATA_MEM (log 4). -/
  epoch : Nat
  /-- Not the spec's: the counter that gives each unspecified read a value of its own (log 5). -/
  freeIdx : Nat
deriving DecidableEq, Repr

/-- Why the machine would stop with a fault: never. The core has no trap (R281), an error is a status code at completion
(R277), a refused access is a bus response (R62, R279), and no error locks the core (R282). -/
inductive Fault where
deriving DecidableEq, Repr

/-- Why an instruction has no meaning. -/
inductive Refusal where
  /-- Raised by an arm of `exec` whose instruction has no meaning yet; safe. Every instruction has one, so no arm raises it. -/
  | notModelled (mnemonic : String)
deriving DecidableEq, Repr

/-- Every piece of state at its reset value (R310), for a core with parameters p that has been reset `epoch` times and has
drawn `freeIdx` free values. `rst` is released; the reset table's "DATA_MEM: unspecified" is the empty list of written bytes. -/
def State.resetWith (p : Params) (epoch freeIdx : Nat) : State :=
  { seq := .idle
    done := false
    err := .ok
    haz := false
    undef := false
    irqEn := false
    trigEn := false
    mode := 0
    keybits := 0
    length := 0
    src := 0
    dst := 0
    key := Vector.replicate 8 0
    din := ⟨0, 0, 0, 0⟩
    dout := ⟨0, 0, 0, 0⟩
    iv := ⟨0, 0, 0, 0⟩
    fmask := Vector.replicate 8 0
    ctx := Vector.replicate 4 Context.blank
    tables := TableSet.blank
    tblDone := false
    pow := Vector.replicate 256 0
    log := Vector.replicate 256 0
    maskLatch := Vector.replicate 8 0
    trLatch := false
    x := ⟨0, 0, 0, 0⟩
    y := ⟨0, 0, 0, 0⟩
    tmpk := Vector.replicate 64 0
    chain := Vector.replicate 16 0
    save := Vector.replicate 16 0
    trig := false
    mem := []
    rst := false
    reply := none
    params := p
    inbox := []
    epoch := epoch
    freeIdx := freeIdx }

/-- The machine right after reset, in the reference configuration (R310, R8). -/
def State.reset : State := State.resetWith Params.reference 0 0

end Sys2Proof.Machine
end

