-- ==== Sys2Proof/Machine/Operands.lean ====
section
/-! DEFINITION. Operand forms: byte lanes, block and word conversion (00_scope.md R11, 20_memory.md R65), tables indexed by a byte, the
operand registers as the commands read them (30_encoding.md R93-R98), and the register map (10_state.md R22). -/

namespace Sys2Proof

/-! ## Four words -/

/-- Word j of four. -/
def Quad.get (q : Quad) (j : Fin 4) : Word :=
  match j with
  | 0 => q.w0
  | 1 => q.w1
  | 2 => q.w2
  | 3 => q.w3

/-- Four words given one by one, "for j in 0..3". -/
def Quad.ofFn (f : Fin 4 → Word) : Quad := ⟨f 0, f 1, f 2, f 3⟩

/-- q with word j replaced. -/
def Quad.set (q : Quad) (j : Fin 4) (v : Word) : Quad :=
  match j with
  | 0 => ⟨v, q.w1, q.w2, q.w3⟩
  | 1 => ⟨q.w0, v, q.w2, q.w3⟩
  | 2 => ⟨q.w0, q.w1, v, q.w3⟩
  | 3 => ⟨q.w0, q.w1, q.w2, v⟩

/-- Four words of 0. -/
def Quad.zero : Quad := ⟨0, 0, 0, 0⟩

/-- Wordwise exclusive-or. -/
def Quad.xor (a b : Quad) : Quad := Quad.ofFn fun j => a.get j ^^^ b.get j

end Sys2Proof

namespace Sys2Proof.Machine

/-! ## Bytes and words (R11) -/

/-- `byte(w, k)` = `w[8k+7:8k]` (R11). -/
def byteLane (w : Word) (k : Fin 4) : Byte := w.extractLsb' (8 * k.val) 8

/-- `word(b0, b1, b2, b3)`, lowest lane first (R11). -/
def wordOf (b0 b1 b2 b3 : Byte) : Word :=
  b0.setWidth 32 ||| (b1.setWidth 32 <<< 8) ||| (b2.setWidth 32 <<< 16) ||| (b3.setWidth 32 <<< 24)

/-- `rotl8(x, n)`, for 1 ≤ n ≤ 7 (R11). -/
def rotl8 (x : Byte) (n : Nat) : Byte := (x <<< n) ||| (x >>> (8 - n))

/-- `ROTL8(w)` (R11). -/
def rotlWord8 (w : Word) : Word := (w <<< 8) ||| (w >>> 24)

/-- `ROTR8(w)` (R11): the "word rotate" of the key expansion (R162). -/
def rotrWord8 (w : Word) : Word := (w >>> 8) ||| (w <<< 24)

/-- `zext_32(b)` (R12). -/
def zext32 (b : Byte) : Word := b.setWidth 32

/-! ## Blocks (R65) -/

/-- `load_block(B)`: `w[n] = word(B[4n], B[4n+1], B[4n+2], B[4n+3])` (R65). -/
def loadBlock (b : Bytes16) : Quad :=
  Quad.ofFn fun n =>
    wordOf (b[4 * n.val]'(by omega)) (b[4 * n.val + 1]'(by omega)) (b[4 * n.val + 2]'(by omega)) (b[4 * n.val + 3]'(by omega))

/-- `store_block(w)`: `B[4n+m] = byte(w[n], m)` (R65). -/
def storeBlock (q : Quad) : Bytes16 :=
  Vector.ofFn fun i : Fin 16 => byteLane (q.get ⟨i.val / 4, by omega⟩) ⟨i.val % 4, by omega⟩

/-- `^` on 16-byte sequences is bytewise exclusive-or (R220). -/
def xorBytes (a b : Bytes16) : Bytes16 := Vector.ofFn fun i : Fin 16 => a[i.val] ^^^ b[i.val]

/-- Sixteen bytes of 0. -/
def zeroBytes : Bytes16 := Vector.replicate 16 0

/-! ## Tables indexed by a byte (R46, R48) -/

/-- Entry b of a table of 256. -/
def tableAt {α : Type} (t : Vector α 256) (b : Byte) : α := t[b.toNat]'b.isLt

/-- The write `T[b] <- v`. -/
def tablePut {α : Type} (t : Vector α 256) (b : Byte) (v : α) : Vector α 256 := t.set b.toNat v b.isLt

/-- The writes `T[b] <- v` of a list of pairs (b, v), in the list's order. -/
def tablePutAll {α : Type} (t : Vector α 256) (l : List (Byte × α)) : Vector α 256 :=
  l.foldl (fun t p => tablePut t p.1 p.2) t

/-- The bytes 0, 1, ..., 255 in increasing order: the indices of "for i in 0..255" (R12). -/
def allBytes : List Byte := (List.range 256).map (BitVec.ofNat 8)

/-- The table whose entry i is f i: a loop over 0..255 that writes entry i, and no other, in iteration i. -/
def tableOf {α : Type} (f : Byte → α) : Vector α 256 := ⟨⟨allBytes.map f⟩, by simp [allBytes]⟩

/-! ## Operand registers -/

/-- Byte j of the key registers: `KEYn[8m+7:8m]` with n = j div 4 and m = j mod 4 (R39). -/
def keyByte (key : Vector Word 8) (j : Nat) : Byte :=
  byteLane (key[j / 4]?.getD 0) ⟨j % 4, by omega⟩

/-- The cipher direction MODE selects (R95). -/
inductive Direction where
  | encrypt
  | decrypt
deriving DecidableEq, Repr

/-- MODE: 1 is ENCRYPT, 0 is DECRYPT, every other value is invalid (R95, R35). -/
def directionOf (mode : Word) : Option Direction :=
  if mode = 1 then some .encrypt else if mode = 0 then some .decrypt else none

/-- What KEYBITS determines (R96). -/
structure KeyParams where
  /-- Nk, the key length in words. -/
  nk : Nat
  /-- NR. -/
  nr : RoundCount
  /-- NIT, the repetitions of the expansion. -/
  nit : Nat
deriving DecidableEq, Repr

/-- `keyparams(KEYBITS)`: the table of R96; none for every other value. -/
def keyParams (keybits : Word) : Option KeyParams :=
  if keybits = 128 then some ⟨4, .ten, 10⟩
  else if keybits = 192 then some ⟨6, .twelve, 8⟩
  else if keybits = 256 then some ⟨8, .fourteen, 7⟩
  else none

/-- NR as a number (R40, R96). -/
def RoundCount.toNat : RoundCount → Nat
  | .empty => 0
  | .ten => 10
  | .twelve => 12
  | .fourteen => 14

/-- RK_OFF, "hardwired to 0" (R40, I14). -/
def Context.rkOff (_ : Context) : Nat := 0

/-- Word i of a schedule; no rule reads at or above 64 (R163, R168). -/
def scheduleAt (rk : Schedule) (i : Nat) : Word := rk[i]?.getD 0

/-- The write `RK[i] <- v`; no rule writes at or above 64 (R162). -/
def schedulePut (rk : Schedule) (i : Nat) (v : Word) : Schedule := rk.setIfInBounds i v

/-- Sixty-four words of 0. -/
def zeroSchedule : Schedule := Vector.replicate 64 0

/-- The words `RK[p..p+3]` of a context's active schedule, `RK[RK_OFF + i]` (R40). -/
def Context.words (c : Context) (p : Nat) : Quad :=
  Quad.ofFn fun j => scheduleAt c.rk (c.rkOff + p + j.val)

/-! ## The register map (R22) -/

/-- A location of the bus window (R22, R61). -/
inductive Reg where
  | id
  | cmd
  | status
  | config
  | mode
  | keybits
  | length
  | src
  | dst
  | ctxinfo
  | key (n : Fin 8)
  | din (n : Fin 4)
  | dout (n : Fin 4)
  | iv (n : Fin 4)
  | fmask (n : Fin 8)
  /-- The word of DATA_MEM at byte offset 4w (R64). -/
  | dataMem (w : Nat)
  /-- Every other offset: RAZ/WI (R22, R23). -/
  | reserved
deriving DecidableEq, Repr

/-- The register at word index i = offset / 4, below 0x400 (R22). -/
def Reg.ofRegisterIndex (i : Nat) : Reg :=
  if i = 0x00 then .id
  else if i = 0x01 then .cmd
  else if i = 0x02 then .status
  else if i = 0x03 then .config
  else if i = 0x04 then .mode
  else if i = 0x05 then .keybits
  else if i = 0x06 then .length
  else if i = 0x07 then .src
  else if i = 0x08 then .dst
  else if i = 0x09 then .ctxinfo
  else if h : 0x10 ≤ i ∧ i < 0x18 then .key ⟨i - 0x10, by omega⟩
  else if h : 0x18 ≤ i ∧ i < 0x1C then .din ⟨i - 0x18, by omega⟩
  else if h : 0x1C ≤ i ∧ i < 0x20 then .dout ⟨i - 0x1C, by omega⟩
  else if h : 0x20 ≤ i ∧ i < 0x24 then .iv ⟨i - 0x20, by omega⟩
  else if h : 0x28 ≤ i ∧ i < 0x30 then .fmask ⟨i - 0x28, by omega⟩
  else .reserved

/-- The location at a word-aligned offset of the window (R22, R61, R64): registers below 0x1000; from 0x1000 the words of
DATA_MEM that lie below BUF_BYTES, and above those RAZ/WI. -/
def Reg.ofOffset (bufBytes : Nat) (offset : BitVec 13) : Reg :=
  if offset.toNat < 0x1000 then Reg.ofRegisterIndex (offset.toNat / 4)
  else if offset.toNat - 0x1000 + 4 ≤ bufBytes then .dataMem ((offset.toNat - 0x1000) / 4)
  else .reserved

end Sys2Proof.Machine
end

