-- ==== Sys2Proof/Machine/Flags.lean ====
section
/-! DEFINITION. Every flag computation of the spec: the STATUS, CONFIG and CTXINFO words (10_state.md R26-R34, R38), the status codes
(60_exceptions.md R270) and the interrupt output (R53). The core has no arithmetic condition codes (R55). -/

namespace Sys2Proof.Machine

/-- A Bool as bit i of a word. -/
def bitAt (b : Bool) (i : Nat) : Word := if b then (1 : Word) <<< i else 0

/-- The number of a status code (R270). -/
def StatusCode.toBits : StatusCode → BitVec 4
  | .ok => 0
  | .invalidKeyLength => 1
  | .invalidMode => 2
  | .invalidInputLength => 3
  | .illegalCommand => 4
  | .range => 5
  | .undefinedUse => 6

/-- STATUS.BUSY is 1 exactly when SEQ = BUSY(..) (R27). -/
def State.isBusy (s : State) : Bool :=
  match s.seq with
  | .idle => false
  | .busy _ _ => true

/-- The STATUS word (R26): BUSY, DONE, ERR, HAZ, UNDEF, TBL_DONE, TRIG; every other bit reads 0. -/
def State.statusWord (s : State) : Word :=
  bitAt s.isBusy 0 ||| bitAt s.done 1 ||| (s.err.toBits.setWidth 32 <<< 4) ||| bitAt s.haz 8 |||
    bitAt s.undef 9 ||| bitAt s.tblDone 12 ||| bitAt s.trig 13

/-- The CONFIG word (R34): IRQ_EN, TRIG_EN; bits 31:2 read 0. -/
def State.configWord (s : State) : Word := bitAt s.irqEn 0 ||| bitAt s.trigEn 1

/-- NR as the 8-bit field CTXINFO shows (R38, R40). -/
def RoundCount.toByte (n : RoundCount) : Byte := BitVec.ofNat 8 n.toNat

/-- Byte c of CTXINFO: CTX[c].NR for c < N_CTX, else 0 (R38). -/
def State.ctxInfoByte (s : State) (c : CtxIdx) : Byte :=
  if c.val < s.params.nCtx then (s.ctx[c.val]).nr.toByte else 0

/-- The CTXINFO word (R38). -/
def State.ctxInfoWord (s : State) : Word :=
  wordOf (s.ctxInfoByte 0) (s.ctxInfoByte 1) (s.ctxInfoByte 2) (s.ctxInfoByte 3)

/-- The output `irq` = STATUS.DONE & CONFIG.IRQ_EN, evaluated at all times (R53, R284). -/
def State.irq (s : State) : Bool := s.done && s.irqEn

end Sys2Proof.Machine
end

