-- ==== Sys2Proof/Machine/Ops.lean ====
section
/-! DEFINITION. The shared operations over the state: DATA_MEM (20_memory.md R64, R66), contexts (10_state.md R40), the
register file behind the bus window (R22, R23), and the lifecycle of a command: issue, completion, raise (44_control.md R251, R252,
60_exceptions.md R277). -/

namespace Sys2Proof.Machine

/-! ## DATA_MEM -/

/-- The byte written at an offset since the last reset, if there is one. -/
def Memory.lookup : Memory → Nat → Option Byte
  | [], _ => Memory.unlisted
  | (a, v) :: rest, off => if a = off then some v else Memory.lookup rest off

/-- The write of one byte; the canonical form is kept. -/
def Memory.store : Memory → Nat → Byte → Memory
  | [], off, v => [(off, v)]
  | (a, u) :: rest, off, v =>
    if off < a then (off, v) :: (a, u) :: rest
    else if off = a then (off, v) :: rest
    else (a, u) :: Memory.store rest off v

/-- The byte at an offset of DATA_MEM: the one last written since the reset, or else the arbitrary value the reset left there
(R64, R336; log 4). -/
def State.memByte (s : State) (off : Nat) : Byte :=
  match s.mem.lookup off with
  | some v => v
  | none => Config.dataMemAtReset s.epoch off

/-- `DATA_MEM[off] <- v`. -/
def State.memPut (s : State) (off : Nat) (v : Byte) : State := { s with mem := s.mem.store off v }

/-- `MemRead(off, 16)` (R66). -/
def State.memRead (s : State) (off : Nat) : Bytes16 := Vector.ofFn fun i : Fin 16 => s.memByte (off + i.val)

/-- `DATA_MEM[off+i] <- v[i]` for i in 0..n-1, in increasing order. -/
def Memory.storeList : Memory → Nat → List Byte → Memory
  | m, _, [] => m
  | m, off, v :: vs => Memory.storeList (m.store off v) (off + 1) vs

/-- `MemWrite(off, 16, v)` (R66). -/
def State.memWrite (s : State) (off : Nat) (v : Bytes16) : State := { s with mem := s.mem.storeList off v.toList }

/-- The word of DATA_MEM at byte offset off: little-endian (R63, R64). -/
def State.memWord (s : State) (off : Nat) : Word :=
  wordOf (s.memByte off) (s.memByte (off + 1)) (s.memByte (off + 2)) (s.memByte (off + 3))

/-- The write of a word into DATA_MEM, "the four bytes in the same lanes" (R64). -/
def State.memPutWord (s : State) (off : Nat) (v : Word) : State :=
  { s with mem := s.mem.storeList off [byteLane v 0, byteLane v 1, byteLane v 2, byteLane v 3] }

/-! ## Contexts -/

/-- CTX[c]. -/
def State.ctxAt (s : State) (c : CtxIdx) : Context := s.ctx[c.val]

/-- `CTX[c] <- v`. -/
def State.setCtx (s : State) (c : CtxIdx) (v : Context) : State := { s with ctx := s.ctx.set c.val v }

/-! ## The lifecycle of a command -/

/-- `complete(E)` (R252), once the command's effects are applied: ERR takes the code, UNDEF is set by UNDEFINED_USE, DONE is 1,
BUSY is 0, SEQ is IDLE. -/
def State.complete (s : State) (e : StatusCode) : State :=
  { s with
    err := e
    undef := s.undef || decide (e = .undefinedUse)
    done := true
    seq := .idle }

/-- `raise E` (R277): TAKING AN EXCEPTION on this core. The command ends at once with code E and no effect: no trap, no saved
state, no transfer of control (R281). There is no return from it to model: "There is no return command" (R282), the error state
ends with the next issue (State.issue) or a W1C write of DONE (State.writeReg). -/
def State.raise (s : State) (e : StatusCode) : State := s.complete e

/-- What SEQ latches of a command word (R251, R91). -/
def commandOf (p : Params) (w : Word) : Command :=
  match decode p w with
  | .ok i => .legal i
  | .error _ => .illegal

/-- `issue(w)` (R251): BUSY is 1, DONE and ERR are 0, SEQ is BUSY(decode(w)). -/
def State.issue (s : State) (w : Word) : State :=
  { s with
    done := false
    err := .ok
    seq := .busy (commandOf s.params w) .start }

/-- A context command on a context that does not exist (CTX at or above N_CTX) completes with ILLEGAL_COMMAND and no other effect
(R99, R274); the check comes before anything else (R278). The decoder yields no such command, so only `exec` applied directly to
an ill-formed one shows this (log 11, DESIGN CHOICE, safe). -/
def State.withContext (s : State) (c : CtxIdx) (k : State → State) : State :=
  if c.val < s.params.nCtx then k s else s.raise .illegalCommand

/-! ## The registers behind the window (R22, R23) -/

/-- The value a location holds for a read (R22-R45, R64). WO registers and reserved locations read 0. -/
def State.readReg (s : State) : Reg → Word
  | .id => Config.idValue
  | .cmd => 0
  | .status => s.statusWord
  | .config => s.configWord
  | .mode => s.mode
  | .keybits => s.keybits
  | .length => s.length
  | .src => s.src
  | .dst => s.dst
  | .ctxinfo => s.ctxInfoWord
  | .key _ => 0
  | .din n => s.din.get n
  | .dout n => s.dout.get n
  | .iv n => s.iv.get n
  | .fmask n => s.fmask[n.val]
  | .dataMem w => s.memWord (4 * w)
  | .reserved => 0

/-- The effect of an admitted write while SEQ = IDLE (R22, R23): CMD issues a command (R25, R251), STATUS clears DONE where bit 1
is 1 (R26, R28), RW registers and KEYn store the value, RO and reserved locations ignore it. -/
def State.writeReg (s : State) (r : Reg) (v : Word) : State :=
  match r with
  | .id => s
  | .cmd => s.issue v
  | .status => { s with done := s.done && !v.getLsbD 1 }
  | .config => { s with irqEn := v.getLsbD 0, trigEn := v.getLsbD 1 }
  | .mode => { s with mode := v }
  | .keybits => { s with keybits := v }
  | .length => { s with length := v }
  | .src => { s with src := v }
  | .dst => { s with dst := v }
  | .ctxinfo => s
  | .key n => { s with key := s.key.set n.val v }
  | .din n => { s with din := s.din.set n v }
  | .dout _ => s
  | .iv n => { s with iv := s.iv.set n v }
  | .fmask n => { s with fmask := s.fmask.set n.val v }
  | .dataMem w => s.memPutWord (4 * w) v
  | .reserved => s

/-! ## Free values -/

/-- The next free value of the unspecified reads (log 5). -/
def State.freeWord (s : State) : Word := Config.unspecified s.freeIdx

/-- The state after a free value has been drawn. -/
def State.drawFree (s : State) : State := { s with freeIdx := s.freeIdx + 1 }

end Sys2Proof.Machine
end

