-- ==== Sys2Proof/Machine/Bus.lean ====
section
/-! DEFINITION. Bus accesses (20_memory.md R62, R64, R69), also while a command runs (70_reset_and_hazards.md R330, R331) and while
`rst` is asserted (R310). -/

namespace Sys2Proof.Machine

/-- An access is admitted when its size is 32 bits and its offset is a multiple of 4 (R62); the 13-bit offset is in the window. -/
def BusAccess.admitted (a : BusAccess) : Bool := decide (a.size = .bits32) && decide (a.offset.toNat % 4 = 0)

/-- The answer to a refused access: the ERROR response, and 0 on the data lines of a read (R62). -/
def BusAccess.refusedReply (a : BusAccess) : BusReply :=
  match a.kind with
  | .read => .read .error 0
  | .write _ => .write .error

/-- The location an access names. -/
def State.locate (s : State) (a : BusAccess) : Reg := Reg.ofOffset s.params.bufBytes a.offset

/-! ## What a read cannot rely on while a command runs (R331) -/

/-- All 32 bits. -/
def allBits : Word := 0xFFFFFFFF

/-- Byte lane k of a word mask. -/
def laneMask (b : Bool) (k : Nat) : Word := if b then (0xFF : Word) <<< (8 * k) else 0

/-- "DATA_MEM[DST .. DST+LENGTH-1]": the bytes a running CRYPT_CBC may write (R331). -/
def State.cbcMayWrite (s : State) (off : Nat) : Bool :=
  decide (s.dst.toNat ≤ off) && decide (off < s.dst.toNat + s.length.toNat)

/-- The bits of the word at byte offset off of DATA_MEM that a running CRYPT_CBC may write, byte by byte (log 17, DEDUCED,
unsafe). -/
def State.cbcOpenLanes (s : State) (off : Nat) : Word :=
  laneMask (s.cbcMayWrite off) 0 ||| laneMask (s.cbcMayWrite (off + 1)) 1 ||| laneMask (s.cbcMayWrite (off + 2)) 2 |||
    laneMask (s.cbcMayWrite (off + 3)) 3

/-- STATUS.TBL_DONE, unspecified while a command that may build the table set runs (R331, I4; log 5). -/
def openTblDone (r : Reg) : Word :=
  match r with
  | .status => bitAt true 12
  | _ => 0

/-- CTXINFO, unspecified while a command that may write it runs (R331). -/
def openCtxInfo (r : Reg) : Word :=
  match r with
  | .ctxinfo => allBits
  | _ => 0

/-- DOUT0..3, unspecified while CRYPT_ECB runs (R331). -/
def openDout (r : Reg) : Word :=
  match r with
  | .dout _ => allBits
  | _ => 0

/-- IV0..3 and the output bytes of DATA_MEM, unspecified while CRYPT_CBC runs (R331). -/
def State.openCbc (s : State) (r : Reg) : Word :=
  match r with
  | .iv _ => allBits
  | .dataMem w => s.cbcOpenLanes (4 * w)
  | _ => 0

/-- The bits of a location whose read is unspecified while instruction i runs (R331). -/
def State.openBitsOf (s : State) (i : Instr) (r : Reg) : Word :=
  match i with
  | .nop => 0
  | .buildTables => openTblDone r
  | .setkeyEnc _ => openTblDone r ||| openCtxInfo r
  | .setkeyDec _ => openTblDone r ||| openCtxInfo r
  | .cryptEcb _ => openDout r
  | .cryptCbc _ => s.openCbc r
  | .wipe _ => openCtxInfo r

/-- The bits of a location whose read is unspecified now: none while IDLE, and none while an illegal command runs, which writes
nothing but STATUS (R274). -/
def State.openBits (s : State) (r : Reg) : Word :=
  match s.seq with
  | .idle => 0
  | .busy .illegal _ => 0
  | .busy (.legal i) _ => s.openBitsOf i r

/-! ## Accesses -/

/-- The data of an admitted read: the present value, with a free value in the unspecified bits, where there are any (R331). -/
def State.readData (s : State) (r : Reg) : Word :=
  if s.openBits r = 0 then s.readReg r else (s.readReg r &&& ~~~(s.openBits r)) ||| (s.freeWord &&& s.openBits r)

/-- An admitted read. It changes nothing of the core (R69); a read with unspecified bits draws the free value they take. -/
def State.admittedRead (s : State) (r : Reg) : State :=
  let t := if s.openBits r = 0 then s else s.drawFree
  { t with reply := some (.read .okay (s.readData r)) }

/-- An admitted write: its effect while IDLE (R23); dropped, with HAZ set, while BUSY, at any admitted offset
(R330; log 23, DEDUCED, unsafe). The response is OKAY. -/
def State.admittedWrite (s : State) (r : Reg) (v : Word) : State :=
  let t := if s.isBusy then { s with haz := true } else s.writeReg r v
  { t with reply := some (.write .okay) }

/-- One bus access while `rst` is released (R62). A refused access changes no state and never sets HAZ. -/
def State.access (s : State) (a : BusAccess) : State :=
  if a.admitted then
    match a.kind with
    | .read => s.admittedRead (s.locate a)
    | .write v => s.admittedWrite (s.locate a) v
  else { s with reply := some a.refusedReply }

/-- The response a free value picks. -/
def respOf (w : Word) : BusResp := if w.getLsbD 0 then .okay else .error

/-- One bus access while `rst` is asserted: no effect, and an unspecified response (R310, I7; log 6). -/
def State.accessInReset (s : State) (a : BusAccess) : State :=
  match a.kind with
  | .read => { s.drawFree.drawFree with reply := some (.read (respOf s.freeWord) s.drawFree.freeWord) }
  | .write _ => { s.drawFree with reply := some (.write (respOf s.freeWord)) }

end Sys2Proof.Machine
end

