-- ==== Sys2Proof/Machine/Tables.lean ====
section
/-! DEFINITION. Component (1), the Galois-field table builder (40_tables.md), and the command BUILD_TABLES (R134). -/

namespace Sys2Proof.Machine

/-! ## GF(2^8) (R120, R123) -/

/-- `xtime(x)`: multiplication by 2 modulo 0x11B (R120). -/
def xtime (x : Byte) : Byte := (x <<< 1) ^^^ (if x.getLsbD 7 then 0x1B else 0x00)

/-- The loop of `gmul(a, b)` for the n lowest bits of b (R123). -/
def gmulLoop : Nat → Byte → Byte → Byte
  | 0, _, _ => 0
  | n + 1, a, b => (if b.getLsbD 0 then a else 0) ^^^ gmulLoop n (xtime a) (b >>> 1)

/-- `gmul(a, b)`, shift-and-add: the loop ends when b is 0, after at most 8 shifts, and adds nothing after that (R123). -/
def gmul (a b : Byte) : Byte := gmulLoop 8 a b

/-! ## POW, LOG and RCON (R121, R124) -/

/-- The values of x in the loop of R121: x, then `x ^ xtime(x)`, and so on, n of them. -/
def powSequence : Nat → Byte → List Byte
  | 0, _ => []
  | n + 1, x => x :: powSequence n (x ^^^ xtime x)

theorem length_powSequence (n : Nat) (x : Byte) : (powSequence n x).length = n := by
  induction n generalizing x with
  | zero => rfl
  | succ n ih => simp [powSequence, ih]

/-- POW: iteration i writes `POW[i] <- x`, and each entry once (R121). -/
@[irreducible] def powTable : ByteTable := ⟨⟨powSequence 256 1⟩, by simp [length_powSequence]⟩

/-- LOG: iteration i writes `LOG[x] <- i`, in increasing order of i, over what LOG held (R121, R122; log 19, DEDUCED,
safe). -/
@[irreducible] def logTable (log : ByteTable) : ByteTable := tablePutAll log ((powSequence 256 1).zip allBytes)

/-- `MUL(a, b)`: the product through the tables (R123). -/
def tableMul (pow log : ByteTable) (a b : Byte) : Byte :=
  if a ≠ 0 ∧ b ≠ 0 then
    tableAt pow (BitVec.ofNat 8 (((tableAt log a).toNat + (tableAt log b).toNat) % 255))
  else 0

/-- The ten successive doublings from x (R124). -/
def doublings : Nat → Byte → List Word
  | 0, _ => []
  | n + 1, x => zext32 x :: doublings n (xtime x)

/-- RCON[0..9] (R124). -/
def rconTable : Vector Word 10 := ⟨⟨doublings 10 1⟩, by simp [doublings]⟩

/-! ## The S-boxes (R127-R130) -/

/-- `inv ^ r1 ^ r2 ^ r3 ^ r4`: the rotate-XOR combination, step by step (R128). -/
def rotateXor (inv : Byte) : Byte :=
  let r1 := rotl8 inv 1
  let r2 := rotl8 r1 1
  let r3 := rotl8 r2 1
  let r4 := rotl8 r3 1
  inv ^^^ r1 ^^^ r2 ^^^ r3 ^^^ r4

/-- The affine transform, unfaulted (R128). -/
def affine (inv : Byte) : Byte := rotateXor inv ^^^ 0x63

/-- `affine_or_fault(inv, s)` (R129). -/
def affineOrFault (form : FaultForm) (inv : Byte) (skip : Bool) : Byte :=
  if skip then
    match form with
    | .noConst => rotateXor inv
    | .preAffine => inv
  else affine inv

/-- `mask(i)`: bit i mod 32 of FMASKn with n = i div 32 (R45, R126). -/
def maskBit (mask : Vector Word 8) (i : Byte) : Bool :=
  (mask[i.toNat / 32]'(by have := i.isLt; omega)).getLsbD (i.toNat % 32)

/-- Entry i of the forward S-box: 0x63 for i = 0, which the hook does not cover, else the S-box loop's value (R127). -/
def sboxEntry (form : FaultForm) (mask : Vector Word 8) (pow log : ByteTable) (i : Byte) : Byte :=
  if i = 0 then 0x63 else affineOrFault form (tableAt pow (255 - tableAt log i)) (maskBit mask i)

/-- FSB: iteration i writes entry i, and each entry is written once (R127). -/
def forwardSbox (form : FaultForm) (mask : Vector Word 8) (pow log : ByteTable) : ByteTable :=
  tableOf (sboxEntry form mask pow log)

/-- RSB: the writes `RSB[x] <- i`, where x is FSB[i], in increasing order of i, over what RSB held. The first is
`RSB[0x63] <- 0x00`, since FSB[0] = 0x63 (R127, R130; log 19). -/
def reverseSbox (rsb fsb : ByteTable) : ByteTable :=
  tablePutAll rsb (allBytes.map fun i => (tableAt fsb i, i))

/-! ## The T-tables (R135, R136) -/

/-- A word-table rotated left by 8 bits, entry by entry. -/
def rotateTable (t : WordTable) : WordTable := tableOf fun i => rotlWord8 (tableAt t i)

/-- Four tables, each the one before it rotated left by 8 bits (R135, R136). -/
def fourRotations (t : WordTable) : Vector WordTable 4 :=
  #v[t, rotateTable t, rotateTable (rotateTable t), rotateTable (rotateTable (rotateTable t))]

/-- FT[0][i] = word(2s, s, s, 3s) with s = FSB[i] (R135). -/
def forwardEntry (s : Byte) : Word := wordOf (xtime s) s s (xtime s ^^^ s)

/-- FT[0..3] (R135). -/
def forwardTables (fsb : ByteTable) : Vector WordTable 4 :=
  fourRotations (tableOf fun i => forwardEntry (tableAt fsb i))

/-- RT[0][i] = word(0E·r, 09·r, 0D·r, 0B·r) with r = RSB[i] (R136). -/
def reverseEntry (pow log : ByteTable) (r : Byte) : Word :=
  wordOf (tableMul pow log 0x0E r) (tableMul pow log 0x09 r) (tableMul pow log 0x0D r) (tableMul pow log 0x0B r)

/-- RT[0..3] (R136). -/
def reverseTables (pow log rsb : ByteTable) : Vector WordTable 4 :=
  fourRotations (tableOf fun i => reverseEntry pow log (tableAt rsb i))

/-! ## The build procedure (R125) -/

/-- The table set a build leaves, from the fault form, the latched mask, POW, LOG, and the present content of the RSB RAM. -/
@[irreducible] def buildTableSet (form : FaultForm) (mask : Vector Word 8) (pow log rsb : ByteTable) : TableSet :=
  let fsb := forwardSbox form mask pow log
  let rsb' := reverseSbox rsb fsb
  { fsb := fsb
    rsb := rsb'
    ft := forwardTables fsb
    rt := reverseTables pow log rsb'
    rcon := rconTable }

/-- Step 1 of R125: latch FMASK and CONFIG.TRIG_EN. A build that is already past this step has latched them. -/
def State.latchBuild (s : State) : State :=
  match s.seq with
  | .busy _ .sboxLoop => s
  | .busy _ .tail => s
  | _ => { s with maskLatch := s.fmask, trLatch := s.trigEn }

/-- Steps 2 to 6 of R125 on a state that has latched; `trig` is 0 again after the S-box loop (R131). -/
def State.buildFromLatch (s : State) : State :=
  let log := logTable s.log
  { s with
    pow := powTable
    log := log
    tables := buildTableSet s.params.faultForm s.maskLatch powTable log s.tables.rsb
    trig := false
    tblDone := true }

/-- `build()` (R125). -/
def State.build (s : State) : State := s.latchBuild.buildFromLatch

/-- `ensure_tables`: "if TBL_DONE = 0: build()" (R140, R132). -/
def State.ensureTables (s : State) : State := if s.tblDone then s else s.build

/-! ## BUILD_TABLES -/

/-- BUILD_TABLES (R134). -/
def execBuildTables (s : State) : Host.Outcome State Fault Refusal := .next (s.ensureTables.complete .ok)

end Sys2Proof.Machine
end

