-- ==== Sys2Proof/Machine/KeySchedule.lean ====
section
/-! DEFINITION. Component (2), the key schedule expander (41_key_schedule.md), and the commands SETKEY_ENC (R160) and SETKEY_DEC
(R165). -/

namespace Sys2Proof.Machine

/-- The forward S-box of each byte of a word, lane by lane. -/
def subWord (fsb : ByteTable) (w : Word) : Word :=
  wordOf (tableAt fsb (byteLane w 0)) (tableAt fsb (byteLane w 1)) (tableAt fsb (byteLane w 2)) (tableAt fsb (byteLane w 3))

/-- `word(FSB[byte(w,1)], FSB[byte(w,2)], FSB[byte(w,3)], FSB[byte(w,0)])`: word rotate, ROTR8, and substitution (R162). -/
def subRotWord (fsb : ByteTable) (w : Word) : Word :=
  wordOf (tableAt fsb (byteLane w 1)) (tableAt fsb (byteLane w 2)) (tableAt fsb (byteLane w 3)) (tableAt fsb (byteLane w 0))

/-- RCON[n]; no rule reads at or above 10 (R124, R162). -/
def rconAt (t : TableSet) (n : Nat) : Word := t.rcon[n]?.getD 0

/-- The schedule head: `RK[i] = word(K[4i], K[4i+1], K[4i+2], K[4i+3])` for i < Nk, over an empty schedule (R162). -/
def scheduleHead (key : Vector Word 8) (nk : Nat) : Schedule :=
  (List.range nk).foldl
    (fun rk i =>
      schedulePut rk i (wordOf (keyByte key (4 * i)) (keyByte key (4 * i + 1)) (keyByte key (4 * i + 2)) (keyByte key (4 * i + 3))))
    zeroSchedule

/-- Word j ≥ 1 of repetition n: XOR-chaining, and in the 256-bit variant the pure substitution at the midpoint (R162). -/
def expandWord (t : TableSet) (nk base : Nat) (rk : Schedule) (j : Nat) : Schedule :=
  if nk = 8 ∧ j = 4 then
    schedulePut rk (base + 12) (scheduleAt rk (base + 4) ^^^ subWord t.fsb (scheduleAt rk (base + 11)))
  else
    schedulePut rk (base + nk + j) (scheduleAt rk (base + j) ^^^ scheduleAt rk (base + nk + j - 1))

/-- Repetition n of the expansion (R162). -/
def expandRepetition (t : TableSet) (nk : Nat) (rk : Schedule) (n : Nat) : Schedule :=
  let base := nk * n
  let w := scheduleAt rk (base + nk - 1)
  let rk' := schedulePut rk (base + nk) (scheduleAt rk base ^^^ rconAt t n ^^^ subRotWord t.fsb w)
  (List.range' 1 (nk - 1)).foldl (expandWord t nk base) rk'

/-- `expand_enc(K, Nk, NIT)` (R162), with K the key bytes of the KEY registers (R39). -/
def expandEnc (t : TableSet) (key : Vector Word 8) (kp : KeyParams) : Schedule :=
  (List.range kp.nit).foldl (expandRepetition t kp.nk) (scheduleHead key kp.nk)

/-- Entry b of the T-table RT[k] (R46). -/
def rtAt (t : TableSet) (k : Fin 4) (b : Byte) : Word := tableAt t.rt[k.val] b

/-- Entry b of the T-table FT[k] (R46). -/
def ftAt (t : TableSet) (k : Fin 4) (b : Byte) : Word := tableAt t.ft[k.val] b

/-- The inverse round transform of an inner schedule word: RT[k] of the forward S-box of lane k (R166, 90_conflicts.md C2). -/
def inverseRoundWord (t : TableSet) (w : Word) : Word :=
  rtAt t 0 (tableAt t.fsb (byteLane w 0)) ^^^ rtAt t 1 (tableAt t.fsb (byteLane w 1)) ^^^
    rtAt t 2 (tableAt t.fsb (byteLane w 2)) ^^^ rtAt t 3 (tableAt t.fsb (byteLane w 3))

/-- Word i of the decryption schedule of E: word i mod 4 of group NR - i div 4 of E, plain in the first and the last group,
transformed in the inner ones; 0 above group NR (R166). -/
def decWord (t : TableSet) (e : Schedule) (nr i : Nat) : Word :=
  let g := i / 4
  let w := scheduleAt e (4 * (nr - g) + i % 4)
  if g = 0 then w
  else if g < nr then inverseRoundWord t w
  else if g = nr then w
  else 0

/-- `expand_dec(E, NR)` (R166). -/
def expandDec (t : TableSet) (e : Schedule) (nr : Nat) : Schedule := Vector.ofFn fun i : Fin 64 => decWord t e nr i.val

/-- The operand checks of SETKEY_ENC and SETKEY_DEC: KEYBITS first, then the context must be empty (R160, R165, R278). -/
def State.withKeyParams (s : State) (c : CtxIdx) (k : KeyParams → State) : State :=
  match keyParams s.keybits with
  | none => s.raise .invalidKeyLength
  | some kp => if (s.ctxAt c).nr ≠ .empty then s.raise .undefinedUse else k kp

/-- SETKEY_ENC's effect after its checks (R160): the tables are ensured, then RK and NR are written. -/
def State.keyEncrypt (s : State) (c : CtxIdx) (kp : KeyParams) : State :=
  let s := s.ensureTables
  (s.setCtx c { nr := kp.nr, rk := expandEnc s.tables s.key kp }).complete .ok

/-- SETKEY_DEC's effect after its checks (R165): TMPK holds the encryption schedule while the decryption schedule is derived, and
is wiped before the command completes (R167). -/
def State.keyDecrypt (s : State) (c : CtxIdx) (kp : KeyParams) : State :=
  let s := s.ensureTables
  let s := { s with tmpk := expandEnc s.tables s.key kp }
  let s := s.setCtx c { nr := kp.nr, rk := expandDec s.tables s.tmpk kp.nr.toNat }
  { s with tmpk := zeroSchedule }.complete .ok

/-- SETKEY_ENC c (R160). -/
def execSetkeyEnc (c : CtxIdx) (s : State) : Host.Outcome State Fault Refusal :=
  .next (s.withContext c fun s => s.withKeyParams c (s.keyEncrypt c))

/-- SETKEY_DEC c (R165). -/
def execSetkeyDec (c : CtxIdx) (s : State) : Host.Outcome State Fault Refusal :=
  .next (s.withContext c fun s => s.withKeyParams c (s.keyDecrypt c))

end Sys2Proof.Machine
end

