-- ==== Sys2Proof/Machine/Block.lean ====
section
/-! DEFINITION. Component (3), the round-function engine (42_block.md), and the command CRYPT_ECB (R190). -/

namespace Sys2Proof.Machine

/-- PF = (0, 1, 2, 3): the forward lane offsets (R199). -/
def forwardOffset (k : Fin 4) : Fin 4 := k

/-- PR = (0, 3, 2, 1): the reverse lane offsets (R199). -/
def reverseOffset (k : Fin 4) : Fin 4 :=
  match k with
  | 0 => 0
  | 1 => 3
  | 2 => 2
  | 3 => 1

/-- Byte lane k of input word (j + P[k]) mod 4 (R193, R194, R199). -/
def laneOf (p : Fin 4 → Fin 4) (y : Quad) (j k : Fin 4) : Byte := byteLane (y.get (j + p k)) k

/-- `FROUND(Y, k)` (R193). -/
def fround (t : TableSet) (y k : Quad) : Quad :=
  Quad.ofFn fun j =>
    k.get j ^^^ ftAt t 0 (laneOf forwardOffset y j 0) ^^^ ftAt t 1 (laneOf forwardOffset y j 1) ^^^
      ftAt t 2 (laneOf forwardOffset y j 2) ^^^ ftAt t 3 (laneOf forwardOffset y j 3)

/-- `RROUND(Y, k)` (R194). -/
def rround (t : TableSet) (y k : Quad) : Quad :=
  Quad.ofFn fun j =>
    k.get j ^^^ rtAt t 0 (laneOf reverseOffset y j 0) ^^^ rtAt t 1 (laneOf reverseOffset y j 1) ^^^
      rtAt t 2 (laneOf reverseOffset y j 2) ^^^ rtAt t 3 (laneOf reverseOffset y j 3)

/-- `FFINAL(Y, k)` (R195). -/
def ffinal (t : TableSet) (y k : Quad) : Quad :=
  Quad.ofFn fun j =>
    k.get j ^^^ wordOf (tableAt t.fsb (laneOf forwardOffset y j 0)) (tableAt t.fsb (laneOf forwardOffset y j 1))
      (tableAt t.fsb (laneOf forwardOffset y j 2)) (tableAt t.fsb (laneOf forwardOffset y j 3))

/-- `RFINAL(Y, k)` (R196). -/
def rfinal (t : TableSet) (y k : Quad) : Quad :=
  Quad.ofFn fun j =>
    k.get j ^^^ wordOf (tableAt t.rsb (laneOf reverseOffset y j 0)) (tableAt t.rsb (laneOf reverseOffset y j 1))
      (tableAt t.rsb (laneOf reverseOffset y j 2)) (tableAt t.rsb (laneOf reverseOffset y j 3))

/-- The full round of a direction: FROUND or RROUND (R197). -/
def fullRound (d : Direction) (t : TableSet) (y k : Quad) : Quad :=
  match d with
  | .encrypt => fround t y k
  | .decrypt => rround t y k

/-- The final round of a direction: FFINAL or RFINAL (R197). -/
def finalRound (d : Direction) (t : TableSet) (y k : Quad) : Quad :=
  match d with
  | .encrypt => ffinal t y k
  | .decrypt => rfinal t y k

/-- n double-rounds from schedule position p on: `Y <- F(X, RK[p..p+3]); X <- F(Y, RK[p+4..p+7])` (R197). -/
def doubleRounds (d : Direction) (t : TableSet) (ctx : Context) : Nat → Nat → Quad → Quad
  | 0, _, x => x
  | n + 1, p, x =>
    let y := fullRound d t x (ctx.words p)
    doubleRounds d t ctx n (p + 8) (fullRound d t y (ctx.words (p + 4)))

/-- The output words of `block(c, B, F, L)`: the whitening (R192), NR/2 - 1 double-rounds, one more full round, the final round
(R197, R191). -/
def cipherBlock (d : Direction) (t : TableSet) (ctx : Context) (b : Quad) : Quad :=
  let x := b.xor (ctx.words 0)
  let n := ctx.nr.toNat / 2 - 1
  let x := doubleRounds d t ctx n 4 x
  let p := 4 + 8 * n
  let y := fullRound d t x (ctx.words p)
  finalRound d t y (ctx.words (p + 4))

/-- The wipe of the working-register sets: X[0..3] and Y[0..3] are 0 (R198). -/
def State.wipeWorking (s : State) : State := { s with x := Quad.zero, y := Quad.zero }

/-- `encrypt_block(c, B)` or `decrypt_block(c, B)` (R197): the output words and the state, whose X and Y the call has used and
wiped (R198). -/
def State.block (s : State) (d : Direction) (c : CtxIdx) (b : Quad) : Quad × State :=
  (cipherBlock d s.tables (s.ctxAt c) b, s.wipeWorking)

/-- CRYPT_ECB's effect after its checks (R190). -/
def State.cryptBlock (s : State) (c : CtxIdx) (d : Direction) : State :=
  let r := s.block d c s.din
  { r.2 with dout := r.1 }.complete .ok

/-- The checks of CRYPT_ECB: MODE first, then the context must be keyed (R190, R202, R278). -/
def State.withDirection (s : State) (c : CtxIdx) (k : Direction → State) : State :=
  match directionOf s.mode with
  | none => s.raise .invalidMode
  | some d => if (s.ctxAt c).nr = .empty then s.raise .undefinedUse else k d

/-- CRYPT_ECB c (R190). -/
def execCryptEcb (c : CtxIdx) (s : State) : Host.Outcome State Fault Refusal :=
  .next (s.withContext c fun s => s.withDirection c (s.cryptBlock c))

end Sys2Proof.Machine
end

