-- ==== Sys2Proof/Machine/Cbc.lean ====
section
/-! DEFINITION. Component (4), the CBC chaining-mode controller (43_cbc.md): the command CRYPT_CBC (R220). -/

namespace Sys2Proof.Machine

/-- One block of the encryption loop (R220, R223): `O <- store_block(encrypt_block(c, load_block(I ^ CHAIN)))`. -/
def State.cbcEncryptBlock (s : State) (c : CtxIdx) (src dst : Nat) : State :=
  let input := s.memRead src
  let r := s.block .encrypt c (loadBlock (xorBytes input s.chain))
  let output := storeBlock r.1
  { r.2.memWrite dst output with chain := output }

/-- One block of the decryption loop (R220, R225): the raw ciphertext is saved before the output is written. -/
def State.cbcDecryptBlock (s : State) (c : CtxIdx) (src dst : Nat) : State :=
  let input := s.memRead src
  let s := { s with save := input }
  let r := s.block .decrypt c (loadBlock input)
  let output := xorBytes (storeBlock r.1) s.chain
  let s := r.2.memWrite dst output
  { s with chain := s.save }

/-- One block, in the direction MODE selects (R220). -/
def State.cbcBlock (s : State) (d : Direction) (c : CtxIdx) (src dst : Nat) : State :=
  match d with
  | .encrypt => s.cbcEncryptBlock c src dst
  | .decrypt => s.cbcDecryptBlock c src dst

/-- n blocks in increasing order, from input offset src and output offset dst on (R222). -/
def State.cbcLoop (s : State) (d : Direction) (c : CtxIdx) : Nat → Nat → Nat → State
  | 0, _, _ => s
  | n + 1, src, dst => (s.cbcBlock d c src dst).cbcLoop d c n (src + 16) (dst + 16)

/-- CRYPT_CBC's effect after its checks, for LENGTH > 0 (R220): CHAIN from the IV, the block loop, the IV from CHAIN (R224, R225),
CHAIN and SAVE wiped (R226). -/
def State.cryptChain (s : State) (c : CtxIdx) (d : Direction) : State :=
  let s := { s with chain := storeBlock s.iv }
  let s := s.cbcLoop d c (s.length.toNat / 16) s.src.toNat s.dst.toNat
  { s with iv := loadBlock s.chain, chain := zeroBytes, save := zeroBytes }.complete .ok

/-- The operand checks of R221, in its order; the sums are exact (R97). LENGTH = 0 completes OK with no effect (R227). -/
def State.withCbcOperands (s : State) (c : CtxIdx) (k : Direction → State) : State :=
  match directionOf s.mode with
  | none => s.raise .invalidMode
  | some d =>
    if s.length.toNat % 16 ≠ 0 then s.raise .invalidInputLength
    else if s.length.toNat = 0 then s.complete .ok
    else if (s.ctxAt c).nr = .empty then s.raise .undefinedUse
    else if s.src.toNat + s.length.toNat > s.params.bufBytes ∨ s.dst.toNat + s.length.toNat > s.params.bufBytes then
      s.raise .range
    else k d

/-- CRYPT_CBC c (R220). -/
def execCryptCbc (c : CtxIdx) (s : State) : Host.Outcome State Fault Refusal :=
  .next (s.withContext c fun s => s.withCbcOperands c (s.cryptChain c))

end Sys2Proof.Machine
end

