-- ==== Sys2Proof/Machine/Control.lean ====
section
/-! DEFINITION. The commands that belong to no cipher component: NOP (44_control.md R254) and WIPE (R255). -/

namespace Sys2Proof.Machine

/-- NOP (R254): "do nothing and complete". -/
def execNop (s : State) : Host.Outcome State Fault Refusal := .next (s.complete .ok)

/-- `CTX[c].NR <- 0; for i in 0..63: CTX[c].RK[i] <- 0` (R255). -/
def State.wipeContext (s : State) (c : CtxIdx) : State := s.setCtx c { nr := .empty, rk := zeroSchedule }

/-- WIPE c (R255). -/
def execWipe (c : CtxIdx) (s : State) : Host.Outcome State Fault Refusal :=
  .next (s.withContext c fun s => (s.wipeContext c).complete .ok)

end Sys2Proof.Machine
end

