-- ==== Sys2Proof/Machine/Dispatch.lean ====
section
/-! DEFINITION. The meaning of every command: its execution and its completion (44_control.md R250, R252), one arm per constructor. -/

namespace Sys2Proof.Machine

def exec (i : Instr) (s : State) : Host.Outcome State Fault Refusal :=
  match i with
  | .nop => Sys2Proof.Machine.execNop s
  | .buildTables => Sys2Proof.Machine.execBuildTables s
  | .setkeyEnc c => Sys2Proof.Machine.execSetkeyEnc c s
  | .setkeyDec c => Sys2Proof.Machine.execSetkeyDec c s
  | .cryptEcb c => Sys2Proof.Machine.execCryptEcb c s
  | .cryptCbc c => Sys2Proof.Machine.execCryptCbc c s
  | .wipe c => Sys2Proof.Machine.execWipe c s

end Sys2Proof.Machine
end

