-- ==== Sys2Proof/Machine/Sequencer.lean ====
section
/-! DEFINITION. The sequencer between issue and completion: the trigger bracket of a running table build (40_tables.md R131), and reset
(70_reset_and_hazards.md R310). -/

namespace Sys2Proof.Machine

/-- SETKEY on context c passes its checks (R160, R165): it will run `ensure_tables`. -/
def State.setkeyPasses (s : State) (c : CtxIdx) : Bool :=
  decide (c.val < s.params.nCtx) && (keyParams s.keybits).isSome && decide ((s.ctxAt c).nr = .empty)

/-- The running instruction i runs the build procedure: the table set is not built, and i is BUILD_TABLES or a SETKEY that passes
its checks (R125, R132, R134, R140). -/
def State.buildsTables (s : State) (i : Instr) : Bool :=
  !s.tblDone &&
    match i with
    | .nop => false
    | .buildTables => true
    | .setkeyEnc c => s.setkeyPasses c
    | .setkeyDec c => s.setkeyPasses c
    | .cryptEcb _ => false
    | .cryptCbc _ => false
    | .wipe _ => false

/-- The build enters its S-box loop: it has latched the mask and TRIG_EN, and `trig` is 1 if the latched TRIG_EN is (R125, R131). -/
def State.enterSboxLoop (s : State) (i : Instr) : State :=
  let t := s.latchBuild
  { t with seq := .busy (.legal i) .sboxLoop, trig := t.trLatch }

/-- The build leaves its S-box loop: `trig` is 0 (R131). -/
def State.leaveSboxLoop (s : State) (i : Instr) : State :=
  { s with seq := .busy (.legal i) .tail, trig := false }

/-- The running command passes the next edge of its S-box loop; a command that builds no table has none. -/
def State.advance (s : State) : State :=
  match s.seq with
  | .idle => s
  | .busy .illegal _ => s
  | .busy (.legal i) .start => if s.buildsTables i then s.enterSboxLoop i else s
  | .busy (.legal i) .sboxLoop => s.leaveSboxLoop i
  | .busy (.legal _) .tail => s

/-- The running command has an edge of its S-box loop still to pass: a build that has not entered the loop, or one inside it. Its
execution cannot end before it has passed both (R125, R131: `trig` is 1 over every iteration of the loop). -/
def State.edgePending (s : State) : Bool :=
  match s.seq with
  | .idle => false
  | .busy .illegal _ => false
  | .busy (.legal i) .start => s.buildsTables i
  | .busy (.legal _) .sboxLoop => true
  | .busy (.legal _) .tail => false

/-- The assertion of `rst` (R310): every piece of state takes its reset value, a running command is abandoned with all its
effects, DATA_MEM becomes unspecified (a new epoch of arbitrary bytes, counted at the assertion: log 18, DEDUCED, safe). The parameters and
the outside world stay. -/
def State.assertReset (s : State) : State :=
  { State.resetWith s.params (s.epoch + 1) s.freeIdx with rst := true, inbox := s.inbox }

/-- The `rst` input takes a level. -/
def State.setResetLine (s : State) (level : Bool) : State :=
  if level then s.assertReset else { s with rst := false }

end Sys2Proof.Machine
end

