-- ==== Sys2Proof/Machine/Events.lean ====
section
/-! DEFINITION. The transitions of the core (44_control.md R257): what each event does. -/

namespace Sys2Proof.Machine

/-- The completion step of the running command (R252): a decoded command has its meaning, an illegal one completes with
ILLEGAL_COMMAND and no other effect (R91, R274). While IDLE nothing runs. -/
def State.finish (s : State) : Host.Outcome State Fault Refusal :=
  match s.seq with
  | .idle => .next s
  | .busy .illegal _ => .next (s.raise .illegalCommand)
  | .busy (.legal i) _ => exec i s

/-- What an event does while `rst` is released. -/
def State.onEvent (s : State) : Event → Host.Outcome State Fault Refusal
  | .access a => .next (s.access a)
  | .advance => .next s.advance
  | .finish => s.finish
  | .reset level => .next (s.setResetLine level)

/-- What an event does while `rst` is asserted: only the release of `rst` changes the core (R310, R286;
log 6, DEDUCED, unsafe; log 20, DEDUCED, safe). -/
def State.onEventInReset (s : State) : Event → Host.Outcome State Fault Refusal
  | .access a => .next (s.accessInReset a)
  | .advance => .next s
  | .finish => .next s
  | .reset level => .next (s.setResetLine level)

/-- The inbox without its first event. -/
def State.popEvent (s : State) : State := { s with inbox := s.inbox.tail }

/-- The next transition: the first event of the inbox. Where that is the end of an execution that has an edge of its S-box loop still
to pass, the command passes that edge first and the event waits (R131; log 7, DESIGN CHOICE, safe). Where the outside world does
nothing more, a running command goes on to its end in the same way (its latency is finite) and an idle core stays as it is (log 9,
DESIGN CHOICE, safe). A completion and an access in one cycle are two events, the completion first (R286; log 25, DEDUCED, safe). -/
def State.transition (s : State) : Host.Outcome State Fault Refusal :=
  match s.inbox with
  | [] => if s.edgePending then .next s.advance else s.finish
  | e :: _ =>
    if s.rst then s.popEvent.onEventInReset e
    else if e = .finish ∧ s.edgePending = true then .next s.advance
    else s.popEvent.onEvent e

/-- The state in which SEQ has latched the command word w and its execution ends next: what the host's write of w to CMD and the
issue step leave (R251), and in a table build the two edges of its S-box loop (R131), with the end of the execution as the next
event. -/
def State.latchWord (s : State) (w : Word) : State :=
  { (s.issue w).advance.advance with rst := false, inbox := .finish :: s.inbox }

end Sys2Proof.Machine
end

