-- ==== Sys2Proof/Machine/Step.lean ====
section
/-! DEFINITION. One step of the core (44_control.md R257), and how a command word comes to be the one the next step runs (log 10,
DESIGN CHOICE, safe). -/

namespace Sys2Proof.Machine

/-- One step: the next transition of the core. -/
def step (s : State) : Host.Outcome State Fault Refusal := s.transition

/-- The core fetches nothing (R21): a command comes from the host's write to CMD. This is s with the word of the low nbits bits of
w issued, past the S-box loop if it builds the tables, and the end of its execution as the next event, so that the next step runs exactly that command. -/
def State.withFetchWord (s : State) (nbits w : Nat) : State := s.latchWord (commandWord nbits w)

end Sys2Proof.Machine
end

