-- ==== Sys2Proof/Machine/HostProgram.lean ====
section
/-! DEFINITION. The host-program notation (30_encoding.md R101-R103): host bus operations, command mnemonics, pseudo-instructions, and the
events each stands for. The notation is the host's; the core sees only the bus accesses. -/

namespace Sys2Proof.Machine

/-- The four host operations (R101). -/
inductive HostOp where
  /-- `wr OFF, VAL`. -/
  | wr (off : BitVec 13) (val : Word)
  /-- `rd OFF`. -/
  | rd (off : BitVec 13)
  /-- `poll`: `rd 0x008` until bit 0 is 0; busyReads is how many of its reads find BUSY = 1. -/
  | poll (busyReads : Nat)
  /-- `wait_irq`: wait until `irq = 1`; it requires CONFIG.IRQ_EN = 1. -/
  | waitIrq
deriving DecidableEq, Repr

/-- An admitted 32-bit write. -/
def writeEvent (off : BitVec 13) (val : Word) : Event := .access { offset := off, size := .bits32, kind := .write val }

/-- An admitted 32-bit read. -/
def readEvent (off : BitVec 13) : Event := .access { offset := off, size := .bits32, kind := .read }

/-- The events of a host operation. The end of the execution that a poll or a wait_irq waits for lies inside it (log 21, DESIGN CHOICE, safe). -/
def HostOp.events : HostOp → List Event
  | .wr off val => [writeEvent off val]
  | .rd off => [readEvent off]
  | .poll busyReads => List.replicate busyReads (readEvent 0x008) ++ [.finish, readEvent 0x008]
  | .waitIrq => [.finish]

/-- The events of a host program. -/
def hostEvents (l : List HostOp) : List Event := l.flatMap HostOp.events

/-- A command mnemonic: one write of its word to CMD (R102). -/
def HostOp.command (i : Instr) : HostOp := .wr 0x004 (encode i)

/-- `w(B, n)` for a byte sequence B: `word(B[4n], B[4n+1], B[4n+2], B[4n+3])` (R103). -/
def wordAtBytes (b : List Byte) (n : Nat) : Word :=
  wordOf (b[4 * n]?.getD 0) (b[4 * n + 1]?.getD 0) (b[4 * n + 2]?.getD 0) (b[4 * n + 3]?.getD 0)

/-- `for n in 0..count-1: wr BASE+4n, w(B, n)` (R103). -/
def wrBlock (base : Nat) (count : Nat) (b : List Byte) : List HostOp :=
  (List.range count).map fun n => .wr (BitVec.ofNat 13 (base + 4 * n)) (wordAtBytes b n)

/-- `key K` (R103). -/
def hostKey (k : List Byte) : List HostOp :=
  .wr 0x014 (BitVec.ofNat 32 (8 * k.length)) :: wrBlock 0x040 (k.length / 4) k

/-- `din B` (R103). -/
def hostDin (b : List Byte) : List HostOp := wrBlock 0x060 4 b

/-- `iv B` (R103). -/
def hostIv (b : List Byte) : List HostOp := wrBlock 0x080 4 b

/-- `dout -> B` (R103). -/
def hostDout : List HostOp := (List.range 4).map fun n => .rd (BitVec.ofNat 13 (0x070 + 4 * n))

/-- `run CMD` (R103). How many reads of its poll find BUSY = 1 is what the latency decides, which is OPEN (R253): it is the
argument busyReads, so no number is fixed (log 21, DESIGN CHOICE, safe). -/
def hostRun (busyReads : Nat) (i : Instr) : List HostOp := [HostOp.command i, .poll busyReads]

/-- `ecb.enc cN` and `ecb.dec cN` (R103); busyReads as in hostRun. -/
def hostEcb (busyReads : Nat) (d : Direction) (c : CtxIdx) : List HostOp :=
  .wr 0x010 (match d with | .encrypt => 1 | .decrypt => 0) :: hostRun busyReads (.cryptEcb c)

/-- `cbc.enc cN, S, D, L` and `cbc.dec cN, S, D, L` (R103); busyReads as in hostRun. -/
def hostCbc (busyReads : Nat) (d : Direction) (c : CtxIdx) (src dst len : Word) : List HostOp :=
  [.wr 0x010 (match d with | .encrypt => 1 | .decrypt => 0), .wr 0x01C src, .wr 0x020 dst, .wr 0x018 len] ++
    hostRun busyReads (.cryptCbc c)

/-- `mem OFF, B`, OFF a multiple of 4 (R103). -/
def hostMem (off : Nat) (b : List Byte) : List HostOp := wrBlock (0x1000 + off) 4 b

/-- `check E`: the read of STATUS whose bits 7:4 the program compares with E (R103). -/
def hostCheck : List HostOp := [.rd 0x008]

end Sys2Proof.Machine
end

