-- ==== Sys2Proof/Safety.lean ====
section
/-! DEFINITION. What counts as a safe state and a safe run: the invariants of the spec, each by its own name, and the states a run
reaches. -/

namespace Sys2Proof.Machine

/-- The parameters are legal (R8). -/
def State.ParamsLegal (s : State) : Prop := s.params.legal = true

/-- DATA_MEM is in its canonical form, and every byte of it lies below BUF_BYTES (R61, R66). -/
def State.MemoryCanonical (s : State) : Prop :=
  s.mem.wf = true ∧ ∀ cell ∈ s.mem, cell.1 < s.params.bufBytes

/-- An empty context holds no key material (R40, R41: "If NR = 0, every RK word is 0"), and a context that does not exist is empty
(log 12). -/
def State.EmptyContextsBlank (s : State) : Prop :=
  ∀ c : CtxIdx,
    ((s.ctxAt c).nr = .empty → (s.ctxAt c).rk = zeroSchedule) ∧ (s.params.nCtx ≤ c.val → (s.ctxAt c).nr = .empty)

/-- "if any CTX[c].NR ≠ 0, then TBL_DONE = 1" (R56). -/
def State.KeyedHasTables (s : State) : Prop := ∀ c : CtxIdx, (s.ctxAt c).nr ≠ .empty → s.tblDone = true

/-- A keyed context holds a schedule that SETKEY_ENC or SETKEY_DEC wrote, for some key of a legal length (R41). -/
def State.KeyedHasSchedule (s : State) : Prop :=
  ∀ c : CtxIdx, (s.ctxAt c).nr ≠ .empty →
    ∃ (key : Vector Word 8) (keybits : Word) (kp : KeyParams),
      keyParams keybits = some kp ∧ (s.ctxAt c).nr = kp.nr ∧
        ((s.ctxAt c).rk = expandEnc s.tables key kp ∨
          (s.ctxAt c).rk = expandDec s.tables (expandEnc s.tables key kp) kp.nr.toNat)

/-- Until the table set is built, every table and scratch entry is 0 (R46, R48, R125: "The table RAMs hold their reset value 0
before step 4"). -/
def State.BlankUntilBuilt (s : State) : Prop :=
  s.tblDone = false → s.tables = TableSet.blank ∧ s.pow = Vector.replicate 256 0 ∧ s.log = Vector.replicate 256 0

/-- The table set, once built, is the one the build procedure makes from the mask it latched (R125, R126, R132). That the latch
keeps that mask after the build is log 8. -/
def State.TablesAsBuilt (s : State) : Prop :=
  s.tblDone = true →
    s.pow = powTable ∧ s.log = logTable (Vector.replicate 256 0) ∧
      s.tables =
        buildTableSet s.params.faultForm s.maskLatch powTable (logTable (Vector.replicate 256 0)) TableSet.blank.rsb

/-- Outside a command no scratch holds anything: X, Y (R49, R198), TMPK (R50), CHAIN and SAVE (R51) are 0. Between two steps of
this model no command is half done, so it holds of every state (log 2). -/
def State.ScratchWiped (s : State) : Prop :=
  s.x = Quad.zero ∧ s.y = Quad.zero ∧ s.tmpk = zeroSchedule ∧ s.chain = zeroBytes ∧ s.save = zeroBytes

/-- `trig` is 1 exactly while a table build runs its S-box loop, provided TRIG_EN was 1 when the build started (R52, R131). -/
def State.TrigBracket (s : State) : Prop :=
  s.trig = true ↔ (∃ cmd, s.seq = .busy cmd .sboxLoop) ∧ s.trLatch = true

/-- While BUSY, DONE and ERR are 0 (R251, R331). -/
def State.BusyFlags (s : State) : Prop := s.isBusy = true → s.done = false ∧ s.err = .ok

/-- A latched command is well-formed (R91, R251). -/
def State.LatchedWellFormed (s : State) : Prop :=
  ∀ i phase, s.seq = .busy (.legal i) phase → i.wellFormed s.params = true

/-- A command that has entered its S-box loop builds the tables, and has latched FMASK and TRIG_EN as they still stand (R125,
R330). -/
def State.BuildLatched (s : State) : Prop :=
  ∀ cmd phase, s.seq = .busy cmd phase → phase ≠ .start →
    (∃ i, cmd = .legal i ∧ s.buildsTables i = true) ∧ s.maskLatch = s.fmask ∧ s.trLatch = s.trigEn

/-- An UNDEFINED_USE is on record (R31, R276). -/
def State.UndefRecorded (s : State) : Prop := s.err = .undefinedUse → s.undef = true

/-- "While rst is asserted ... every piece of state holds the value in this table" (R310): everything but the port's own lines
and the model's own fields. -/
def State.HeldInReset (s : State) : Prop :=
  s.rst = true →
    s = { State.resetWith s.params s.epoch s.freeIdx with rst := true, reply := s.reply, inbox := s.inbox }

/-- A safe state: every invariant above. -/
structure State.Safe (s : State) : Prop where
  paramsLegal : s.ParamsLegal
  memoryCanonical : s.MemoryCanonical
  emptyContextsBlank : s.EmptyContextsBlank
  keyedHasTables : s.KeyedHasTables
  keyedHasSchedule : s.KeyedHasSchedule
  blankUntilBuilt : s.BlankUntilBuilt
  tablesAsBuilt : s.TablesAsBuilt
  scratchWiped : s.ScratchWiped
  trigBracket : s.TrigBracket
  busyFlags : s.BusyFlags
  latchedWellFormed : s.LatchedWellFormed
  buildLatched : s.BuildLatched
  undefRecorded : s.UndefRecorded
  heldInReset : s.HeldInReset

/-- A safe run: no step of it ends in a fault or a refusal, and every state of it is safe. -/
def SafeRun (s : State) : Prop := ∀ n : Nat, ∃ t : State, Sys2Proof.core.run n s = .next t ∧ t.Safe

end Sys2Proof.Machine
end

