-- ==== Sys2Proof/Certificates/Slice0/Obligations.lean ====
section
/-! DEFINITION. The statements for the provers, from the numbered rules of the spec. First the vocabulary they share, each word of it
from the rule it cites and none of it from the model's own algorithms; then the obligations. -/

namespace Sys2Proof.Statements

open Sys2Proof.Machine

/-! ## Vocabulary -/

/-- The state s after its running command has completed with code e and no other effect: ERR takes the code, DONE is 1, SEQ is
IDLE, UNDEF is set by UNDEFINED_USE (R252, R277). -/
def completed (s : State) (e : StatusCode) : State :=
  { s with err := e, undef := s.undef || decide (e = .undefinedUse), done := true, seq := .idle }

/-- The context a command names, if it names one. -/
def contextOf : Instr → Option CtxIdx
  | .nop => none
  | .buildTables => none
  | .setkeyEnc c => some c
  | .setkeyDec c => some c
  | .cryptEcb c => some c
  | .cryptCbc c => some c
  | .wipe c => some c

/-- Context c exists: c < N_CTX (R40, R91). -/
def CtxExists (s : State) (c : CtxIdx) : Prop := c.val < s.params.nCtx

/-- The number NR stands for (R40, R96). -/
def roundsOf : RoundCount → Nat
  | .empty => 0
  | .ten => 10
  | .twelve => 12
  | .fourteen => 14

/-- The number of a status code (R270). -/
def codeNumber : StatusCode → Nat
  | .ok => 0
  | .invalidKeyLength => 1
  | .invalidMode => 2
  | .invalidInputLength => 3
  | .illegalCommand => 4
  | .range => 5
  | .undefinedUse => 6

/-- The table of R96: KEYBITS, Nk, NR, NIT. -/
def keyTable : List (Word × Nat × RoundCount × Nat) :=
  [(128, 4, .ten, 10), (192, 6, .twelve, 8), (256, 8, .fourteen, 7)]

/-- MODE = 1 selects encryption, MODE = 0 decryption (R95). -/
def modeIs (d : Direction) (mode : Word) : Prop :=
  match d with
  | .encrypt => mode = 1
  | .decrypt => mode = 0

/-- Word i of a schedule. -/
def rkWord (rk : Schedule) (i : Nat) : Word := rk.toList.getD i 0

/-- The key expansion as a recurrence on the schedule words (R162, R98): word i of the first Nk is KEYi; word m of the next
Nk·NIT comes from words m - Nk and m - 1; every further word is 0. -/
def IsEncSchedule (t : TableSet) (key : Vector Word 8) (nk nit : Nat) (rk : Schedule) : Prop :=
  (∀ i : Fin 8, i.val < nk → rkWord rk i.val = key[i.val]) ∧
  (∀ m : Nat, nk ≤ m → m < nk * (nit + 1) →
    rkWord rk m = rkWord rk (m - nk) ^^^
      (let w := rkWord rk (m - 1)
       if m % nk = 0 then
         t.rcon.toList.getD (m / nk - 1) 0 ^^^
           wordOf (tableAt t.fsb (byteLane w 1)) (tableAt t.fsb (byteLane w 2)) (tableAt t.fsb (byteLane w 3))
             (tableAt t.fsb (byteLane w 0))
       else if nk = 8 ∧ m % 8 = 4 then
         wordOf (tableAt t.fsb (byteLane w 0)) (tableAt t.fsb (byteLane w 1)) (tableAt t.fsb (byteLane w 2))
           (tableAt t.fsb (byteLane w 3))
       else w)) ∧
  (∀ m : Nat, nk * (nit + 1) ≤ m → m < 64 → rkWord rk m = 0)

/-- The decryption schedule (R166): groups in reverse order, words in order inside a group; the first and the last group plain,
the inner groups through RT[k] of FSB; words at and above 4(NR+1) are 0. -/
def IsDecSchedule (t : TableSet) (nr : Nat) (e d : Schedule) : Prop :=
  ∀ g j : Nat, j < 4 → 4 * g + j < 64 →
    rkWord d (4 * g + j) =
      (let w := rkWord e (4 * (nr - g) + j)
       if nr < g then 0
       else if g = 0 ∨ g = nr then w
       else
         tableAt t.rt[0] (tableAt t.fsb (byteLane w 0)) ^^^ tableAt t.rt[1] (tableAt t.fsb (byteLane w 1)) ^^^
           tableAt t.rt[2] (tableAt t.fsb (byteLane w 2)) ^^^ tableAt t.rt[3] (tableAt t.fsb (byteLane w 3)))

/-- The round-key group g of a context (R14, R192): four words. -/
def group (ctx : Context) (g : Nat) : Quad :=
  ⟨rkWord ctx.rk (4 * g), rkWord ctx.rk (4 * g + 1), rkWord ctx.rk (4 * g + 2), rkWord ctx.rk (4 * g + 3)⟩

/-- The whitening and r full rounds, one round per group, in one register set (R191, R192, R193, R194). -/
def afterRounds (d : Direction) (t : TableSet) (ctx : Context) (b : Quad) : Nat → Quad
  | 0 => b.xor (group ctx 0)
  | r + 1 =>
    match d with
    | .encrypt => fround t (afterRounds d t ctx b r) (group ctx (r + 1))
    | .decrypt => rround t (afterRounds d t ctx b r) (group ctx (r + 1))

/-- The block function, round by round (R191): the whitening, NR - 1 full rounds, one final round with group NR. -/
def blockOf (d : Direction) (t : TableSet) (ctx : Context) (b : Quad) : Quad :=
  let y := afterRounds d t ctx b (roundsOf ctx.nr - 1)
  match d with
  | .encrypt => ffinal t y (group ctx (roundsOf ctx.nr))
  | .decrypt => rfinal t y (group ctx (roundsOf ctx.nr))

/-- The block function on bytes (R65, R223, R225). -/
def blockBytes (d : Direction) (t : TableSet) (ctx : Context) (b : Bytes16) : Bytes16 :=
  storeBlock (blockOf d t ctx (loadBlock b))

/-- Input block k of a CRYPT_CBC, as DATA_MEM holds it in s: bytes SRC+16k to SRC+16k+15 (R222). -/
def inputBlock (s : State) (k : Nat) : Bytes16 := Vector.ofFn fun i : Fin 16 => s.memByte (s.src.toNat + 16 * k + i.val)

/-- The ciphertext blocks of R223: `C_k = E(P_k ^ C_{k-1})` with `C_{-1} = IV`; cipherChain s c k is C_{k-1}. -/
def cipherChain (s : State) (c : CtxIdx) : Nat → Bytes16
  | 0 => storeBlock s.iv
  | k + 1 => blockBytes .encrypt s.tables (s.ctxAt c) (xorBytes (inputBlock s k) (cipherChain s c k))

/-- The plaintext blocks of R225: `P_k = D(C_k) ^ C_{k-1}` with `C_{-1} = IV`. -/
def plainBlock (s : State) (c : CtxIdx) (k : Nat) : Bytes16 :=
  xorBytes (blockBytes .decrypt s.tables (s.ctxAt c) (inputBlock s k))
    (match k with
      | 0 => storeBlock s.iv
      | k' + 1 => inputBlock s k')

/-- CRYPT_CBC passes every check of R221 with at least one block to process. -/
def CbcReady (s : State) (c : CtxIdx) : Prop :=
  CtxExists s c ∧ s.length.toNat % 16 = 0 ∧ 0 < s.length.toNat ∧ (s.ctxAt c).nr ≠ .empty ∧
    s.src.toNat + s.length.toNat ≤ s.params.bufBytes ∧ s.dst.toNat + s.length.toNat ≤ s.params.bufBytes

/-- The cases of R228 in which every input byte is read before any write reaches it. -/
def NoLateRead (s : State) : Prop := s.dst.toNat ≤ s.src.toNat ∨ s.src.toNat + s.length.toNat ≤ s.dst.toNat

/-- DATA_MEM, byte by byte, and the chain value after the first k blocks of a CRYPT_CBC (R220, R222, R223, R225): block k reads its
input as block k - 1 left it, writes its 16 output bytes, and hands on its ciphertext. -/
def cbcAfter (s : State) (c : CtxIdx) (d : Direction) : Nat → (Nat → Byte) × Bytes16
  | 0 => (s.memByte, storeBlock s.iv)
  | k + 1 =>
    let before := cbcAfter s c d k
    let input : Bytes16 := Vector.ofFn fun i : Fin 16 => before.1 (s.src.toNat + 16 * k + i.val)
    let output : Bytes16 :=
      match d with
      | .encrypt => blockBytes .encrypt s.tables (s.ctxAt c) (xorBytes input before.2)
      | .decrypt => xorBytes (blockBytes .decrypt s.tables (s.ctxAt c) input) before.2
    let base := s.dst.toNat + 16 * k
    (fun a => if h : base ≤ a ∧ a < base + 16 then output[a - base]'(by omega) else before.1 a,
      match d with
      | .encrypt => output
      | .decrypt => input)

/-- Offset a is an output byte of CRYPT_CBC: `DATA_MEM[DST..DST+LENGTH-1]` (R93). -/
def isOutput (s : State) (a : Nat) : Prop := s.dst.toNat ≤ a ∧ a < s.dst.toNat + s.length.toNat

/-- An unfaulted or faulted S-box value, from the multiplicative inverse (R128, R129). -/
def sboxValue (form : FaultForm) (inv : Byte) (skip : Bool) : Byte :=
  let combined := inv ^^^ rotl8 inv 1 ^^^ rotl8 inv 2 ^^^ rotl8 inv 3 ^^^ rotl8 inv 4
  match skip, form with
  | false, _ => combined ^^^ 0x63
  | true, .noConst => combined
  | true, .preAffine => inv

/-- `ROTL8` k times (R137). -/
def rotlTimes : Nat → Word → Word
  | 0, w => w
  | k + 1, w => rotlWord8 (rotlTimes k w)

/-- The latch of step 1 of R125 is still to come: the running command, if any, has not entered its S-box loop. -/
def NotYetLatched (s : State) : Prop := ∀ cmd phase, s.seq = .busy cmd phase → phase = .start

/-- The table set t is what a fault-free build leaves: a build that started with FMASK = 0 (R137, R171). -/
def FaultFreeBuild (t : TableSet) : Prop :=
  ∃ s₀ t₀ : State, s₀.tblDone = false ∧ NotYetLatched s₀ ∧ s₀.fmask = Vector.replicate 8 0 ∧
    exec .buildTables s₀ = .next t₀ ∧ t₀.tables = t

/-- Command i, run from s, builds the table set: TBL_DONE is 0, and i is BUILD_TABLES, or a SETKEY that passes its checks (R134,
R140, R161). -/
def BuildsTables (s : State) (i : Instr) : Prop :=
  s.tblDone = false ∧
    (i = .buildTables ∨
      ∃ c : CtxIdx, (i = .setkeyEnc c ∨ i = .setkeyDec c) ∧ CtxExists s c ∧
        (s.keybits = 128 ∨ s.keybits = 192 ∨ s.keybits = 256) ∧ (s.ctxAt c).nr = .empty)

/-- The core is IDLE and out of reset, and the outside world does the events l next. -/
def IdleThen (s : State) (l : List Event) : Prop := s.seq = .idle ∧ s.rst = false ∧ s.inbox = l

/-- With the end of its execution as the next event, or with nothing more to come, the running command i completes in the step after
the given number of steps: what is left of s is its meaning (R252). -/
def EndsAfter (s : State) (i : Instr) (edges : Nat) : Prop :=
  (s.inbox = [] → Sys2Proof.core.run (edges + 1) s = exec i s) ∧
    ∀ rest, s.inbox = .finish :: rest → Sys2Proof.core.run (edges + 1) s = exec i { s with inbox := rest }

/-- The code R278 gives a well-formed command: the first check that fails, in the order of its table. -/
def codeOf (s : State) : Instr → StatusCode
  | .nop => .ok
  | .buildTables => .ok
  | .wipe _ => .ok
  | .setkeyEnc c | .setkeyDec c =>
    if s.keybits ≠ 128 ∧ s.keybits ≠ 192 ∧ s.keybits ≠ 256 then .invalidKeyLength
    else if (s.ctxAt c).nr ≠ .empty then .undefinedUse
    else .ok
  | .cryptEcb c =>
    if s.mode ≠ 1 ∧ s.mode ≠ 0 then .invalidMode
    else if (s.ctxAt c).nr = .empty then .undefinedUse
    else .ok
  | .cryptCbc c =>
    if s.mode ≠ 1 ∧ s.mode ≠ 0 then .invalidMode
    else if s.length.toNat % 16 ≠ 0 then .invalidInputLength
    else if s.length.toNat = 0 then .ok
    else if (s.ctxAt c).nr = .empty then .undefinedUse
    else if s.params.bufBytes < s.src.toNat + s.length.toNat ∨ s.params.bufBytes < s.dst.toNat + s.length.toNat then .range
    else .ok

/-- The causes of R99, on the bits of the word. -/
def IsIllegalWord (p : Params) (w : Word) : Prop :=
  w.toNat / 64 ≠ 0 ∨ 7 ≤ w.toNat % 16 ∨ (w.toNat % 16 ≤ 1 ∧ w.toNat / 16 % 4 ≠ 0) ∨
    (2 ≤ w.toNat % 16 ∧ p.nCtx ≤ w.toNat / 16 % 4)

/-- In s, a 32-bit read at offset o is answered OKAY with v and changes nothing (R69). -/
def ReadsAs (s : State) (o : BitVec 13) (v : Word) : Prop :=
  ∀ rest : List Event,
    step { s with inbox := readEvent o :: rest } = .next { s with inbox := rest, reply := some (.read .okay v) }

/-- In s, a 32-bit write of v at offset o is answered OKAY and leaves t. -/
def WritesAs (s : State) (o : BitVec 13) (v : Word) (t : State) : Prop :=
  ∀ rest : List Event,
    step { s with inbox := writeEvent o v :: rest } = .next { t with inbox := rest, reply := some (.write .okay) }

/-- Offset base + 4n of the window. -/
def offsetAt (base n : Nat) : BitVec 13 := BitVec.ofNat 13 (base + 4 * n)

/-- The word offsets R22 lists no register for, below the DATA_MEM window. -/
def IsReservedOffset (o : Nat) : Prop :=
  o % 4 = 0 ∧ ((0x028 ≤ o ∧ o < 0x040) ∨ (0x090 ≤ o ∧ o < 0x0A0) ∨ (0x0C0 ≤ o ∧ o < 0x1000))

/-- The running command may build the table set (R331). -/
def mayBuild : Command → Bool
  | .legal .buildTables => true
  | .legal (.setkeyEnc _) => true
  | .legal (.setkeyDec _) => true
  | _ => false

/-- The running command may write CTXINFO (R331). -/
def mayWriteCtxInfo : Command → Bool
  | .legal (.setkeyEnc _) => true
  | .legal (.setkeyDec _) => true
  | .legal (.wipe _) => true
  | _ => false

/-- The running command is a CRYPT_ECB (R331). -/
def isEcb : Command → Bool
  | .legal (.cryptEcb _) => true
  | _ => false

/-- The running command is a CRYPT_CBC (R331). -/
def isCbc : Command → Bool
  | .legal (.cryptCbc _) => true
  | _ => false

/-- The bits of the two states that no bus access may tell apart are all that differs: the KEY registers, the round keys, the
table set and the builder and working scratch (R290, R40, R46, R48-R51). NR, which CTXINFO shows, agrees. -/
def AgreeButSecrets (s t : State) : Prop :=
  (∀ c : CtxIdx, (s.ctxAt c).nr = (t.ctxAt c).nr) ∧
    t = { s with
      key := t.key
      ctx := t.ctx
      tables := t.tables
      pow := t.pow
      log := t.log
      x := t.x
      y := t.y
      tmpk := t.tmpk
      chain := t.chain
      save := t.save }

/-- The FSB table of 95_test_vectors.md §2, "the AES S-box" (R128, R137), row by row. -/
def sboxTable : List Byte :=
  [0x63, 0x7C, 0x77, 0x7B, 0xF2, 0x6B, 0x6F, 0xC5, 0x30, 0x01, 0x67, 0x2B, 0xFE, 0xD7, 0xAB, 0x76] ++
  [0xCA, 0x82, 0xC9, 0x7D, 0xFA, 0x59, 0x47, 0xF0, 0xAD, 0xD4, 0xA2, 0xAF, 0x9C, 0xA4, 0x72, 0xC0] ++
  [0xB7, 0xFD, 0x93, 0x26, 0x36, 0x3F, 0xF7, 0xCC, 0x34, 0xA5, 0xE5, 0xF1, 0x71, 0xD8, 0x31, 0x15] ++
  [0x04, 0xC7, 0x23, 0xC3, 0x18, 0x96, 0x05, 0x9A, 0x07, 0x12, 0x80, 0xE2, 0xEB, 0x27, 0xB2, 0x75] ++
  [0x09, 0x83, 0x2C, 0x1A, 0x1B, 0x6E, 0x5A, 0xA0, 0x52, 0x3B, 0xD6, 0xB3, 0x29, 0xE3, 0x2F, 0x84] ++
  [0x53, 0xD1, 0x00, 0xED, 0x20, 0xFC, 0xB1, 0x5B, 0x6A, 0xCB, 0xBE, 0x39, 0x4A, 0x4C, 0x58, 0xCF] ++
  [0xD0, 0xEF, 0xAA, 0xFB, 0x43, 0x4D, 0x33, 0x85, 0x45, 0xF9, 0x02, 0x7F, 0x50, 0x3C, 0x9F, 0xA8] ++
  [0x51, 0xA3, 0x40, 0x8F, 0x92, 0x9D, 0x38, 0xF5, 0xBC, 0xB6, 0xDA, 0x21, 0x10, 0xFF, 0xF3, 0xD2] ++
  [0xCD, 0x0C, 0x13, 0xEC, 0x5F, 0x97, 0x44, 0x17, 0xC4, 0xA7, 0x7E, 0x3D, 0x64, 0x5D, 0x19, 0x73] ++
  [0x60, 0x81, 0x4F, 0xDC, 0x22, 0x2A, 0x90, 0x88, 0x46, 0xEE, 0xB8, 0x14, 0xDE, 0x5E, 0x0B, 0xDB] ++
  [0xE0, 0x32, 0x3A, 0x0A, 0x49, 0x06, 0x24, 0x5C, 0xC2, 0xD3, 0xAC, 0x62, 0x91, 0x95, 0xE4, 0x79] ++
  [0xE7, 0xC8, 0x37, 0x6D, 0x8D, 0xD5, 0x4E, 0xA9, 0x6C, 0x56, 0xF4, 0xEA, 0x65, 0x7A, 0xAE, 0x08] ++
  [0xBA, 0x78, 0x25, 0x2E, 0x1C, 0xA6, 0xB4, 0xC6, 0xE8, 0xDD, 0x74, 0x1F, 0x4B, 0xBD, 0x8B, 0x8A] ++
  [0x70, 0x3E, 0xB5, 0x66, 0x48, 0x03, 0xF6, 0x0E, 0x61, 0x35, 0x57, 0xB9, 0x86, 0xC1, 0x1D, 0x9E] ++
  [0xE1, 0xF8, 0x98, 0x11, 0x69, 0xD9, 0x8E, 0x94, 0x9B, 0x1E, 0x87, 0xE9, 0xCE, 0x55, 0x28, 0xDF] ++
  [0x8C, 0xA1, 0x89, 0x0D, 0xBF, 0xE6, 0x42, 0x68, 0x41, 0x99, 0x2D, 0x0F, 0xB0, 0x54, 0xBB, 0x16]

end Sys2Proof.Statements

open Sys2Proof Sys2Proof.Machine Sys2Proof.Statements

/-! ## Encoding -/

/-- R92, R102: decoding the word of a well-formed command gives the command back, under every choice of N_CTX. -/
def Obligations.DecodeInvertsEncode : Prop :=
  ∀ (p : Params) (i : Instr), i.wellFormed p = true → decode p (encode i) = .ok i

/-- R91, R92: a word that decodes is the word of the command it decodes to, and that command is well-formed. -/
def Obligations.EncodeInvertsDecode : Prop :=
  ∀ (p : Params) (w : Word) (i : Instr), decode p w = .ok i → encode i = w ∧ i.wellFormed p = true

/-- R91, R99: the words the decoder rejects are exactly those R99 lists. -/
def Obligations.DecoderRejectsExactlyIllegalWords : Prop :=
  ∀ (p : Params) (w : Word), (∃ e, decode p w = .error e) ↔ IsIllegalWord p w

/-- R92, R102: words written out bit by bit from the format of R90. -/
def Obligations.WrittenWordsDecode : Prop :=
  decode Params.reference 0b00000000000000000000000000000000 = .ok .nop ∧
  decode Params.reference 0b00000000000000000000000000000001 = .ok .buildTables ∧
  decode Params.reference 0b00000000000000000000000000010010 = .ok (.setkeyEnc 1) ∧
  decode Params.reference 0b00000000000000000000000000010011 = .ok (.setkeyDec 1) ∧
  decode Params.reference 0b00000000000000000000000000000100 = .ok (.cryptEcb 0) ∧
  decode Params.reference 0b00000000000000000000000000010101 = .ok (.cryptCbc 1) ∧
  decode Params.reference 0b00000000000000000000000000000110 = .ok (.wipe 0)

/-! ## Lifecycle of a command -/

/-- R251: a write of w to CMD while IDLE issues decode(w), clears DONE and ERR, and so lowers irq; while BUSY it issues nothing and
is a hazard. -/
def Obligations.CmdWriteIssues : Prop :=
  ∀ (s : State) (w : Word) (rest : List Event), s.rst = false → s.inbox = writeEvent 0x004 w :: rest →
    (s.seq = .idle →
      ∃ t : State, step s = .next t ∧ t.isBusy = true ∧ t.irq = false ∧
        t = { s with
          inbox := rest
          reply := some (.write .okay)
          done := false
          err := .ok
          seq := .busy (match decode s.params w with | .ok i => .legal i | .error _ => .illegal) .start }) ∧
    (∀ cmd phase, s.seq = .busy cmd phase →
      step s = .next { s with inbox := rest, reply := some (.write .okay), haz := true })

/-- R252, R131: when the execution of the latched command ends, its meaning is what happened: in one step where no edge of an S-box
loop is left to pass, else after one step for each edge left. When it ends is the schedule of events, and the edges as steps are, the
model's choice (log 1, log 2, log 7, log 9, DESIGN CHOICE, safe). -/
def Obligations.FinishRunsLatchedCommand : Prop :=
  ∀ (s : State) (i : Instr) (phase : Phase), s.rst = false → s.seq = .busy (.legal i) phase →
    (phase = .tail → EndsAfter s i 0) ∧
    (phase = .start → ¬ BuildsTables s i → EndsAfter s i 0) ∧
    (phase = .sboxLoop → BuildsTables s i → EndsAfter s i 1) ∧
    (phase = .start → BuildsTables s i → EndsAfter s i 2)

/-- A STEP RUNS THE DECODED COMMAND (R91, R251, R252): a write of a word to CMD and the end of its execution run the command the
word decodes to, in the next step, or in the third where the command builds the tables and passes the two edges of its S-box loop
first (R131; the edges as steps: log 7, DESIGN CHOICE, safe). The step after withFetchWord, which places a build past those edges, runs
it too (the model's own: log 10, DESIGN CHOICE, safe). -/
def Obligations.CommandWordRuns : Prop :=
  (∀ (s : State) (w : Word) (i : Instr) (rest : List Event),
    IdleThen s (writeEvent 0x004 w :: .finish :: rest) → decode s.params w = .ok i →
      ∃ t : State, step s = .next t ∧ t.seq = .busy (.legal i) .start ∧
        (¬ BuildsTables t i → step t = exec i { t with inbox := rest }) ∧
        (BuildsTables t i → Sys2Proof.core.run 3 t = exec i { t with inbox := rest })) ∧
  (∀ (s : State) (nbits w : Nat) (i : Instr), decode s.params (commandWord nbits w) = .ok i →
    step (s.withFetchWord nbits w) =
      exec i { s with rst := false, done := false, err := .ok, seq := .busy (.legal i) .start })

/-- R99, R274: an illegal word completes with ILLEGAL_COMMAND, and nothing but STATUS changes. -/
def Obligations.IllegalWordCompletesIllegal : Prop :=
  ∀ (s : State) (w : Word) (rest : List Event),
    IdleThen s (writeEvent 0x004 w :: .finish :: rest) → IsIllegalWord s.params w →
      ∃ t : State, step s = .next t ∧ t.seq = .busy .illegal .start ∧
        step t = .next { s with inbox := rest, reply := some (.write .okay), err := .illegalCommand, done := true }

/-- R282: "no error locks the core": every step from every state answers a next state. -/
def Obligations.StepNeverStops : Prop := ∀ s : State, ∃ t : State, step s = .next t

/-- R252, R28, R31: every command, whatever its status code, completes: SEQ is IDLE, DONE is 1, UNDEF is set by
UNDEFINED_USE and else kept, HAZ is kept. -/
def Obligations.EveryCommandCompletes : Prop :=
  ∀ (i : Instr) (s : State), ∃ t : State, exec i s = .next t ∧ t.seq = .idle ∧ t.done = true ∧ t.haz = s.haz ∧
    t.undef = (s.undef || decide (t.err = .undefinedUse))

/-- R277: a command that ends with a code other than OK changes ERR, DONE, BUSY and UNDEF, and no other state. -/
def Obligations.ErrorsArePrecise : Prop :=
  ∀ (i : Instr) (s t : State), exec i s = .next t → t.err ≠ .ok → t = completed s t.err

/-- R278: the code of every command, by the order of the checks: ILLEGAL_COMMAND for a word that did not decode, before anything
else; for a well-formed command the first check that fails. -/
def Obligations.StatusCodeByPriority : Prop :=
  (∀ (s : State) (phase : Phase) (rest : List Event), s.rst = false → s.seq = .busy .illegal phase → s.inbox = .finish :: rest →
    ∃ t : State, step s = .next t ∧ t.err = .illegalCommand) ∧
  (∀ (i : Instr) (s : State), i.wellFormed s.params = true → ∃ t : State, exec i s = .next t ∧ t.err = codeOf s i)

/-- R256: "No bus write can stop a command in execution. Only reset can": until its execution ends or reset comes, the running
command stays the one latched. -/
def Obligations.NoCancellation : Prop :=
  ∀ (s t : State) (cmd : Command) (phase : Phase) (e : Event) (rest : List Event),
    s.seq = .busy cmd phase → s.inbox = e :: rest → e ≠ .finish → e ≠ .reset true → step s = .next t →
      ∃ phase', t.seq = .busy cmd phase'

/-- R93, R39, R43, R44: no command changes an operand register, the KEY registers, FMASK or CONFIG; only CRYPT_ECB writes DOUT,
only CRYPT_CBC writes IV and DATA_MEM, only SETKEY_* and WIPE write a context, and of those only their own. -/
def Obligations.CommandsKeepWhatTheyDoNotWrite : Prop :=
  ∀ (i : Instr) (s t : State), exec i s = .next t →
    (t.mode = s.mode ∧ t.keybits = s.keybits ∧ t.length = s.length ∧ t.src = s.src ∧ t.dst = s.dst ∧ t.key = s.key ∧
      t.din = s.din ∧ t.fmask = s.fmask ∧ t.irqEn = s.irqEn ∧ t.trigEn = s.trigEn ∧ t.haz = s.haz ∧ t.rst = s.rst ∧
      t.reply = s.reply ∧ t.params = s.params ∧ t.inbox = s.inbox ∧ t.epoch = s.epoch ∧ t.freeIdx = s.freeIdx) ∧
    ((∀ c, i ≠ .cryptEcb c) → t.dout = s.dout) ∧
    ((∀ c, i ≠ .cryptCbc c) → t.iv = s.iv ∧ ∀ a, t.memByte a = s.memByte a) ∧
    (∀ c, i ≠ .setkeyEnc c → i ≠ .setkeyDec c → i ≠ .wipe c → t.ctxAt c = s.ctxAt c)

/-- R258: "a command on CTX[c] reads and writes no other CTX[c']": another context can be anything, and stays what it is. -/
def Obligations.ContextsIndependent : Prop :=
  ∀ (i : Instr) (s t : State) (c' : CtxIdx) (v : Context), contextOf i ≠ some c' → exec i s = .next t →
    exec i (s.setCtx c' v) = .next (t.setCtx c' v)

/-! ## NOP and WIPE -/

/-- R254: NOP completes OK and changes nothing else. -/
def Obligations.NopOnlyCompletes : Prop :=
  ∀ s : State, exec .nop s = .next (completed s .ok) ∧ ∀ a, (completed s .ok).memByte a = s.memByte a

/-- R255: WIPE sets NR and all 64 words of its context to 0, CTXINFO byte c reads 0, and nothing else changes. -/
def Obligations.WipeClearsContext : Prop :=
  ∀ (s : State) (c : CtxIdx), CtxExists s c →
    ∃ t : State, exec (.wipe c) s = .next t ∧ (t.ctxAt c).nr = .empty ∧ (∀ i, rkWord (t.ctxAt c).rk i = 0) ∧
      t.ctxInfoByte c = 0 ∧ (∀ a, t.memByte a = s.memByte a) ∧
      t = { completed s .ok with ctx := s.ctx.set c.val (t.ctxAt c) }

/-! ## The table builder -/

/-- R134: with TBL_DONE = 1 BUILD_TABLES only completes; with TBL_DONE = 0 it runs the build, latching FMASK and TRIG_EN (R125 step
1) unless it has, and changes the builder's state only. The latches as fields of State are the model's choice (log 8, DESIGN CHOICE,
unsafe). -/
def Obligations.BuildTablesCompletes : Prop :=
  ∀ s : State,
    (s.tblDone = true → exec .buildTables s = .next (completed s .ok)) ∧
    (s.tblDone = false →
      ∃ t : State, exec .buildTables s = .next t ∧
        (NotYetLatched s → t.maskLatch = s.fmask ∧ t.trLatch = s.trigEn) ∧
        (¬ NotYetLatched s → t.maskLatch = s.maskLatch ∧ t.trLatch = s.trLatch) ∧
        (∀ a, t.memByte a = s.memByte a) ∧
        t = { completed s .ok with
          tables := t.tables
          pow := t.pow
          log := t.log
          maskLatch := t.maskLatch
          trLatch := t.trLatch
          trig := false
          tblDone := true })

/-- R121, R122, R124: POW[i] = 3^i; POW[0..254] run through the nonzero bytes; LOG is its inverse with LOG[1] = 255 and LOG[0]
untouched; the ten round constants. -/
def Obligations.BuildPowLogRcon : Prop :=
  ∀ s t : State, s.tblDone = false → exec .buildTables s = .next t →
    (tableAt t.pow 0 = 1 ∧ tableAt t.pow 255 = 1) ∧
    (∀ e : Byte, e ≠ 255 → tableAt t.pow (e + 1) = gmul 3 (tableAt t.pow e)) ∧
    (∀ y : Byte, y ≠ 0 → ∃ e : Byte, e ≠ 255 ∧ tableAt t.pow e = y ∧ ∀ e' : Byte, e' ≠ 255 → tableAt t.pow e' = y → e' = e) ∧
    (∀ y : Byte, y ≠ 0 → y ≠ 1 →
      tableAt t.log y ≠ 0 ∧ tableAt t.log y ≠ 255 ∧ tableAt t.pow (tableAt t.log y) = y) ∧
    tableAt t.log 1 = 255 ∧ tableAt t.log 0 = tableAt s.log 0 ∧
    t.tables.rcon.toList = [0x01, 0x02, 0x04, 0x08, 0x10, 0x20, 0x40, 0x80, 0x1B, 0x36]

/-- R123: the product through the tables is the field product, for all pairs of bytes. -/
def Obligations.TableProductIsFieldProduct : Prop :=
  ∀ s t : State, s.tblDone = false → exec .buildTables s = .next t →
    ∀ a b : Byte, tableMul t.pow t.log a b = gmul a b

/-- R126, R127, R128, R129: FSB[0] = 0x63, and FSB[i] is the affine transform, or the faulted value where the latched mask skips i,
of the multiplicative inverse of i. -/
def Obligations.BuildForwardSbox : Prop :=
  ∀ s t : State, s.tblDone = false → exec .buildTables s = .next t →
    tableAt t.tables.fsb 0 = 0x63 ∧
    ∀ i : Byte, i ≠ 0 → ∃ inv : Byte, gmul i inv = 1 ∧
      tableAt t.tables.fsb i =
        sboxValue s.params.faultForm inv ((t.maskLatch.toList.getD (i.toNat / 32) 0).getLsbD (i.toNat % 32))

/-- R130: RSB[x] is the largest i with FSB[i] = x; an entry no index maps to keeps what it held. -/
def Obligations.BuildReverseSbox : Prop :=
  ∀ s t : State, s.tblDone = false → exec .buildTables s = .next t →
    ∀ x : Byte,
      ((∀ i : Byte, tableAt t.tables.fsb i ≠ x) → tableAt t.tables.rsb x = tableAt s.tables.rsb x) ∧
      (∀ i : Byte, tableAt t.tables.fsb i = x → (∀ j : Byte, i < j → tableAt t.tables.fsb j ≠ x) →
        tableAt t.tables.rsb x = i)

/-- R135, R136: the T-tables, from FSB and RSB as they stand, faults included, through the field product. -/
def Obligations.BuildTTables : Prop :=
  ∀ s t : State, s.tblDone = false → exec .buildTables s = .next t →
    ∀ (k : Fin 4) (i : Byte),
      tableAt t.tables.ft[k.val] i =
        rotlTimes k.val
          (wordOf (gmul 0x02 (tableAt t.tables.fsb i)) (tableAt t.tables.fsb i) (tableAt t.tables.fsb i)
            (gmul 0x03 (tableAt t.tables.fsb i))) ∧
      tableAt t.tables.rt[k.val] i =
        rotlTimes k.val
          (wordOf (gmul 0x0E (tableAt t.tables.rsb i)) (gmul 0x09 (tableAt t.tables.rsb i))
            (gmul 0x0D (tableAt t.tables.rsb i)) (gmul 0x0B (tableAt t.tables.rsb i)))

/-- R137: in a fault-free build FSB is the AES S-box, a permutation with inverse RSB, and the T-tables have their formula. -/
def Obligations.FaultFreeTables : Prop :=
  ∀ s t : State, s.tblDone = false → NotYetLatched s → s.fmask = Vector.replicate 8 0 → exec .buildTables s = .next t →
    t.tables.fsb.toList = sboxTable ∧
    (∀ x y : Byte, tableAt t.tables.fsb x = tableAt t.tables.fsb y → x = y) ∧
    (∀ y : Byte, ∃ x : Byte, tableAt t.tables.fsb x = y) ∧
    (∀ x : Byte, tableAt t.tables.fsb (tableAt t.tables.rsb x) = x ∧ tableAt t.tables.rsb (tableAt t.tables.fsb x) = x) ∧
    (∀ (k : Fin 4) (i : Byte),
      tableAt t.tables.ft[k.val] i =
        rotlTimes k.val
          (wordOf (gmul 0x02 (tableAt t.tables.fsb i)) (tableAt t.tables.fsb i) (tableAt t.tables.fsb i)
            (gmul 0x03 (tableAt t.tables.fsb i))) ∧
      tableAt t.tables.rt[k.val] i =
        rotlTimes k.val
          (wordOf (gmul 0x0E (tableAt t.tables.rsb i)) (gmul 0x09 (tableAt t.tables.rsb i))
            (gmul 0x0D (tableAt t.tables.rsb i)) (gmul 0x0B (tableAt t.tables.rsb i))))

/-- R138, R130: a build whose mask skips one index i0 (bit 0 aside) differs from the fault-free build at FSB[i0] and at FT[k][i0]
for every k, at RSB and RT[k] of x0 (now 0) and possibly of x1, and nowhere else. -/
def Obligations.FaultReach : Prop :=
  ∀ (s t₀ t₁ : State) (mask : Vector Word 8) (i₀ : Byte),
    s.tblDone = false → s.BlankUntilBuilt → NotYetLatched s → s.fmask = Vector.replicate 8 0 → i₀ ≠ 0 →
    (∀ i : Byte, i ≠ 0 → ((mask.toList.getD (i.toNat / 32) 0).getLsbD (i.toNat % 32) = true ↔ i = i₀)) →
    exec .buildTables s = .next t₀ → exec .buildTables { s with fmask := mask } = .next t₁ →
      let x₀ := tableAt t₀.tables.fsb i₀
      let x₁ := tableAt t₁.tables.fsb i₀
      x₁ ≠ x₀ ∧ (∀ k : Fin 4, tableAt t₁.tables.ft[k.val] i₀ ≠ tableAt t₀.tables.ft[k.val] i₀) ∧
      (∀ i : Byte, i ≠ i₀ → tableAt t₁.tables.fsb i = tableAt t₀.tables.fsb i ∧
        ∀ k : Fin 4, tableAt t₁.tables.ft[k.val] i = tableAt t₀.tables.ft[k.val] i) ∧
      (tableAt t₁.tables.rsb x₀ = 0 ∧ ∀ k : Fin 4, tableAt t₁.tables.rt[k.val] x₀ = 0) ∧
      (∀ x : Byte, x ≠ x₀ → x ≠ x₁ → tableAt t₁.tables.rsb x = tableAt t₀.tables.rsb x ∧
        ∀ k : Fin 4, tableAt t₁.tables.rt[k.val] x = tableAt t₀.tables.rt[k.val] x) ∧
      (∀ i₁ : Byte, tableAt t₀.tables.fsb i₁ = x₁ → tableAt t₁.tables.rsb x₁ = if i₀ < i₁ then i₁ else i₀) ∧
      t₁.tables.rcon = t₀.tables.rcon ∧ t₁.pow = t₀.pow ∧ t₁.log = t₀.log

/-- R132, R74: once TBL_DONE is 1, no step but the assertion of reset changes a table, a scratch table, the latched mask or
TBL_DONE, and `trig` is 0. That the latched mask stands in a field and keeps its value after the build is the model's choice, not
the spec's (log 8, DESIGN CHOICE, unsafe). -/
def Obligations.TablesWriteOnce : Prop :=
  ∀ s t : State, s.tblDone = true → s.inbox.head? ≠ some (.reset true) → step s = .next t →
    t.tables = s.tables ∧ t.pow = s.pow ∧ t.log = s.log ∧ t.maskLatch = s.maskLatch ∧ t.tblDone = true ∧
      (s.TrigBracket → s.BuildLatched → t.trig = false)

/-! ## The key schedule -/

/-- R160, R162, R140: SETKEY_ENC on an empty context with a legal KEYBITS does what BUILD_TABLES does, and writes NR and the
encryption schedule of the KEY registers into its context. -/
def Obligations.SetkeyEncCompletes : Prop :=
  ∀ (s : State) (c : CtxIdx) (keybits : Word) (nk : Nat) (nr : RoundCount) (nit : Nat),
    CtxExists s c → (keybits, nk, nr, nit) ∈ keyTable → s.keybits = keybits → (s.ctxAt c).nr = .empty →
      ∃ (b : State) (rk : Schedule), exec .buildTables s = .next b ∧ IsEncSchedule b.tables s.key nk nit rk ∧
        exec (.setkeyEnc c) s = .next { b with ctx := s.ctx.set c.val { nr := nr, rk := rk } }

/-- R165, R166, R167: SETKEY_DEC does the same with the decryption schedule derived from the encryption schedule, and leaves
TMPK 0. -/
def Obligations.SetkeyDecCompletes : Prop :=
  ∀ (s : State) (c : CtxIdx) (keybits : Word) (nk : Nat) (nr : RoundCount) (nit : Nat),
    CtxExists s c → (keybits, nk, nr, nit) ∈ keyTable → s.keybits = keybits → (s.ctxAt c).nr = .empty →
      ∃ (b : State) (e d : Schedule), exec .buildTables s = .next b ∧ IsEncSchedule b.tables s.key nk nit e ∧
        IsDecSchedule b.tables (roundsOf nr) e d ∧
        exec (.setkeyDec c) s =
          .next { b with ctx := s.ctx.set c.val { nr := nr, rk := d }, tmpk := Vector.replicate 64 0 }

/-- R271: KEYBITS other than 128, 192, 256 makes SETKEY_ENC and SETKEY_DEC complete with INVALID_KEY_LENGTH, before any other
check. -/
def Obligations.InvalidKeyLengthRefused : Prop :=
  ∀ (s : State) (c : CtxIdx), CtxExists s c → s.keybits ≠ 128 → s.keybits ≠ 192 → s.keybits ≠ 256 →
    exec (.setkeyEnc c) s = .next (completed s .invalidKeyLength) ∧
    exec (.setkeyDec c) s = .next (completed s .invalidKeyLength)

/-- R169: re-keying a keyed context completes with UNDEFINED_USE, sets UNDEF and changes no context and no table; WIPE and reset
make the context empty again. -/
def Obligations.RekeyRefused : Prop :=
  ∀ (s : State) (c : CtxIdx), CtxExists s c → (s.keybits = 128 ∨ s.keybits = 192 ∨ s.keybits = 256) →
    (s.ctxAt c).nr ≠ .empty →
      exec (.setkeyEnc c) s = .next (completed s .undefinedUse) ∧
      exec (.setkeyDec c) s = .next (completed s .undefinedUse) ∧
      (completed s .undefinedUse).undef = true ∧
      (∀ t, exec (.wipe c) s = .next t → (t.ctxAt c).nr = .empty) ∧
      (∀ t rest, s.inbox = .reset true :: rest → step s = .next t → (t.ctxAt c).nr = .empty)

/-- R161: a SETKEY that completes OK leaves TBL_DONE = 1; one that fails a check does not build the table set. -/
def Obligations.SetkeyLeavesTablesBuilt : Prop :=
  ∀ (i : Instr) (c : CtxIdx) (s t : State), i = .setkeyEnc c ∨ i = .setkeyDec c → exec i s = .next t →
    (t.err = .ok → t.tblDone = true) ∧ (t.err ≠ .ok → t.tblDone = s.tblDone ∧ t.tables = s.tables)

/-! ## The block transform -/

/-- R193, R194, R195, R196: the four words of each round function, with the lanes and source words written out. -/
def Obligations.RoundFormulas : Prop :=
  ∀ (t : TableSet) (y k : Quad),
    fround t y k =
      ⟨k.w0 ^^^ tableAt t.ft[0] (byteLane y.w0 0) ^^^ tableAt t.ft[1] (byteLane y.w1 1) ^^^
          tableAt t.ft[2] (byteLane y.w2 2) ^^^ tableAt t.ft[3] (byteLane y.w3 3),
        k.w1 ^^^ tableAt t.ft[0] (byteLane y.w1 0) ^^^ tableAt t.ft[1] (byteLane y.w2 1) ^^^
          tableAt t.ft[2] (byteLane y.w3 2) ^^^ tableAt t.ft[3] (byteLane y.w0 3),
        k.w2 ^^^ tableAt t.ft[0] (byteLane y.w2 0) ^^^ tableAt t.ft[1] (byteLane y.w3 1) ^^^
          tableAt t.ft[2] (byteLane y.w0 2) ^^^ tableAt t.ft[3] (byteLane y.w1 3),
        k.w3 ^^^ tableAt t.ft[0] (byteLane y.w3 0) ^^^ tableAt t.ft[1] (byteLane y.w0 1) ^^^
          tableAt t.ft[2] (byteLane y.w1 2) ^^^ tableAt t.ft[3] (byteLane y.w2 3)⟩ ∧
    rround t y k =
      ⟨k.w0 ^^^ tableAt t.rt[0] (byteLane y.w0 0) ^^^ tableAt t.rt[1] (byteLane y.w3 1) ^^^
          tableAt t.rt[2] (byteLane y.w2 2) ^^^ tableAt t.rt[3] (byteLane y.w1 3),
        k.w1 ^^^ tableAt t.rt[0] (byteLane y.w1 0) ^^^ tableAt t.rt[1] (byteLane y.w0 1) ^^^
          tableAt t.rt[2] (byteLane y.w3 2) ^^^ tableAt t.rt[3] (byteLane y.w2 3),
        k.w2 ^^^ tableAt t.rt[0] (byteLane y.w2 0) ^^^ tableAt t.rt[1] (byteLane y.w1 1) ^^^
          tableAt t.rt[2] (byteLane y.w0 2) ^^^ tableAt t.rt[3] (byteLane y.w3 3),
        k.w3 ^^^ tableAt t.rt[0] (byteLane y.w3 0) ^^^ tableAt t.rt[1] (byteLane y.w2 1) ^^^
          tableAt t.rt[2] (byteLane y.w1 2) ^^^ tableAt t.rt[3] (byteLane y.w0 3)⟩ ∧
    ffinal t y k =
      ⟨k.w0 ^^^ wordOf (tableAt t.fsb (byteLane y.w0 0)) (tableAt t.fsb (byteLane y.w1 1)) (tableAt t.fsb (byteLane y.w2 2))
          (tableAt t.fsb (byteLane y.w3 3)),
        k.w1 ^^^ wordOf (tableAt t.fsb (byteLane y.w1 0)) (tableAt t.fsb (byteLane y.w2 1)) (tableAt t.fsb (byteLane y.w3 2))
          (tableAt t.fsb (byteLane y.w0 3)),
        k.w2 ^^^ wordOf (tableAt t.fsb (byteLane y.w2 0)) (tableAt t.fsb (byteLane y.w3 1)) (tableAt t.fsb (byteLane y.w0 2))
          (tableAt t.fsb (byteLane y.w1 3)),
        k.w3 ^^^ wordOf (tableAt t.fsb (byteLane y.w3 0)) (tableAt t.fsb (byteLane y.w0 1)) (tableAt t.fsb (byteLane y.w1 2))
          (tableAt t.fsb (byteLane y.w2 3))⟩ ∧
    rfinal t y k =
      ⟨k.w0 ^^^ wordOf (tableAt t.rsb (byteLane y.w0 0)) (tableAt t.rsb (byteLane y.w3 1)) (tableAt t.rsb (byteLane y.w2 2))
          (tableAt t.rsb (byteLane y.w1 3)),
        k.w1 ^^^ wordOf (tableAt t.rsb (byteLane y.w1 0)) (tableAt t.rsb (byteLane y.w0 1)) (tableAt t.rsb (byteLane y.w3 2))
          (tableAt t.rsb (byteLane y.w2 3)),
        k.w2 ^^^ wordOf (tableAt t.rsb (byteLane y.w2 0)) (tableAt t.rsb (byteLane y.w1 1)) (tableAt t.rsb (byteLane y.w0 2))
          (tableAt t.rsb (byteLane y.w3 3)),
        k.w3 ^^^ wordOf (tableAt t.rsb (byteLane y.w3 0)) (tableAt t.rsb (byteLane y.w2 1)) (tableAt t.rsb (byteLane y.w1 2))
          (tableAt t.rsb (byteLane y.w0 3))⟩

/-- R190, R191, R197, R198, R201: CRYPT_ECB on a keyed context, in either direction whatever schedule the context holds, writes the
NR-round transform of DIN to DOUT, wipes X and Y, and changes nothing else. -/
def Obligations.EcbCompletes : Prop :=
  ∀ (s : State) (c : CtxIdx) (d : Direction), CtxExists s c → modeIs d s.mode → (s.ctxAt c).nr ≠ .empty →
    exec (.cryptEcb c) s =
      .next { completed s .ok with
        dout := blockOf d s.tables (s.ctxAt c) s.din
        x := Quad.zero
        y := Quad.zero }

/-- R272: MODE other than 1 and 0 makes CRYPT_ECB and CRYPT_CBC complete with INVALID_MODE, before any other check. -/
def Obligations.InvalidModeRefused : Prop :=
  ∀ (s : State) (c : CtxIdx), CtxExists s c → s.mode ≠ 1 → s.mode ≠ 0 →
    exec (.cryptEcb c) s = .next (completed s .invalidMode) ∧ exec (.cryptCbc c) s = .next (completed s .invalidMode)

/-- R202: CRYPT_ECB, or CRYPT_CBC with LENGTH > 0, on an empty context completes with UNDEFINED_USE, sets UNDEF and writes no
output. -/
def Obligations.UnkeyedContextRefused : Prop :=
  ∀ (s : State) (c : CtxIdx), CtxExists s c → (s.mode = 1 ∨ s.mode = 0) → (s.ctxAt c).nr = .empty →
    exec (.cryptEcb c) s = .next (completed s .undefinedUse) ∧ (completed s .undefinedUse).undef = true ∧
    (s.length.toNat % 16 = 0 → 0 < s.length.toNat → exec (.cryptCbc c) s = .next (completed s .undefinedUse))

/-- R171: with tables built without a fault, CRYPT_ECB in decryption on a context that SETKEY_DEC keyed inverts CRYPT_ECB in
encryption on a context that SETKEY_ENC keyed with the same key bytes, for every key size and block. The tables may stem from
BUILD_TABLES or from either SETKEY, the two contexts may be keyed in either order, in different states, or one after the other in
one slot: a and b are the states in which they are keyed, p and q those in which the transforms run. -/
def Obligations.EcbRoundTrip : Prop :=
  ∀ (a a' b b' p p' q q' : State) (c₁ c₂ : CtxIdx),
    exec (.setkeyEnc c₁) a = .next a' → a'.err = .ok → exec (.setkeyDec c₂) b = .next b' → b'.err = .ok →
    a.keybits = b.keybits → (∀ i : Fin 8, 32 * i.val < a.keybits.toNat → a.key[i.val] = b.key[i.val]) →
    FaultFreeBuild a'.tables → FaultFreeBuild b'.tables →
    p.tables = a'.tables → p.ctxAt c₁ = a'.ctxAt c₁ → CtxExists p c₁ → p.mode = 1 → exec (.cryptEcb c₁) p = .next p' →
    q.tables = b'.tables → q.ctxAt c₂ = b'.ctxAt c₂ → CtxExists q c₂ → q.mode = 0 → q.din = p'.dout →
    exec (.cryptEcb c₂) q = .next q' →
      p'.err = .ok ∧ q'.err = .ok ∧ q'.dout = p.din

/-! ## CBC -/

/-- R223, R224, R226: CRYPT_CBC in encryption, with buffers whose input is read before it is overwritten: output block k is
`C_k = E(P_k ^ C_{k-1})`, the IV is the last ciphertext block, every other byte is unchanged, and so is all other state but the
wiped scratch. -/
def Obligations.CbcEncryptCompletes : Prop :=
  ∀ (s : State) (c : CtxIdx), CbcReady s c → s.mode = 1 → NoLateRead s →
    ∃ t : State, exec (.cryptCbc c) s = .next t ∧
      (∀ (k : Nat) (i : Fin 16), k < s.length.toNat / 16 →
        t.memByte (s.dst.toNat + 16 * k + i.val) = (cipherChain s c (k + 1))[i.val]) ∧
      t.iv = loadBlock (cipherChain s c (s.length.toNat / 16)) ∧
      (∀ a, ¬ isOutput s a → t.memByte a = s.memByte a) ∧
      t = { completed s .ok with
        mem := t.mem
        iv := t.iv
        x := Quad.zero
        y := Quad.zero
        chain := Vector.replicate 16 0
        save := Vector.replicate 16 0 }

/-- R225, R226: CRYPT_CBC in decryption: output block k is `P_k = D(C_k) ^ C_{k-1}`, the IV is the last input block as read, also in
place. -/
def Obligations.CbcDecryptCompletes : Prop :=
  ∀ (s : State) (c : CtxIdx), CbcReady s c → s.mode = 0 → NoLateRead s →
    ∃ t : State, exec (.cryptCbc c) s = .next t ∧
      (∀ (k : Nat) (i : Fin 16), k < s.length.toNat / 16 →
        t.memByte (s.dst.toNat + 16 * k + i.val) = (plainBlock s c k)[i.val]) ∧
      t.iv = loadBlock (inputBlock s (s.length.toNat / 16 - 1)) ∧
      (∀ a, ¬ isOutput s a → t.memByte a = s.memByte a) ∧
      t = { completed s .ok with
        mem := t.mem
        iv := t.iv
        x := Quad.zero
        y := Quad.zero
        chain := Vector.replicate 16 0
        save := Vector.replicate 16 0 }

/-- R220, R222, R228, R230: a CRYPT_CBC that passes its checks completes OK however its buffers overlap. DATA_MEM and the IV are what
the blocks leave in their order, block k reading its input as block k - 1 left it; nothing else is written but the wiped
scratch. -/
def Obligations.CbcCompletesOnAnyBuffers : Prop :=
  ∀ (s : State) (c : CtxIdx) (d : Direction), CbcReady s c → modeIs d s.mode →
    ∃ t : State, exec (.cryptCbc c) s = .next t ∧
      (∀ a, t.memByte a = (cbcAfter s c d (s.length.toNat / 16)).1 a) ∧
      t.iv = loadBlock (cbcAfter s c d (s.length.toNat / 16)).2 ∧
      (∀ a, ¬ isOutput s a → t.memByte a = s.memByte a) ∧
      t = { completed s .ok with
        mem := t.mem
        iv := t.iv
        x := Quad.zero
        y := Quad.zero
        chain := Vector.replicate 16 0
        save := Vector.replicate 16 0 }

/-- R229: splitting a message at a block boundary into two CRYPT_CBC commands, with the IV left as the first one wrote it, gives the
same output and final IV as one command, in both directions and for every overlap of the buffers. -/
def Obligations.CbcStreamContinuation : Prop :=
  ∀ (s t t₁ t₂ : State) (c : CtxIdx) (d : Direction) (n₁ n₂ : Nat), s.ParamsLegal → CbcReady s c → modeIs d s.mode →
    n₁ % 16 = 0 → n₂ % 16 = 0 → 0 < n₁ → 0 < n₂ → s.length.toNat = n₁ + n₂ →
    exec (.cryptCbc c) s = .next t →
    exec (.cryptCbc c) { s with length := BitVec.ofNat 32 n₁ } = .next t₁ →
    exec (.cryptCbc c)
      { t₁ with
        length := BitVec.ofNat 32 n₂
        src := BitVec.ofNat 32 (s.src.toNat + n₁)
        dst := BitVec.ofNat 32 (s.dst.toNat + n₁) } = .next t₂ →
      { t₂ with length := s.length, src := s.src, dst := s.dst } = t

/-- R227: LENGTH = 0 with a valid MODE completes OK and touches nothing, whatever the context, SRC and DST hold; with an invalid MODE
it fails with INVALID_MODE. -/
def Obligations.CbcZeroLength : Prop :=
  ∀ (s : State) (c : CtxIdx), CtxExists s c → s.length = 0 →
    (s.mode = 1 ∨ s.mode = 0 → exec (.cryptCbc c) s = .next (completed s .ok)) ∧
    (s.mode ≠ 1 ∧ s.mode ≠ 0 → exec (.cryptCbc c) s = .next (completed s .invalidMode))

/-- R273, R275: a LENGTH that is no multiple of 16 completes with INVALID_INPUT_LENGTH and no partial work; a buffer that ends
above BUF_BYTES, computed exactly, completes with RANGE. -/
def Obligations.CbcBadBuffersRefused : Prop :=
  ∀ (s : State) (c : CtxIdx), CtxExists s c → (s.mode = 1 ∨ s.mode = 0) →
    (s.length.toNat % 16 ≠ 0 → exec (.cryptCbc c) s = .next (completed s .invalidInputLength)) ∧
    (s.length.toNat % 16 = 0 → 0 < s.length.toNat → (s.ctxAt c).nr ≠ .empty →
      s.params.bufBytes < s.src.toNat + s.length.toNat ∨ s.params.bufBytes < s.dst.toNat + s.length.toNat →
        exec (.cryptCbc c) s = .next (completed s .range))

/-! ## The bus -/

/-- R62, R279: an access of another size or at an offset that is no multiple of 4 gets the ERROR response, a read of it 0, and
changes no state, not even HAZ while BUSY; every other access gets OKAY. -/
def Obligations.AccessAdmission : Prop :=
  ∀ (s : State) (a : BusAccess) (rest : List Event), s.rst = false → s.inbox = .access a :: rest →
    (a.size ≠ .bits32 ∨ a.offset.toNat % 4 ≠ 0 →
      (a.kind = .read → step s = .next { s with inbox := rest, reply := some (.read .error 0) }) ∧
      (∀ v, a.kind = .write v → step s = .next { s with inbox := rest, reply := some (.write .error) })) ∧
    (a.size = .bits32 → a.offset.toNat % 4 = 0 →
      ∃ t : State, step s = .next t ∧
        (a.kind = .read → ∃ v, t.reply = some (.read .okay v)) ∧
        (∀ v, a.kind = .write v → t.reply = some (.write .okay)))

/-- R330: an admitted write at any offset while BUSY is dropped: it sets HAZ and changes nothing else, and the response is OKAY. -/
def Obligations.BusyWriteDropped : Prop :=
  ∀ (s : State) (cmd : Command) (phase : Phase) (o : BitVec 13) (v : Word) (rest : List Event),
    s.rst = false → s.seq = .busy cmd phase → o.toNat % 4 = 0 → s.inbox = writeEvent o v :: rest →
      step s = .next { s with inbox := rest, reply := some (.write .okay), haz := true }

/-- R331: an admitted read while BUSY disturbs nothing; STATUS shows BUSY, and present values but for TBL_DONE while the command may
build; a location the command may not write shows its present value, byte by byte in DATA_MEM; every other offset reads as it
would while IDLE (IdleReadMap). That DONE and ERR are 0 while BUSY is the invariant BusyFlags (Safety.lean), a premise here. That in
a word of DATA_MEM that lies partly in the output range each byte outside the range reads its present value is the model's reading
of R331 (log 17, DEDUCED, unsafe). -/
def Obligations.BusyReads : Prop :=
  ∀ (s : State) (cmd : Command) (phase : Phase) (o : BitVec 13) (rest : List Event),
    s.rst = false → s.seq = .busy cmd phase → s.BusyFlags → o.toNat % 4 = 0 → s.inbox = readEvent o :: rest →
      ∃ (t : State) (v : Word), step s = .next t ∧
        t = { s with inbox := rest, reply := some (.read .okay v), freeIdx := t.freeIdx } ∧
        (o = 0x000 → v = 0x41455307) ∧
        (o = 0x008 →
          v.getLsbD 0 = true ∧ v.getLsbD 1 = false ∧ v.extractLsb' 4 4 = 0 ∧ v.getLsbD 8 = s.haz ∧ v.getLsbD 9 = s.undef ∧
            (mayBuild cmd = false → v.getLsbD 12 = s.tblDone) ∧ v.getLsbD 13 = s.trig) ∧
        (o = 0x024 → mayWriteCtxInfo cmd = false → v = s.ctxInfoWord) ∧
        (∀ n : Fin 4, o = offsetAt 0x070 n.val → isEcb cmd = false → v = s.dout.get n) ∧
        (∀ n : Fin 4, o = offsetAt 0x080 n.val → isCbc cmd = false → v = s.iv.get n) ∧
        (∀ (w : Nat) (k : Fin 4), 4 * w + 4 ≤ s.params.bufBytes → s.params.bufBytes ≤ 4096 → o = offsetAt 0x1000 w →
          (isCbc cmd = false ∨ ¬ isOutput s (4 * w + k.val)) → byteLane v k = s.memByte (4 * w + k.val)) ∧
        (∀ w : Nat, s.params.bufBytes < 4 * w + 4 → 4 * w + 4 ≤ 4096 → o = offsetAt 0x1000 w → v = 0) ∧
        (o.toNat < 0x1000 → o ≠ 0x008 → o ≠ 0x024 → (∀ n : Fin 4, o ≠ offsetAt 0x070 n.val ∧ o ≠ offsetAt 0x080 n.val) →
          ReadsAs { s with seq := .idle } o v)

/-- R22 to R45, R64: what each offset of the window reads while IDLE; a read changes nothing (R69). STATUS and CTXINFO are spelled
out by StatusFields and CtxInfoFields, CONFIG here (R34). -/
def Obligations.IdleReadMap : Prop :=
  ∀ s : State, s.seq = .idle → s.rst = false → s.params.bufBytes ≤ 4096 →
    ReadsAs s 0x000 0x41455307 ∧ ReadsAs s 0x004 0 ∧ ReadsAs s 0x008 s.statusWord ∧ ReadsAs s 0x00C s.configWord ∧
    (s.configWord.getLsbD 0 = s.irqEn ∧ s.configWord.getLsbD 1 = s.trigEn ∧
      ∀ i : Nat, 2 ≤ i → s.configWord.getLsbD i = false) ∧
    ReadsAs s 0x010 s.mode ∧ ReadsAs s 0x014 s.keybits ∧ ReadsAs s 0x018 s.length ∧ ReadsAs s 0x01C s.src ∧
    ReadsAs s 0x020 s.dst ∧ ReadsAs s 0x024 s.ctxInfoWord ∧
    (∀ n : Fin 8, ReadsAs s (offsetAt 0x040 n.val) 0) ∧
    (∀ n : Fin 4, ReadsAs s (offsetAt 0x060 n.val) (s.din.get n)) ∧
    (∀ n : Fin 4, ReadsAs s (offsetAt 0x070 n.val) (s.dout.get n)) ∧
    (∀ n : Fin 4, ReadsAs s (offsetAt 0x080 n.val) (s.iv.get n)) ∧
    (∀ n : Fin 8, ReadsAs s (offsetAt 0x0A0 n.val) s.fmask[n.val]) ∧
    (∀ w : Nat, 4 * w + 4 ≤ s.params.bufBytes →
      ReadsAs s (offsetAt 0x1000 w)
        (wordOf (s.memByte (4 * w)) (s.memByte (4 * w + 1)) (s.memByte (4 * w + 2)) (s.memByte (4 * w + 3)))) ∧
    (∀ w : Nat, s.params.bufBytes < 4 * w + 4 → 4 * w + 4 ≤ 4096 → ReadsAs s (offsetAt 0x1000 w) 0) ∧
    (∀ o : BitVec 13, IsReservedOffset o.toNat → ReadsAs s o 0)

/-- R22 to R45, R64: what a write at each offset other than CMD does while IDLE, and that it does nothing else. -/
def Obligations.IdleWriteMap : Prop :=
  ∀ (s : State) (v : Word), s.seq = .idle → s.rst = false → s.params.bufBytes ≤ 4096 →
    WritesAs s 0x000 v s ∧
    WritesAs s 0x008 v { s with done := if v.getLsbD 1 then false else s.done } ∧
    WritesAs s 0x00C v { s with irqEn := v.getLsbD 0, trigEn := v.getLsbD 1 } ∧
    WritesAs s 0x010 v { s with mode := v } ∧ WritesAs s 0x014 v { s with keybits := v } ∧
    WritesAs s 0x018 v { s with length := v } ∧ WritesAs s 0x01C v { s with src := v } ∧
    WritesAs s 0x020 v { s with dst := v } ∧ WritesAs s 0x024 v s ∧
    (∀ n : Fin 8, WritesAs s (offsetAt 0x040 n.val) v { s with key := s.key.set n.val v }) ∧
    (∀ n : Fin 4, WritesAs s (offsetAt 0x060 n.val) v { s with din := s.din.set n v }) ∧
    (∀ n : Fin 4, WritesAs s (offsetAt 0x070 n.val) v s) ∧
    (∀ n : Fin 4, WritesAs s (offsetAt 0x080 n.val) v { s with iv := s.iv.set n v }) ∧
    (∀ n : Fin 8, WritesAs s (offsetAt 0x0A0 n.val) v { s with fmask := s.fmask.set n.val v }) ∧
    (∀ w : Nat, 4 * w + 4 ≤ s.params.bufBytes →
      ∃ t : State, t = { s with mem := t.mem } ∧ WritesAs s (offsetAt 0x1000 w) v t ∧
        (∀ k : Fin 4, t.memByte (4 * w + k.val) = byteLane v k) ∧
        (∀ a : Nat, a < 4 * w ∨ 4 * w + 4 ≤ a → t.memByte a = s.memByte a)) ∧
    (∀ w : Nat, s.params.bufBytes < 4 * w + 4 → 4 * w + 4 ≤ 4096 → WritesAs s (offsetAt 0x1000 w) v s) ∧
    (∀ o : BitVec 13, IsReservedOffset o.toNat → WritesAs s o v s)

/-- R290, R39, R40: no access shows the KEY registers, a round key or a table: two states that differ only in those answer every
access alike and go on differing only in those, as long as no command's execution ends. That an unspecified read while BUSY (R331) and
a response while `rst` is asserted (R310) are alike too is the model's choice: the spec allows any value there, and the model's free
value depends on a counter alone (log 5, DEDUCED, unsafe; log 6, DEDUCED, unsafe). -/
def Obligations.SecretsNotReadable : Prop :=
  ∀ (s t s' t' : State) (a : BusAccess) (rest : List Event), AgreeButSecrets s t → s.inbox = .access a :: rest →
    step s = .next s' → step t = .next t' → t'.reply = s'.reply ∧ AgreeButSecrets s' t'

/-! ## Flags and ports -/

/-- R26, R27, R29, R32, R33, R270: the fields of STATUS, the status code by its number; every other bit reads 0. -/
def Obligations.StatusFields : Prop :=
  ∀ s : State,
    (s.statusWord.getLsbD 0 = true ↔ ∃ cmd phase, s.seq = .busy cmd phase) ∧ s.statusWord.getLsbD 1 = s.done ∧
    (s.statusWord.extractLsb' 4 4).toNat = codeNumber s.err ∧ s.statusWord.getLsbD 8 = s.haz ∧
    s.statusWord.getLsbD 9 = s.undef ∧ s.statusWord.getLsbD 12 = s.tblDone ∧ s.statusWord.getLsbD 13 = s.trig ∧
    (∀ i : Nat, i = 2 ∨ i = 3 ∨ i = 10 ∨ i = 11 ∨ 14 ≤ i → s.statusWord.getLsbD i = false)

/-- R38, R40: byte c of CTXINFO is CTX[c].NR, which is 0, 10, 12 or 14, for c < N_CTX, and 0 for the others. -/
def Obligations.CtxInfoFields : Prop :=
  ∀ (s : State) (c : CtxIdx),
    (c.val < s.params.nCtx → (byteLane s.ctxInfoWord c).toNat = roundsOf (s.ctxAt c).nr) ∧
    (s.params.nCtx ≤ c.val → byteLane s.ctxInfoWord c = 0)

/-- R28, R53, R284: DONE, and with it irq where IRQ_EN is 1, rises at every completion, OK or error; an issue clears it; a W1C write
of bit 1 while IDLE clears it and keeps ERR; setting IRQ_EN while DONE = 1 raises irq at once. -/
def Obligations.DoneDrivesIrq : Prop :=
  (∀ (i : Instr) (s t : State), exec i s = .next t → t.done = true ∧ t.irq = s.irqEn) ∧
  (∀ (s t : State) (v : Word) (rest : List Event), s.seq = .idle → s.rst = false → step s = .next t →
    (s.inbox = writeEvent 0x004 v :: rest → t.done = false ∧ t.irq = false) ∧
    (s.inbox = writeEvent 0x008 v :: rest → t.err = s.err ∧
      (v.getLsbD 1 = true → t.done = false ∧ t.irq = false) ∧ (v.getLsbD 1 = false → t.done = s.done)) ∧
    (s.inbox = writeEvent 0x00C v :: rest → t.irq = (s.done && v.getLsbD 0)))

/-- R30, R31: HAZ is set by an admitted write while BUSY and by nothing else; UNDEF is set by a completion with UNDEFINED_USE and by
nothing else; only reset clears them. -/
def Obligations.StickyFlags : Prop :=
  ∀ s t : State, step s = .next t → s.inbox.head? ≠ some (.reset true) →
    (t.haz = true ↔ s.haz = true ∨
      (s.isBusy = true ∧ s.rst = false ∧
        ∃ o v rest, s.inbox = .access { offset := o, size := .bits32, kind := .write v } :: rest ∧ o.toNat % 4 = 0)) ∧
    (t.undef = true ↔ s.undef = true ∨ (s.isBusy = true ∧ t.isBusy = false ∧ t.err = .undefinedUse))

/-! ## Trigger -/

/-- R131: a build that starts with TRIG_EN = 1 raises `trig` as it enters its S-box loop and lowers it as it leaves, whether other
events are to come, the end of its execution is, or nothing; with TRIG_EN = 0 `trig` stays 0; a command that builds nothing has no
edge. No build completes, and none is past its loop, without having entered it. The two edges as events and steps are the model's
choice (log 7, DESIGN CHOICE, safe). -/
def Obligations.TriggerEdges : Prop :=
  (∀ (s t u : State) (i : Instr), s.rst = false → s.seq = .busy (.legal i) .start → s.trig = false →
    (s.inbox = [] ∨ (∃ rest, s.inbox = .finish :: rest) ∨ ∃ rest, s.inbox = .advance :: .advance :: rest) →
    step s = .next t → step t = .next u →
      (BuildsTables s i →
        t.seq = .busy (.legal i) .sboxLoop ∧ t.trig = s.trigEn ∧ u.seq = .busy (.legal i) .tail ∧ u.trig = false) ∧
      (¬ BuildsTables s i → t.trig = false ∧ u.trig = false)) ∧
  (∀ (s t : State) (i : Instr) (phase : Phase), s.rst = false → s.seq = .busy (.legal i) phase → BuildsTables s i →
    s.inbox.head? ≠ some (.reset true) → step s = .next t →
      (t.seq = .idle → phase = .tail) ∧ (t.seq = .busy (.legal i) .tail → phase ≠ .start))

/-- R52: `trig` is 1 exactly while a table build runs its S-box loop, provided TRIG_EN was 1 when the build started: every step keeps
it, from every state in which it holds and a command inside the loop is a latched build. The phase as a field is the model's choice
(log 7, DESIGN CHOICE, safe). -/
def Obligations.TriggerBracketKept : Prop :=
  ∀ s t : State, s.TrigBracket → s.BuildLatched → step s = .next t → t.TrigBracket ∧ t.BuildLatched

/-! ## Reset -/

/-- R310: the assertion of `rst` gives every piece of state its reset value and abandons a running command; State.reset is that
state with `rst` released. The reset values of the latches and of `reply` (log 8, log 13, DESIGN CHOICE, unsafe) and of the model's own
fields (log 1, log 4, log 5) are the model's choice. -/
def Obligations.ResetState : Prop :=
  (∀ (s : State) (rest : List Event), s.inbox = .reset true :: rest →
    ∃ t : State, step s = .next t ∧ t.rst = true ∧
      { t with rst := false, inbox := [] } = State.resetWith s.params (s.epoch + 1) s.freeIdx) ∧
  (∀ (p : Params) (n m : Nat), let s := State.resetWith p n m
    s.seq = .idle ∧ s.statusWord = 0 ∧ s.configWord = 0 ∧ s.ctxInfoWord = 0 ∧ s.mode = 0 ∧ s.keybits = 0 ∧ s.length = 0 ∧
    s.src = 0 ∧ s.dst = 0 ∧ s.key = Vector.replicate 8 0 ∧ s.din = Quad.zero ∧ s.dout = Quad.zero ∧ s.iv = Quad.zero ∧
    s.fmask = Vector.replicate 8 0 ∧ (∀ c, (s.ctxAt c).nr = .empty ∧ (s.ctxAt c).rk = Vector.replicate 64 0) ∧
    (∀ b, tableAt s.tables.fsb b = 0 ∧ tableAt s.tables.rsb b = 0 ∧
      ∀ k : Fin 4, tableAt s.tables.ft[k.val] b = 0 ∧ tableAt s.tables.rt[k.val] b = 0) ∧
    s.tables.rcon = Vector.replicate 10 0 ∧ s.tblDone = false ∧ s.pow = Vector.replicate 256 0 ∧
    s.log = Vector.replicate 256 0 ∧ s.x = Quad.zero ∧ s.y = Quad.zero ∧ s.tmpk = Vector.replicate 64 0 ∧
    s.chain = Vector.replicate 16 0 ∧ s.save = Vector.replicate 16 0 ∧ s.trig = false ∧ s.irq = false) ∧
  State.reset = State.resetWith Params.reference 0 0

/-- R310, R286: while `rst` is asserted, nothing but its release changes the core: an access changes only the port's own lines. -/
def Obligations.HeldInResetIgnoresBus : Prop :=
  ∀ (s t : State) (e : Event) (rest : List Event), s.rst = true → s.inbox = e :: rest → step s = .next t →
    (∀ level, e ≠ .reset level) → t = { s with inbox := rest, reply := t.reply, freeIdx := t.freeIdx }

/-! ## Invariants -/

/-- R56: if a context is keyed, the table set is built; every step keeps it. -/
def Obligations.KeyedHasTablesKept : Prop :=
  ∀ s t : State, s.KeyedHasTables → step s = .next t → t.KeyedHasTables

/-- R61, R66: DATA_MEM keeps its canonical form and its range, in every step. The list of written bytes is the model's choice (log 4,
DESIGN CHOICE, safe). -/
def Obligations.MemoryCanonicalKept : Prop :=
  ∀ s t : State, s.MemoryCanonical → step s = .next t → t.MemoryCanonical

/-- Every step from a safe state leads to a safe state (Safety.lean lists the invariants and their rules). Some clauses are the
model's choices and no rules of the spec: the scratch is 0 also while BUSY, because a command's effects land in one step (log 2); the
canonical list of written bytes (log 4); the phases of a running build (log 7); the latches as fields, and that TablesAsBuilt finds
the mask latch kept after the build (log 8); the empty slots at and above N_CTX (log 12). -/
def Obligations.SafeKept : Prop := ∀ s t : State, s.Safe → step s = .next t → t.Safe

/-- The state after reset is safe. -/
def Obligations.ResetIsSafe : Prop := State.reset.Safe
end

