-- ==== Sys2Proof/Laws/State.lean ====
section
/-! SUPPORT. One lemma per field per update: what each shared operation over the state leaves as it was, and what it writes. -/

namespace Sys2Proof.Machine

variable (s : State)

/-! ## What the updates write -/

@[simp] theorem raise_eq_complete (e : StatusCode) : s.raise e = s.complete e := rfl
@[simp] theorem complete_seq (e : StatusCode) : (s.complete e).seq = .idle := rfl
@[simp] theorem complete_done (e : StatusCode) : (s.complete e).done = true := rfl
@[simp] theorem complete_err (e : StatusCode) : (s.complete e).err = e := rfl
@[simp] theorem complete_undef (e : StatusCode) : (s.complete e).undef = (s.undef || decide (e = .undefinedUse)) := rfl
@[simp] theorem issue_seq (w : Word) : (s.issue w).seq = .busy (commandOf s.params w) .start := rfl
@[simp] theorem issue_done (w : Word) : (s.issue w).done = false := rfl
@[simp] theorem issue_err (w : Word) : (s.issue w).err = .ok := rfl
@[simp] theorem memPut_mem (off : Nat) (v : Byte) : (s.memPut off v).mem = s.mem.store off v := rfl
@[simp] theorem memWrite_mem (off : Nat) (v : Bytes16) : (s.memWrite off v).mem = s.mem.storeList off v.toList := rfl
@[simp] theorem setCtx_ctx (c : CtxIdx) (v : Context) : (s.setCtx c v).ctx = s.ctx.set c.val v := rfl
@[simp] theorem wipeContext_ctx (c : CtxIdx) :
    (s.wipeContext c).ctx = s.ctx.set c.val ({ nr := .empty, rk := zeroSchedule } : Context) := rfl
@[simp] theorem wipeWorking_x : s.wipeWorking.x = Quad.zero := rfl
@[simp] theorem wipeWorking_y : s.wipeWorking.y = Quad.zero := rfl
@[simp] theorem drawFree_freeIdx : s.drawFree.freeIdx = s.freeIdx + 1 := rfl
@[simp] theorem popEvent_inbox : s.popEvent.inbox = s.inbox.tail := rfl
@[simp] theorem buildFromLatch_pow : s.buildFromLatch.pow = powTable := rfl
@[simp] theorem buildFromLatch_log : s.buildFromLatch.log = logTable s.log := rfl
@[simp] theorem buildFromLatch_trig : s.buildFromLatch.trig = false := rfl
@[simp] theorem buildFromLatch_tblDone : s.buildFromLatch.tblDone = true := rfl
@[simp] theorem buildFromLatch_tables : s.buildFromLatch.tables =
    buildTableSet s.params.faultForm s.maskLatch powTable (logTable s.log) s.tables.rsb := rfl

/-! ## What the updates leave -/


@[simp] theorem complete_haz (e : StatusCode) : (s.complete e).haz = s.haz := rfl
@[simp] theorem complete_irqEn (e : StatusCode) : (s.complete e).irqEn = s.irqEn := rfl
@[simp] theorem complete_trigEn (e : StatusCode) : (s.complete e).trigEn = s.trigEn := rfl
@[simp] theorem complete_mode (e : StatusCode) : (s.complete e).mode = s.mode := rfl
@[simp] theorem complete_keybits (e : StatusCode) : (s.complete e).keybits = s.keybits := rfl
@[simp] theorem complete_length (e : StatusCode) : (s.complete e).length = s.length := rfl
@[simp] theorem complete_src (e : StatusCode) : (s.complete e).src = s.src := rfl
@[simp] theorem complete_dst (e : StatusCode) : (s.complete e).dst = s.dst := rfl
@[simp] theorem complete_key (e : StatusCode) : (s.complete e).key = s.key := rfl
@[simp] theorem complete_din (e : StatusCode) : (s.complete e).din = s.din := rfl
@[simp] theorem complete_dout (e : StatusCode) : (s.complete e).dout = s.dout := rfl
@[simp] theorem complete_iv (e : StatusCode) : (s.complete e).iv = s.iv := rfl
@[simp] theorem complete_fmask (e : StatusCode) : (s.complete e).fmask = s.fmask := rfl
@[simp] theorem complete_ctx (e : StatusCode) : (s.complete e).ctx = s.ctx := rfl
@[simp] theorem complete_tables (e : StatusCode) : (s.complete e).tables = s.tables := rfl
@[simp] theorem complete_tblDone (e : StatusCode) : (s.complete e).tblDone = s.tblDone := rfl
@[simp] theorem complete_pow (e : StatusCode) : (s.complete e).pow = s.pow := rfl
@[simp] theorem complete_log (e : StatusCode) : (s.complete e).log = s.log := rfl
@[simp] theorem complete_maskLatch (e : StatusCode) : (s.complete e).maskLatch = s.maskLatch := rfl
@[simp] theorem complete_trLatch (e : StatusCode) : (s.complete e).trLatch = s.trLatch := rfl
@[simp] theorem complete_x (e : StatusCode) : (s.complete e).x = s.x := rfl
@[simp] theorem complete_y (e : StatusCode) : (s.complete e).y = s.y := rfl
@[simp] theorem complete_tmpk (e : StatusCode) : (s.complete e).tmpk = s.tmpk := rfl
@[simp] theorem complete_chain (e : StatusCode) : (s.complete e).chain = s.chain := rfl
@[simp] theorem complete_save (e : StatusCode) : (s.complete e).save = s.save := rfl
@[simp] theorem complete_trig (e : StatusCode) : (s.complete e).trig = s.trig := rfl
@[simp] theorem complete_mem (e : StatusCode) : (s.complete e).mem = s.mem := rfl
@[simp] theorem complete_rst (e : StatusCode) : (s.complete e).rst = s.rst := rfl
@[simp] theorem complete_reply (e : StatusCode) : (s.complete e).reply = s.reply := rfl
@[simp] theorem complete_params (e : StatusCode) : (s.complete e).params = s.params := rfl
@[simp] theorem complete_inbox (e : StatusCode) : (s.complete e).inbox = s.inbox := rfl
@[simp] theorem complete_epoch (e : StatusCode) : (s.complete e).epoch = s.epoch := rfl
@[simp] theorem complete_freeIdx (e : StatusCode) : (s.complete e).freeIdx = s.freeIdx := rfl

@[simp] theorem issue_haz (w : Word) : (s.issue w).haz = s.haz := rfl
@[simp] theorem issue_undef (w : Word) : (s.issue w).undef = s.undef := rfl
@[simp] theorem issue_irqEn (w : Word) : (s.issue w).irqEn = s.irqEn := rfl
@[simp] theorem issue_trigEn (w : Word) : (s.issue w).trigEn = s.trigEn := rfl
@[simp] theorem issue_mode (w : Word) : (s.issue w).mode = s.mode := rfl
@[simp] theorem issue_keybits (w : Word) : (s.issue w).keybits = s.keybits := rfl
@[simp] theorem issue_length (w : Word) : (s.issue w).length = s.length := rfl
@[simp] theorem issue_src (w : Word) : (s.issue w).src = s.src := rfl
@[simp] theorem issue_dst (w : Word) : (s.issue w).dst = s.dst := rfl
@[simp] theorem issue_key (w : Word) : (s.issue w).key = s.key := rfl
@[simp] theorem issue_din (w : Word) : (s.issue w).din = s.din := rfl
@[simp] theorem issue_dout (w : Word) : (s.issue w).dout = s.dout := rfl
@[simp] theorem issue_iv (w : Word) : (s.issue w).iv = s.iv := rfl
@[simp] theorem issue_fmask (w : Word) : (s.issue w).fmask = s.fmask := rfl
@[simp] theorem issue_ctx (w : Word) : (s.issue w).ctx = s.ctx := rfl
@[simp] theorem issue_tables (w : Word) : (s.issue w).tables = s.tables := rfl
@[simp] theorem issue_tblDone (w : Word) : (s.issue w).tblDone = s.tblDone := rfl
@[simp] theorem issue_pow (w : Word) : (s.issue w).pow = s.pow := rfl
@[simp] theorem issue_log (w : Word) : (s.issue w).log = s.log := rfl
@[simp] theorem issue_maskLatch (w : Word) : (s.issue w).maskLatch = s.maskLatch := rfl
@[simp] theorem issue_trLatch (w : Word) : (s.issue w).trLatch = s.trLatch := rfl
@[simp] theorem issue_x (w : Word) : (s.issue w).x = s.x := rfl
@[simp] theorem issue_y (w : Word) : (s.issue w).y = s.y := rfl
@[simp] theorem issue_tmpk (w : Word) : (s.issue w).tmpk = s.tmpk := rfl
@[simp] theorem issue_chain (w : Word) : (s.issue w).chain = s.chain := rfl
@[simp] theorem issue_save (w : Word) : (s.issue w).save = s.save := rfl
@[simp] theorem issue_trig (w : Word) : (s.issue w).trig = s.trig := rfl
@[simp] theorem issue_mem (w : Word) : (s.issue w).mem = s.mem := rfl
@[simp] theorem issue_rst (w : Word) : (s.issue w).rst = s.rst := rfl
@[simp] theorem issue_reply (w : Word) : (s.issue w).reply = s.reply := rfl
@[simp] theorem issue_params (w : Word) : (s.issue w).params = s.params := rfl
@[simp] theorem issue_inbox (w : Word) : (s.issue w).inbox = s.inbox := rfl
@[simp] theorem issue_epoch (w : Word) : (s.issue w).epoch = s.epoch := rfl
@[simp] theorem issue_freeIdx (w : Word) : (s.issue w).freeIdx = s.freeIdx := rfl

@[simp] theorem memPut_seq (off : Nat) (v : Byte) : (s.memPut off v).seq = s.seq := rfl
@[simp] theorem memPut_done (off : Nat) (v : Byte) : (s.memPut off v).done = s.done := rfl
@[simp] theorem memPut_err (off : Nat) (v : Byte) : (s.memPut off v).err = s.err := rfl
@[simp] theorem memPut_haz (off : Nat) (v : Byte) : (s.memPut off v).haz = s.haz := rfl
@[simp] theorem memPut_undef (off : Nat) (v : Byte) : (s.memPut off v).undef = s.undef := rfl
@[simp] theorem memPut_irqEn (off : Nat) (v : Byte) : (s.memPut off v).irqEn = s.irqEn := rfl
@[simp] theorem memPut_trigEn (off : Nat) (v : Byte) : (s.memPut off v).trigEn = s.trigEn := rfl
@[simp] theorem memPut_mode (off : Nat) (v : Byte) : (s.memPut off v).mode = s.mode := rfl
@[simp] theorem memPut_keybits (off : Nat) (v : Byte) : (s.memPut off v).keybits = s.keybits := rfl
@[simp] theorem memPut_length (off : Nat) (v : Byte) : (s.memPut off v).length = s.length := rfl
@[simp] theorem memPut_src (off : Nat) (v : Byte) : (s.memPut off v).src = s.src := rfl
@[simp] theorem memPut_dst (off : Nat) (v : Byte) : (s.memPut off v).dst = s.dst := rfl
@[simp] theorem memPut_key (off : Nat) (v : Byte) : (s.memPut off v).key = s.key := rfl
@[simp] theorem memPut_din (off : Nat) (v : Byte) : (s.memPut off v).din = s.din := rfl
@[simp] theorem memPut_dout (off : Nat) (v : Byte) : (s.memPut off v).dout = s.dout := rfl
@[simp] theorem memPut_iv (off : Nat) (v : Byte) : (s.memPut off v).iv = s.iv := rfl
@[simp] theorem memPut_fmask (off : Nat) (v : Byte) : (s.memPut off v).fmask = s.fmask := rfl
@[simp] theorem memPut_ctx (off : Nat) (v : Byte) : (s.memPut off v).ctx = s.ctx := rfl
@[simp] theorem memPut_tables (off : Nat) (v : Byte) : (s.memPut off v).tables = s.tables := rfl
@[simp] theorem memPut_tblDone (off : Nat) (v : Byte) : (s.memPut off v).tblDone = s.tblDone := rfl
@[simp] theorem memPut_pow (off : Nat) (v : Byte) : (s.memPut off v).pow = s.pow := rfl
@[simp] theorem memPut_log (off : Nat) (v : Byte) : (s.memPut off v).log = s.log := rfl
@[simp] theorem memPut_maskLatch (off : Nat) (v : Byte) : (s.memPut off v).maskLatch = s.maskLatch := rfl
@[simp] theorem memPut_trLatch (off : Nat) (v : Byte) : (s.memPut off v).trLatch = s.trLatch := rfl
@[simp] theorem memPut_x (off : Nat) (v : Byte) : (s.memPut off v).x = s.x := rfl
@[simp] theorem memPut_y (off : Nat) (v : Byte) : (s.memPut off v).y = s.y := rfl
@[simp] theorem memPut_tmpk (off : Nat) (v : Byte) : (s.memPut off v).tmpk = s.tmpk := rfl
@[simp] theorem memPut_chain (off : Nat) (v : Byte) : (s.memPut off v).chain = s.chain := rfl
@[simp] theorem memPut_save (off : Nat) (v : Byte) : (s.memPut off v).save = s.save := rfl
@[simp] theorem memPut_trig (off : Nat) (v : Byte) : (s.memPut off v).trig = s.trig := rfl
@[simp] theorem memPut_rst (off : Nat) (v : Byte) : (s.memPut off v).rst = s.rst := rfl
@[simp] theorem memPut_reply (off : Nat) (v : Byte) : (s.memPut off v).reply = s.reply := rfl
@[simp] theorem memPut_params (off : Nat) (v : Byte) : (s.memPut off v).params = s.params := rfl
@[simp] theorem memPut_inbox (off : Nat) (v : Byte) : (s.memPut off v).inbox = s.inbox := rfl
@[simp] theorem memPut_epoch (off : Nat) (v : Byte) : (s.memPut off v).epoch = s.epoch := rfl
@[simp] theorem memPut_freeIdx (off : Nat) (v : Byte) : (s.memPut off v).freeIdx = s.freeIdx := rfl

@[simp] theorem memWrite_seq (off : Nat) (v : Bytes16) : (s.memWrite off v).seq = s.seq := rfl
@[simp] theorem memWrite_done (off : Nat) (v : Bytes16) : (s.memWrite off v).done = s.done := rfl
@[simp] theorem memWrite_err (off : Nat) (v : Bytes16) : (s.memWrite off v).err = s.err := rfl
@[simp] theorem memWrite_haz (off : Nat) (v : Bytes16) : (s.memWrite off v).haz = s.haz := rfl
@[simp] theorem memWrite_undef (off : Nat) (v : Bytes16) : (s.memWrite off v).undef = s.undef := rfl
@[simp] theorem memWrite_irqEn (off : Nat) (v : Bytes16) : (s.memWrite off v).irqEn = s.irqEn := rfl
@[simp] theorem memWrite_trigEn (off : Nat) (v : Bytes16) : (s.memWrite off v).trigEn = s.trigEn := rfl
@[simp] theorem memWrite_mode (off : Nat) (v : Bytes16) : (s.memWrite off v).mode = s.mode := rfl
@[simp] theorem memWrite_keybits (off : Nat) (v : Bytes16) : (s.memWrite off v).keybits = s.keybits := rfl
@[simp] theorem memWrite_length (off : Nat) (v : Bytes16) : (s.memWrite off v).length = s.length := rfl
@[simp] theorem memWrite_src (off : Nat) (v : Bytes16) : (s.memWrite off v).src = s.src := rfl
@[simp] theorem memWrite_dst (off : Nat) (v : Bytes16) : (s.memWrite off v).dst = s.dst := rfl
@[simp] theorem memWrite_key (off : Nat) (v : Bytes16) : (s.memWrite off v).key = s.key := rfl
@[simp] theorem memWrite_din (off : Nat) (v : Bytes16) : (s.memWrite off v).din = s.din := rfl
@[simp] theorem memWrite_dout (off : Nat) (v : Bytes16) : (s.memWrite off v).dout = s.dout := rfl
@[simp] theorem memWrite_iv (off : Nat) (v : Bytes16) : (s.memWrite off v).iv = s.iv := rfl
@[simp] theorem memWrite_fmask (off : Nat) (v : Bytes16) : (s.memWrite off v).fmask = s.fmask := rfl
@[simp] theorem memWrite_ctx (off : Nat) (v : Bytes16) : (s.memWrite off v).ctx = s.ctx := rfl
@[simp] theorem memWrite_tables (off : Nat) (v : Bytes16) : (s.memWrite off v).tables = s.tables := rfl
@[simp] theorem memWrite_tblDone (off : Nat) (v : Bytes16) : (s.memWrite off v).tblDone = s.tblDone := rfl
@[simp] theorem memWrite_pow (off : Nat) (v : Bytes16) : (s.memWrite off v).pow = s.pow := rfl
@[simp] theorem memWrite_log (off : Nat) (v : Bytes16) : (s.memWrite off v).log = s.log := rfl
@[simp] theorem memWrite_maskLatch (off : Nat) (v : Bytes16) : (s.memWrite off v).maskLatch = s.maskLatch := rfl
@[simp] theorem memWrite_trLatch (off : Nat) (v : Bytes16) : (s.memWrite off v).trLatch = s.trLatch := rfl
@[simp] theorem memWrite_x (off : Nat) (v : Bytes16) : (s.memWrite off v).x = s.x := rfl
@[simp] theorem memWrite_y (off : Nat) (v : Bytes16) : (s.memWrite off v).y = s.y := rfl
@[simp] theorem memWrite_tmpk (off : Nat) (v : Bytes16) : (s.memWrite off v).tmpk = s.tmpk := rfl
@[simp] theorem memWrite_chain (off : Nat) (v : Bytes16) : (s.memWrite off v).chain = s.chain := rfl
@[simp] theorem memWrite_save (off : Nat) (v : Bytes16) : (s.memWrite off v).save = s.save := rfl
@[simp] theorem memWrite_trig (off : Nat) (v : Bytes16) : (s.memWrite off v).trig = s.trig := rfl
@[simp] theorem memWrite_rst (off : Nat) (v : Bytes16) : (s.memWrite off v).rst = s.rst := rfl
@[simp] theorem memWrite_reply (off : Nat) (v : Bytes16) : (s.memWrite off v).reply = s.reply := rfl
@[simp] theorem memWrite_params (off : Nat) (v : Bytes16) : (s.memWrite off v).params = s.params := rfl
@[simp] theorem memWrite_inbox (off : Nat) (v : Bytes16) : (s.memWrite off v).inbox = s.inbox := rfl
@[simp] theorem memWrite_epoch (off : Nat) (v : Bytes16) : (s.memWrite off v).epoch = s.epoch := rfl
@[simp] theorem memWrite_freeIdx (off : Nat) (v : Bytes16) : (s.memWrite off v).freeIdx = s.freeIdx := rfl

@[simp] theorem memPutWord_seq (off : Nat) (v : Word) : (s.memPutWord off v).seq = s.seq := rfl
@[simp] theorem memPutWord_done (off : Nat) (v : Word) : (s.memPutWord off v).done = s.done := rfl
@[simp] theorem memPutWord_err (off : Nat) (v : Word) : (s.memPutWord off v).err = s.err := rfl
@[simp] theorem memPutWord_haz (off : Nat) (v : Word) : (s.memPutWord off v).haz = s.haz := rfl
@[simp] theorem memPutWord_undef (off : Nat) (v : Word) : (s.memPutWord off v).undef = s.undef := rfl
@[simp] theorem memPutWord_irqEn (off : Nat) (v : Word) : (s.memPutWord off v).irqEn = s.irqEn := rfl
@[simp] theorem memPutWord_trigEn (off : Nat) (v : Word) : (s.memPutWord off v).trigEn = s.trigEn := rfl
@[simp] theorem memPutWord_mode (off : Nat) (v : Word) : (s.memPutWord off v).mode = s.mode := rfl
@[simp] theorem memPutWord_keybits (off : Nat) (v : Word) : (s.memPutWord off v).keybits = s.keybits := rfl
@[simp] theorem memPutWord_length (off : Nat) (v : Word) : (s.memPutWord off v).length = s.length := rfl
@[simp] theorem memPutWord_src (off : Nat) (v : Word) : (s.memPutWord off v).src = s.src := rfl
@[simp] theorem memPutWord_dst (off : Nat) (v : Word) : (s.memPutWord off v).dst = s.dst := rfl
@[simp] theorem memPutWord_key (off : Nat) (v : Word) : (s.memPutWord off v).key = s.key := rfl
@[simp] theorem memPutWord_din (off : Nat) (v : Word) : (s.memPutWord off v).din = s.din := rfl
@[simp] theorem memPutWord_dout (off : Nat) (v : Word) : (s.memPutWord off v).dout = s.dout := rfl
@[simp] theorem memPutWord_iv (off : Nat) (v : Word) : (s.memPutWord off v).iv = s.iv := rfl
@[simp] theorem memPutWord_fmask (off : Nat) (v : Word) : (s.memPutWord off v).fmask = s.fmask := rfl
@[simp] theorem memPutWord_ctx (off : Nat) (v : Word) : (s.memPutWord off v).ctx = s.ctx := rfl
@[simp] theorem memPutWord_tables (off : Nat) (v : Word) : (s.memPutWord off v).tables = s.tables := rfl
@[simp] theorem memPutWord_tblDone (off : Nat) (v : Word) : (s.memPutWord off v).tblDone = s.tblDone := rfl
@[simp] theorem memPutWord_pow (off : Nat) (v : Word) : (s.memPutWord off v).pow = s.pow := rfl
@[simp] theorem memPutWord_log (off : Nat) (v : Word) : (s.memPutWord off v).log = s.log := rfl
@[simp] theorem memPutWord_maskLatch (off : Nat) (v : Word) : (s.memPutWord off v).maskLatch = s.maskLatch := rfl
@[simp] theorem memPutWord_trLatch (off : Nat) (v : Word) : (s.memPutWord off v).trLatch = s.trLatch := rfl
@[simp] theorem memPutWord_x (off : Nat) (v : Word) : (s.memPutWord off v).x = s.x := rfl
@[simp] theorem memPutWord_y (off : Nat) (v : Word) : (s.memPutWord off v).y = s.y := rfl
@[simp] theorem memPutWord_tmpk (off : Nat) (v : Word) : (s.memPutWord off v).tmpk = s.tmpk := rfl
@[simp] theorem memPutWord_chain (off : Nat) (v : Word) : (s.memPutWord off v).chain = s.chain := rfl
@[simp] theorem memPutWord_save (off : Nat) (v : Word) : (s.memPutWord off v).save = s.save := rfl
@[simp] theorem memPutWord_trig (off : Nat) (v : Word) : (s.memPutWord off v).trig = s.trig := rfl
@[simp] theorem memPutWord_rst (off : Nat) (v : Word) : (s.memPutWord off v).rst = s.rst := rfl
@[simp] theorem memPutWord_reply (off : Nat) (v : Word) : (s.memPutWord off v).reply = s.reply := rfl
@[simp] theorem memPutWord_params (off : Nat) (v : Word) : (s.memPutWord off v).params = s.params := rfl
@[simp] theorem memPutWord_inbox (off : Nat) (v : Word) : (s.memPutWord off v).inbox = s.inbox := rfl
@[simp] theorem memPutWord_epoch (off : Nat) (v : Word) : (s.memPutWord off v).epoch = s.epoch := rfl
@[simp] theorem memPutWord_freeIdx (off : Nat) (v : Word) : (s.memPutWord off v).freeIdx = s.freeIdx := rfl

@[simp] theorem setCtx_seq (c : CtxIdx) (v : Context) : (s.setCtx c v).seq = s.seq := rfl
@[simp] theorem setCtx_done (c : CtxIdx) (v : Context) : (s.setCtx c v).done = s.done := rfl
@[simp] theorem setCtx_err (c : CtxIdx) (v : Context) : (s.setCtx c v).err = s.err := rfl
@[simp] theorem setCtx_haz (c : CtxIdx) (v : Context) : (s.setCtx c v).haz = s.haz := rfl
@[simp] theorem setCtx_undef (c : CtxIdx) (v : Context) : (s.setCtx c v).undef = s.undef := rfl
@[simp] theorem setCtx_irqEn (c : CtxIdx) (v : Context) : (s.setCtx c v).irqEn = s.irqEn := rfl
@[simp] theorem setCtx_trigEn (c : CtxIdx) (v : Context) : (s.setCtx c v).trigEn = s.trigEn := rfl
@[simp] theorem setCtx_mode (c : CtxIdx) (v : Context) : (s.setCtx c v).mode = s.mode := rfl
@[simp] theorem setCtx_keybits (c : CtxIdx) (v : Context) : (s.setCtx c v).keybits = s.keybits := rfl
@[simp] theorem setCtx_length (c : CtxIdx) (v : Context) : (s.setCtx c v).length = s.length := rfl
@[simp] theorem setCtx_src (c : CtxIdx) (v : Context) : (s.setCtx c v).src = s.src := rfl
@[simp] theorem setCtx_dst (c : CtxIdx) (v : Context) : (s.setCtx c v).dst = s.dst := rfl
@[simp] theorem setCtx_key (c : CtxIdx) (v : Context) : (s.setCtx c v).key = s.key := rfl
@[simp] theorem setCtx_din (c : CtxIdx) (v : Context) : (s.setCtx c v).din = s.din := rfl
@[simp] theorem setCtx_dout (c : CtxIdx) (v : Context) : (s.setCtx c v).dout = s.dout := rfl
@[simp] theorem setCtx_iv (c : CtxIdx) (v : Context) : (s.setCtx c v).iv = s.iv := rfl
@[simp] theorem setCtx_fmask (c : CtxIdx) (v : Context) : (s.setCtx c v).fmask = s.fmask := rfl
@[simp] theorem setCtx_tables (c : CtxIdx) (v : Context) : (s.setCtx c v).tables = s.tables := rfl
@[simp] theorem setCtx_tblDone (c : CtxIdx) (v : Context) : (s.setCtx c v).tblDone = s.tblDone := rfl
@[simp] theorem setCtx_pow (c : CtxIdx) (v : Context) : (s.setCtx c v).pow = s.pow := rfl
@[simp] theorem setCtx_log (c : CtxIdx) (v : Context) : (s.setCtx c v).log = s.log := rfl
@[simp] theorem setCtx_maskLatch (c : CtxIdx) (v : Context) : (s.setCtx c v).maskLatch = s.maskLatch := rfl
@[simp] theorem setCtx_trLatch (c : CtxIdx) (v : Context) : (s.setCtx c v).trLatch = s.trLatch := rfl
@[simp] theorem setCtx_x (c : CtxIdx) (v : Context) : (s.setCtx c v).x = s.x := rfl
@[simp] theorem setCtx_y (c : CtxIdx) (v : Context) : (s.setCtx c v).y = s.y := rfl
@[simp] theorem setCtx_tmpk (c : CtxIdx) (v : Context) : (s.setCtx c v).tmpk = s.tmpk := rfl
@[simp] theorem setCtx_chain (c : CtxIdx) (v : Context) : (s.setCtx c v).chain = s.chain := rfl
@[simp] theorem setCtx_save (c : CtxIdx) (v : Context) : (s.setCtx c v).save = s.save := rfl
@[simp] theorem setCtx_trig (c : CtxIdx) (v : Context) : (s.setCtx c v).trig = s.trig := rfl
@[simp] theorem setCtx_mem (c : CtxIdx) (v : Context) : (s.setCtx c v).mem = s.mem := rfl
@[simp] theorem setCtx_rst (c : CtxIdx) (v : Context) : (s.setCtx c v).rst = s.rst := rfl
@[simp] theorem setCtx_reply (c : CtxIdx) (v : Context) : (s.setCtx c v).reply = s.reply := rfl
@[simp] theorem setCtx_params (c : CtxIdx) (v : Context) : (s.setCtx c v).params = s.params := rfl
@[simp] theorem setCtx_inbox (c : CtxIdx) (v : Context) : (s.setCtx c v).inbox = s.inbox := rfl
@[simp] theorem setCtx_epoch (c : CtxIdx) (v : Context) : (s.setCtx c v).epoch = s.epoch := rfl
@[simp] theorem setCtx_freeIdx (c : CtxIdx) (v : Context) : (s.setCtx c v).freeIdx = s.freeIdx := rfl

@[simp] theorem wipeContext_seq (c : CtxIdx) : (s.wipeContext c).seq = s.seq := rfl
@[simp] theorem wipeContext_done (c : CtxIdx) : (s.wipeContext c).done = s.done := rfl
@[simp] theorem wipeContext_err (c : CtxIdx) : (s.wipeContext c).err = s.err := rfl
@[simp] theorem wipeContext_haz (c : CtxIdx) : (s.wipeContext c).haz = s.haz := rfl
@[simp] theorem wipeContext_undef (c : CtxIdx) : (s.wipeContext c).undef = s.undef := rfl
@[simp] theorem wipeContext_irqEn (c : CtxIdx) : (s.wipeContext c).irqEn = s.irqEn := rfl
@[simp] theorem wipeContext_trigEn (c : CtxIdx) : (s.wipeContext c).trigEn = s.trigEn := rfl
@[simp] theorem wipeContext_mode (c : CtxIdx) : (s.wipeContext c).mode = s.mode := rfl
@[simp] theorem wipeContext_keybits (c : CtxIdx) : (s.wipeContext c).keybits = s.keybits := rfl
@[simp] theorem wipeContext_length (c : CtxIdx) : (s.wipeContext c).length = s.length := rfl
@[simp] theorem wipeContext_src (c : CtxIdx) : (s.wipeContext c).src = s.src := rfl
@[simp] theorem wipeContext_dst (c : CtxIdx) : (s.wipeContext c).dst = s.dst := rfl
@[simp] theorem wipeContext_key (c : CtxIdx) : (s.wipeContext c).key = s.key := rfl
@[simp] theorem wipeContext_din (c : CtxIdx) : (s.wipeContext c).din = s.din := rfl
@[simp] theorem wipeContext_dout (c : CtxIdx) : (s.wipeContext c).dout = s.dout := rfl
@[simp] theorem wipeContext_iv (c : CtxIdx) : (s.wipeContext c).iv = s.iv := rfl
@[simp] theorem wipeContext_fmask (c : CtxIdx) : (s.wipeContext c).fmask = s.fmask := rfl
@[simp] theorem wipeContext_tables (c : CtxIdx) : (s.wipeContext c).tables = s.tables := rfl
@[simp] theorem wipeContext_tblDone (c : CtxIdx) : (s.wipeContext c).tblDone = s.tblDone := rfl
@[simp] theorem wipeContext_pow (c : CtxIdx) : (s.wipeContext c).pow = s.pow := rfl
@[simp] theorem wipeContext_log (c : CtxIdx) : (s.wipeContext c).log = s.log := rfl
@[simp] theorem wipeContext_maskLatch (c : CtxIdx) : (s.wipeContext c).maskLatch = s.maskLatch := rfl
@[simp] theorem wipeContext_trLatch (c : CtxIdx) : (s.wipeContext c).trLatch = s.trLatch := rfl
@[simp] theorem wipeContext_x (c : CtxIdx) : (s.wipeContext c).x = s.x := rfl
@[simp] theorem wipeContext_y (c : CtxIdx) : (s.wipeContext c).y = s.y := rfl
@[simp] theorem wipeContext_tmpk (c : CtxIdx) : (s.wipeContext c).tmpk = s.tmpk := rfl
@[simp] theorem wipeContext_chain (c : CtxIdx) : (s.wipeContext c).chain = s.chain := rfl
@[simp] theorem wipeContext_save (c : CtxIdx) : (s.wipeContext c).save = s.save := rfl
@[simp] theorem wipeContext_trig (c : CtxIdx) : (s.wipeContext c).trig = s.trig := rfl
@[simp] theorem wipeContext_mem (c : CtxIdx) : (s.wipeContext c).mem = s.mem := rfl
@[simp] theorem wipeContext_rst (c : CtxIdx) : (s.wipeContext c).rst = s.rst := rfl
@[simp] theorem wipeContext_reply (c : CtxIdx) : (s.wipeContext c).reply = s.reply := rfl
@[simp] theorem wipeContext_params (c : CtxIdx) : (s.wipeContext c).params = s.params := rfl
@[simp] theorem wipeContext_inbox (c : CtxIdx) : (s.wipeContext c).inbox = s.inbox := rfl
@[simp] theorem wipeContext_epoch (c : CtxIdx) : (s.wipeContext c).epoch = s.epoch := rfl
@[simp] theorem wipeContext_freeIdx (c : CtxIdx) : (s.wipeContext c).freeIdx = s.freeIdx := rfl

@[simp] theorem wipeWorking_seq : s.wipeWorking.seq = s.seq := rfl
@[simp] theorem wipeWorking_done : s.wipeWorking.done = s.done := rfl
@[simp] theorem wipeWorking_err : s.wipeWorking.err = s.err := rfl
@[simp] theorem wipeWorking_haz : s.wipeWorking.haz = s.haz := rfl
@[simp] theorem wipeWorking_undef : s.wipeWorking.undef = s.undef := rfl
@[simp] theorem wipeWorking_irqEn : s.wipeWorking.irqEn = s.irqEn := rfl
@[simp] theorem wipeWorking_trigEn : s.wipeWorking.trigEn = s.trigEn := rfl
@[simp] theorem wipeWorking_mode : s.wipeWorking.mode = s.mode := rfl
@[simp] theorem wipeWorking_keybits : s.wipeWorking.keybits = s.keybits := rfl
@[simp] theorem wipeWorking_length : s.wipeWorking.length = s.length := rfl
@[simp] theorem wipeWorking_src : s.wipeWorking.src = s.src := rfl
@[simp] theorem wipeWorking_dst : s.wipeWorking.dst = s.dst := rfl
@[simp] theorem wipeWorking_key : s.wipeWorking.key = s.key := rfl
@[simp] theorem wipeWorking_din : s.wipeWorking.din = s.din := rfl
@[simp] theorem wipeWorking_dout : s.wipeWorking.dout = s.dout := rfl
@[simp] theorem wipeWorking_iv : s.wipeWorking.iv = s.iv := rfl
@[simp] theorem wipeWorking_fmask : s.wipeWorking.fmask = s.fmask := rfl
@[simp] theorem wipeWorking_ctx : s.wipeWorking.ctx = s.ctx := rfl
@[simp] theorem wipeWorking_tables : s.wipeWorking.tables = s.tables := rfl
@[simp] theorem wipeWorking_tblDone : s.wipeWorking.tblDone = s.tblDone := rfl
@[simp] theorem wipeWorking_pow : s.wipeWorking.pow = s.pow := rfl
@[simp] theorem wipeWorking_log : s.wipeWorking.log = s.log := rfl
@[simp] theorem wipeWorking_maskLatch : s.wipeWorking.maskLatch = s.maskLatch := rfl
@[simp] theorem wipeWorking_trLatch : s.wipeWorking.trLatch = s.trLatch := rfl
@[simp] theorem wipeWorking_tmpk : s.wipeWorking.tmpk = s.tmpk := rfl
@[simp] theorem wipeWorking_chain : s.wipeWorking.chain = s.chain := rfl
@[simp] theorem wipeWorking_save : s.wipeWorking.save = s.save := rfl
@[simp] theorem wipeWorking_trig : s.wipeWorking.trig = s.trig := rfl
@[simp] theorem wipeWorking_mem : s.wipeWorking.mem = s.mem := rfl
@[simp] theorem wipeWorking_rst : s.wipeWorking.rst = s.rst := rfl
@[simp] theorem wipeWorking_reply : s.wipeWorking.reply = s.reply := rfl
@[simp] theorem wipeWorking_params : s.wipeWorking.params = s.params := rfl
@[simp] theorem wipeWorking_inbox : s.wipeWorking.inbox = s.inbox := rfl
@[simp] theorem wipeWorking_epoch : s.wipeWorking.epoch = s.epoch := rfl
@[simp] theorem wipeWorking_freeIdx : s.wipeWorking.freeIdx = s.freeIdx := rfl

@[simp] theorem drawFree_seq : s.drawFree.seq = s.seq := rfl
@[simp] theorem drawFree_done : s.drawFree.done = s.done := rfl
@[simp] theorem drawFree_err : s.drawFree.err = s.err := rfl
@[simp] theorem drawFree_haz : s.drawFree.haz = s.haz := rfl
@[simp] theorem drawFree_undef : s.drawFree.undef = s.undef := rfl
@[simp] theorem drawFree_irqEn : s.drawFree.irqEn = s.irqEn := rfl
@[simp] theorem drawFree_trigEn : s.drawFree.trigEn = s.trigEn := rfl
@[simp] theorem drawFree_mode : s.drawFree.mode = s.mode := rfl
@[simp] theorem drawFree_keybits : s.drawFree.keybits = s.keybits := rfl
@[simp] theorem drawFree_length : s.drawFree.length = s.length := rfl
@[simp] theorem drawFree_src : s.drawFree.src = s.src := rfl
@[simp] theorem drawFree_dst : s.drawFree.dst = s.dst := rfl
@[simp] theorem drawFree_key : s.drawFree.key = s.key := rfl
@[simp] theorem drawFree_din : s.drawFree.din = s.din := rfl
@[simp] theorem drawFree_dout : s.drawFree.dout = s.dout := rfl
@[simp] theorem drawFree_iv : s.drawFree.iv = s.iv := rfl
@[simp] theorem drawFree_fmask : s.drawFree.fmask = s.fmask := rfl
@[simp] theorem drawFree_ctx : s.drawFree.ctx = s.ctx := rfl
@[simp] theorem drawFree_tables : s.drawFree.tables = s.tables := rfl
@[simp] theorem drawFree_tblDone : s.drawFree.tblDone = s.tblDone := rfl
@[simp] theorem drawFree_pow : s.drawFree.pow = s.pow := rfl
@[simp] theorem drawFree_log : s.drawFree.log = s.log := rfl
@[simp] theorem drawFree_maskLatch : s.drawFree.maskLatch = s.maskLatch := rfl
@[simp] theorem drawFree_trLatch : s.drawFree.trLatch = s.trLatch := rfl
@[simp] theorem drawFree_x : s.drawFree.x = s.x := rfl
@[simp] theorem drawFree_y : s.drawFree.y = s.y := rfl
@[simp] theorem drawFree_tmpk : s.drawFree.tmpk = s.tmpk := rfl
@[simp] theorem drawFree_chain : s.drawFree.chain = s.chain := rfl
@[simp] theorem drawFree_save : s.drawFree.save = s.save := rfl
@[simp] theorem drawFree_trig : s.drawFree.trig = s.trig := rfl
@[simp] theorem drawFree_mem : s.drawFree.mem = s.mem := rfl
@[simp] theorem drawFree_rst : s.drawFree.rst = s.rst := rfl
@[simp] theorem drawFree_reply : s.drawFree.reply = s.reply := rfl
@[simp] theorem drawFree_params : s.drawFree.params = s.params := rfl
@[simp] theorem drawFree_inbox : s.drawFree.inbox = s.inbox := rfl
@[simp] theorem drawFree_epoch : s.drawFree.epoch = s.epoch := rfl

@[simp] theorem popEvent_seq : s.popEvent.seq = s.seq := rfl
@[simp] theorem popEvent_done : s.popEvent.done = s.done := rfl
@[simp] theorem popEvent_err : s.popEvent.err = s.err := rfl
@[simp] theorem popEvent_haz : s.popEvent.haz = s.haz := rfl
@[simp] theorem popEvent_undef : s.popEvent.undef = s.undef := rfl
@[simp] theorem popEvent_irqEn : s.popEvent.irqEn = s.irqEn := rfl
@[simp] theorem popEvent_trigEn : s.popEvent.trigEn = s.trigEn := rfl
@[simp] theorem popEvent_mode : s.popEvent.mode = s.mode := rfl
@[simp] theorem popEvent_keybits : s.popEvent.keybits = s.keybits := rfl
@[simp] theorem popEvent_length : s.popEvent.length = s.length := rfl
@[simp] theorem popEvent_src : s.popEvent.src = s.src := rfl
@[simp] theorem popEvent_dst : s.popEvent.dst = s.dst := rfl
@[simp] theorem popEvent_key : s.popEvent.key = s.key := rfl
@[simp] theorem popEvent_din : s.popEvent.din = s.din := rfl
@[simp] theorem popEvent_dout : s.popEvent.dout = s.dout := rfl
@[simp] theorem popEvent_iv : s.popEvent.iv = s.iv := rfl
@[simp] theorem popEvent_fmask : s.popEvent.fmask = s.fmask := rfl
@[simp] theorem popEvent_ctx : s.popEvent.ctx = s.ctx := rfl
@[simp] theorem popEvent_tables : s.popEvent.tables = s.tables := rfl
@[simp] theorem popEvent_tblDone : s.popEvent.tblDone = s.tblDone := rfl
@[simp] theorem popEvent_pow : s.popEvent.pow = s.pow := rfl
@[simp] theorem popEvent_log : s.popEvent.log = s.log := rfl
@[simp] theorem popEvent_maskLatch : s.popEvent.maskLatch = s.maskLatch := rfl
@[simp] theorem popEvent_trLatch : s.popEvent.trLatch = s.trLatch := rfl
@[simp] theorem popEvent_x : s.popEvent.x = s.x := rfl
@[simp] theorem popEvent_y : s.popEvent.y = s.y := rfl
@[simp] theorem popEvent_tmpk : s.popEvent.tmpk = s.tmpk := rfl
@[simp] theorem popEvent_chain : s.popEvent.chain = s.chain := rfl
@[simp] theorem popEvent_save : s.popEvent.save = s.save := rfl
@[simp] theorem popEvent_trig : s.popEvent.trig = s.trig := rfl
@[simp] theorem popEvent_mem : s.popEvent.mem = s.mem := rfl
@[simp] theorem popEvent_rst : s.popEvent.rst = s.rst := rfl
@[simp] theorem popEvent_reply : s.popEvent.reply = s.reply := rfl
@[simp] theorem popEvent_params : s.popEvent.params = s.params := rfl
@[simp] theorem popEvent_epoch : s.popEvent.epoch = s.epoch := rfl
@[simp] theorem popEvent_freeIdx : s.popEvent.freeIdx = s.freeIdx := rfl

@[simp] theorem buildFromLatch_seq : s.buildFromLatch.seq = s.seq := rfl
@[simp] theorem buildFromLatch_done : s.buildFromLatch.done = s.done := rfl
@[simp] theorem buildFromLatch_err : s.buildFromLatch.err = s.err := rfl
@[simp] theorem buildFromLatch_haz : s.buildFromLatch.haz = s.haz := rfl
@[simp] theorem buildFromLatch_undef : s.buildFromLatch.undef = s.undef := rfl
@[simp] theorem buildFromLatch_irqEn : s.buildFromLatch.irqEn = s.irqEn := rfl
@[simp] theorem buildFromLatch_trigEn : s.buildFromLatch.trigEn = s.trigEn := rfl
@[simp] theorem buildFromLatch_mode : s.buildFromLatch.mode = s.mode := rfl
@[simp] theorem buildFromLatch_keybits : s.buildFromLatch.keybits = s.keybits := rfl
@[simp] theorem buildFromLatch_length : s.buildFromLatch.length = s.length := rfl
@[simp] theorem buildFromLatch_src : s.buildFromLatch.src = s.src := rfl
@[simp] theorem buildFromLatch_dst : s.buildFromLatch.dst = s.dst := rfl
@[simp] theorem buildFromLatch_key : s.buildFromLatch.key = s.key := rfl
@[simp] theorem buildFromLatch_din : s.buildFromLatch.din = s.din := rfl
@[simp] theorem buildFromLatch_dout : s.buildFromLatch.dout = s.dout := rfl
@[simp] theorem buildFromLatch_iv : s.buildFromLatch.iv = s.iv := rfl
@[simp] theorem buildFromLatch_fmask : s.buildFromLatch.fmask = s.fmask := rfl
@[simp] theorem buildFromLatch_ctx : s.buildFromLatch.ctx = s.ctx := rfl
@[simp] theorem buildFromLatch_maskLatch : s.buildFromLatch.maskLatch = s.maskLatch := rfl
@[simp] theorem buildFromLatch_trLatch : s.buildFromLatch.trLatch = s.trLatch := rfl
@[simp] theorem buildFromLatch_x : s.buildFromLatch.x = s.x := rfl
@[simp] theorem buildFromLatch_y : s.buildFromLatch.y = s.y := rfl
@[simp] theorem buildFromLatch_tmpk : s.buildFromLatch.tmpk = s.tmpk := rfl
@[simp] theorem buildFromLatch_chain : s.buildFromLatch.chain = s.chain := rfl
@[simp] theorem buildFromLatch_save : s.buildFromLatch.save = s.save := rfl
@[simp] theorem buildFromLatch_mem : s.buildFromLatch.mem = s.mem := rfl
@[simp] theorem buildFromLatch_rst : s.buildFromLatch.rst = s.rst := rfl
@[simp] theorem buildFromLatch_reply : s.buildFromLatch.reply = s.reply := rfl
@[simp] theorem buildFromLatch_params : s.buildFromLatch.params = s.params := rfl
@[simp] theorem buildFromLatch_inbox : s.buildFromLatch.inbox = s.inbox := rfl
@[simp] theorem buildFromLatch_epoch : s.buildFromLatch.epoch = s.epoch := rfl
@[simp] theorem buildFromLatch_freeIdx : s.buildFromLatch.freeIdx = s.freeIdx := rfl

@[simp] theorem latchBuild_seq : s.latchBuild.seq = s.seq := by unfold State.latchBuild; split <;> rfl
@[simp] theorem latchBuild_done : s.latchBuild.done = s.done := by unfold State.latchBuild; split <;> rfl
@[simp] theorem latchBuild_err : s.latchBuild.err = s.err := by unfold State.latchBuild; split <;> rfl
@[simp] theorem latchBuild_haz : s.latchBuild.haz = s.haz := by unfold State.latchBuild; split <;> rfl
@[simp] theorem latchBuild_undef : s.latchBuild.undef = s.undef := by unfold State.latchBuild; split <;> rfl
@[simp] theorem latchBuild_irqEn : s.latchBuild.irqEn = s.irqEn := by unfold State.latchBuild; split <;> rfl
@[simp] theorem latchBuild_trigEn : s.latchBuild.trigEn = s.trigEn := by unfold State.latchBuild; split <;> rfl
@[simp] theorem latchBuild_mode : s.latchBuild.mode = s.mode := by unfold State.latchBuild; split <;> rfl
@[simp] theorem latchBuild_keybits : s.latchBuild.keybits = s.keybits := by unfold State.latchBuild; split <;> rfl
@[simp] theorem latchBuild_length : s.latchBuild.length = s.length := by unfold State.latchBuild; split <;> rfl
@[simp] theorem latchBuild_src : s.latchBuild.src = s.src := by unfold State.latchBuild; split <;> rfl
@[simp] theorem latchBuild_dst : s.latchBuild.dst = s.dst := by unfold State.latchBuild; split <;> rfl
@[simp] theorem latchBuild_key : s.latchBuild.key = s.key := by unfold State.latchBuild; split <;> rfl
@[simp] theorem latchBuild_din : s.latchBuild.din = s.din := by unfold State.latchBuild; split <;> rfl
@[simp] theorem latchBuild_dout : s.latchBuild.dout = s.dout := by unfold State.latchBuild; split <;> rfl
@[simp] theorem latchBuild_iv : s.latchBuild.iv = s.iv := by unfold State.latchBuild; split <;> rfl
@[simp] theorem latchBuild_fmask : s.latchBuild.fmask = s.fmask := by unfold State.latchBuild; split <;> rfl
@[simp] theorem latchBuild_ctx : s.latchBuild.ctx = s.ctx := by unfold State.latchBuild; split <;> rfl
@[simp] theorem latchBuild_tables : s.latchBuild.tables = s.tables := by unfold State.latchBuild; split <;> rfl
@[simp] theorem latchBuild_tblDone : s.latchBuild.tblDone = s.tblDone := by unfold State.latchBuild; split <;> rfl
@[simp] theorem latchBuild_pow : s.latchBuild.pow = s.pow := by unfold State.latchBuild; split <;> rfl
@[simp] theorem latchBuild_log : s.latchBuild.log = s.log := by unfold State.latchBuild; split <;> rfl
@[simp] theorem latchBuild_x : s.latchBuild.x = s.x := by unfold State.latchBuild; split <;> rfl
@[simp] theorem latchBuild_y : s.latchBuild.y = s.y := by unfold State.latchBuild; split <;> rfl
@[simp] theorem latchBuild_tmpk : s.latchBuild.tmpk = s.tmpk := by unfold State.latchBuild; split <;> rfl
@[simp] theorem latchBuild_chain : s.latchBuild.chain = s.chain := by unfold State.latchBuild; split <;> rfl
@[simp] theorem latchBuild_save : s.latchBuild.save = s.save := by unfold State.latchBuild; split <;> rfl
@[simp] theorem latchBuild_trig : s.latchBuild.trig = s.trig := by unfold State.latchBuild; split <;> rfl
@[simp] theorem latchBuild_mem : s.latchBuild.mem = s.mem := by unfold State.latchBuild; split <;> rfl
@[simp] theorem latchBuild_rst : s.latchBuild.rst = s.rst := by unfold State.latchBuild; split <;> rfl
@[simp] theorem latchBuild_reply : s.latchBuild.reply = s.reply := by unfold State.latchBuild; split <;> rfl
@[simp] theorem latchBuild_params : s.latchBuild.params = s.params := by unfold State.latchBuild; split <;> rfl
@[simp] theorem latchBuild_inbox : s.latchBuild.inbox = s.inbox := by unfold State.latchBuild; split <;> rfl
@[simp] theorem latchBuild_epoch : s.latchBuild.epoch = s.epoch := by unfold State.latchBuild; split <;> rfl
@[simp] theorem latchBuild_freeIdx : s.latchBuild.freeIdx = s.freeIdx := by unfold State.latchBuild; split <;> rfl

@[simp] theorem build_seq : s.build.seq = s.seq := by simp [State.build]
@[simp] theorem build_done : s.build.done = s.done := by simp [State.build]
@[simp] theorem build_err : s.build.err = s.err := by simp [State.build]
@[simp] theorem build_haz : s.build.haz = s.haz := by simp [State.build]
@[simp] theorem build_undef : s.build.undef = s.undef := by simp [State.build]
@[simp] theorem build_irqEn : s.build.irqEn = s.irqEn := by simp [State.build]
@[simp] theorem build_trigEn : s.build.trigEn = s.trigEn := by simp [State.build]
@[simp] theorem build_mode : s.build.mode = s.mode := by simp [State.build]
@[simp] theorem build_keybits : s.build.keybits = s.keybits := by simp [State.build]
@[simp] theorem build_length : s.build.length = s.length := by simp [State.build]
@[simp] theorem build_src : s.build.src = s.src := by simp [State.build]
@[simp] theorem build_dst : s.build.dst = s.dst := by simp [State.build]
@[simp] theorem build_key : s.build.key = s.key := by simp [State.build]
@[simp] theorem build_din : s.build.din = s.din := by simp [State.build]
@[simp] theorem build_dout : s.build.dout = s.dout := by simp [State.build]
@[simp] theorem build_iv : s.build.iv = s.iv := by simp [State.build]
@[simp] theorem build_fmask : s.build.fmask = s.fmask := by simp [State.build]
@[simp] theorem build_ctx : s.build.ctx = s.ctx := by simp [State.build]
@[simp] theorem build_x : s.build.x = s.x := by simp [State.build]
@[simp] theorem build_y : s.build.y = s.y := by simp [State.build]
@[simp] theorem build_tmpk : s.build.tmpk = s.tmpk := by simp [State.build]
@[simp] theorem build_chain : s.build.chain = s.chain := by simp [State.build]
@[simp] theorem build_save : s.build.save = s.save := by simp [State.build]
@[simp] theorem build_mem : s.build.mem = s.mem := by simp [State.build]
@[simp] theorem build_rst : s.build.rst = s.rst := by simp [State.build]
@[simp] theorem build_reply : s.build.reply = s.reply := by simp [State.build]
@[simp] theorem build_params : s.build.params = s.params := by simp [State.build]
@[simp] theorem build_inbox : s.build.inbox = s.inbox := by simp [State.build]
@[simp] theorem build_epoch : s.build.epoch = s.epoch := by simp [State.build]
@[simp] theorem build_freeIdx : s.build.freeIdx = s.freeIdx := by simp [State.build]

@[simp] theorem ensureTables_seq : s.ensureTables.seq = s.seq := by unfold State.ensureTables; split <;> simp
@[simp] theorem ensureTables_done : s.ensureTables.done = s.done := by unfold State.ensureTables; split <;> simp
@[simp] theorem ensureTables_err : s.ensureTables.err = s.err := by unfold State.ensureTables; split <;> simp
@[simp] theorem ensureTables_haz : s.ensureTables.haz = s.haz := by unfold State.ensureTables; split <;> simp
@[simp] theorem ensureTables_undef : s.ensureTables.undef = s.undef := by unfold State.ensureTables; split <;> simp
@[simp] theorem ensureTables_irqEn : s.ensureTables.irqEn = s.irqEn := by unfold State.ensureTables; split <;> simp
@[simp] theorem ensureTables_trigEn : s.ensureTables.trigEn = s.trigEn := by unfold State.ensureTables; split <;> simp
@[simp] theorem ensureTables_mode : s.ensureTables.mode = s.mode := by unfold State.ensureTables; split <;> simp
@[simp] theorem ensureTables_keybits : s.ensureTables.keybits = s.keybits := by unfold State.ensureTables; split <;> simp
@[simp] theorem ensureTables_length : s.ensureTables.length = s.length := by unfold State.ensureTables; split <;> simp
@[simp] theorem ensureTables_src : s.ensureTables.src = s.src := by unfold State.ensureTables; split <;> simp
@[simp] theorem ensureTables_dst : s.ensureTables.dst = s.dst := by unfold State.ensureTables; split <;> simp
@[simp] theorem ensureTables_key : s.ensureTables.key = s.key := by unfold State.ensureTables; split <;> simp
@[simp] theorem ensureTables_din : s.ensureTables.din = s.din := by unfold State.ensureTables; split <;> simp
@[simp] theorem ensureTables_dout : s.ensureTables.dout = s.dout := by unfold State.ensureTables; split <;> simp
@[simp] theorem ensureTables_iv : s.ensureTables.iv = s.iv := by unfold State.ensureTables; split <;> simp
@[simp] theorem ensureTables_fmask : s.ensureTables.fmask = s.fmask := by unfold State.ensureTables; split <;> simp
@[simp] theorem ensureTables_ctx : s.ensureTables.ctx = s.ctx := by unfold State.ensureTables; split <;> simp
@[simp] theorem ensureTables_x : s.ensureTables.x = s.x := by unfold State.ensureTables; split <;> simp
@[simp] theorem ensureTables_y : s.ensureTables.y = s.y := by unfold State.ensureTables; split <;> simp
@[simp] theorem ensureTables_tmpk : s.ensureTables.tmpk = s.tmpk := by unfold State.ensureTables; split <;> simp
@[simp] theorem ensureTables_chain : s.ensureTables.chain = s.chain := by unfold State.ensureTables; split <;> simp
@[simp] theorem ensureTables_save : s.ensureTables.save = s.save := by unfold State.ensureTables; split <;> simp
@[simp] theorem ensureTables_mem : s.ensureTables.mem = s.mem := by unfold State.ensureTables; split <;> simp
@[simp] theorem ensureTables_rst : s.ensureTables.rst = s.rst := by unfold State.ensureTables; split <;> simp
@[simp] theorem ensureTables_reply : s.ensureTables.reply = s.reply := by unfold State.ensureTables; split <;> simp
@[simp] theorem ensureTables_params : s.ensureTables.params = s.params := by unfold State.ensureTables; split <;> simp
@[simp] theorem ensureTables_inbox : s.ensureTables.inbox = s.inbox := by unfold State.ensureTables; split <;> simp
@[simp] theorem ensureTables_epoch : s.ensureTables.epoch = s.epoch := by unfold State.ensureTables; split <;> simp
@[simp] theorem ensureTables_freeIdx : s.ensureTables.freeIdx = s.freeIdx := by unfold State.ensureTables; split <;> simp

@[simp] theorem cbcBlock_seq (d : Direction) (c : CtxIdx) (src dst : Nat) : (s.cbcBlock d c src dst).seq = s.seq := by cases d <;> rfl
@[simp] theorem cbcBlock_done (d : Direction) (c : CtxIdx) (src dst : Nat) : (s.cbcBlock d c src dst).done = s.done := by cases d <;> rfl
@[simp] theorem cbcBlock_err (d : Direction) (c : CtxIdx) (src dst : Nat) : (s.cbcBlock d c src dst).err = s.err := by cases d <;> rfl
@[simp] theorem cbcBlock_haz (d : Direction) (c : CtxIdx) (src dst : Nat) : (s.cbcBlock d c src dst).haz = s.haz := by cases d <;> rfl
@[simp] theorem cbcBlock_undef (d : Direction) (c : CtxIdx) (src dst : Nat) : (s.cbcBlock d c src dst).undef = s.undef := by cases d <;> rfl
@[simp] theorem cbcBlock_irqEn (d : Direction) (c : CtxIdx) (src dst : Nat) : (s.cbcBlock d c src dst).irqEn = s.irqEn := by cases d <;> rfl
@[simp] theorem cbcBlock_trigEn (d : Direction) (c : CtxIdx) (src dst : Nat) : (s.cbcBlock d c src dst).trigEn = s.trigEn := by cases d <;> rfl
@[simp] theorem cbcBlock_mode (d : Direction) (c : CtxIdx) (src dst : Nat) : (s.cbcBlock d c src dst).mode = s.mode := by cases d <;> rfl
@[simp] theorem cbcBlock_keybits (d : Direction) (c : CtxIdx) (src dst : Nat) : (s.cbcBlock d c src dst).keybits = s.keybits := by cases d <;> rfl
@[simp] theorem cbcBlock_length (d : Direction) (c : CtxIdx) (src dst : Nat) : (s.cbcBlock d c src dst).length = s.length := by cases d <;> rfl
@[simp] theorem cbcBlock_src (d : Direction) (c : CtxIdx) (src dst : Nat) : (s.cbcBlock d c src dst).src = s.src := by cases d <;> rfl
@[simp] theorem cbcBlock_dst (d : Direction) (c : CtxIdx) (src dst : Nat) : (s.cbcBlock d c src dst).dst = s.dst := by cases d <;> rfl
@[simp] theorem cbcBlock_key (d : Direction) (c : CtxIdx) (src dst : Nat) : (s.cbcBlock d c src dst).key = s.key := by cases d <;> rfl
@[simp] theorem cbcBlock_din (d : Direction) (c : CtxIdx) (src dst : Nat) : (s.cbcBlock d c src dst).din = s.din := by cases d <;> rfl
@[simp] theorem cbcBlock_dout (d : Direction) (c : CtxIdx) (src dst : Nat) : (s.cbcBlock d c src dst).dout = s.dout := by cases d <;> rfl
@[simp] theorem cbcBlock_iv (d : Direction) (c : CtxIdx) (src dst : Nat) : (s.cbcBlock d c src dst).iv = s.iv := by cases d <;> rfl
@[simp] theorem cbcBlock_fmask (d : Direction) (c : CtxIdx) (src dst : Nat) : (s.cbcBlock d c src dst).fmask = s.fmask := by cases d <;> rfl
@[simp] theorem cbcBlock_ctx (d : Direction) (c : CtxIdx) (src dst : Nat) : (s.cbcBlock d c src dst).ctx = s.ctx := by cases d <;> rfl
@[simp] theorem cbcBlock_tables (d : Direction) (c : CtxIdx) (src dst : Nat) : (s.cbcBlock d c src dst).tables = s.tables := by cases d <;> rfl
@[simp] theorem cbcBlock_tblDone (d : Direction) (c : CtxIdx) (src dst : Nat) : (s.cbcBlock d c src dst).tblDone = s.tblDone := by cases d <;> rfl
@[simp] theorem cbcBlock_pow (d : Direction) (c : CtxIdx) (src dst : Nat) : (s.cbcBlock d c src dst).pow = s.pow := by cases d <;> rfl
@[simp] theorem cbcBlock_log (d : Direction) (c : CtxIdx) (src dst : Nat) : (s.cbcBlock d c src dst).log = s.log := by cases d <;> rfl
@[simp] theorem cbcBlock_maskLatch (d : Direction) (c : CtxIdx) (src dst : Nat) : (s.cbcBlock d c src dst).maskLatch = s.maskLatch := by cases d <;> rfl
@[simp] theorem cbcBlock_trLatch (d : Direction) (c : CtxIdx) (src dst : Nat) : (s.cbcBlock d c src dst).trLatch = s.trLatch := by cases d <;> rfl
@[simp] theorem cbcBlock_tmpk (d : Direction) (c : CtxIdx) (src dst : Nat) : (s.cbcBlock d c src dst).tmpk = s.tmpk := by cases d <;> rfl
@[simp] theorem cbcBlock_trig (d : Direction) (c : CtxIdx) (src dst : Nat) : (s.cbcBlock d c src dst).trig = s.trig := by cases d <;> rfl
@[simp] theorem cbcBlock_rst (d : Direction) (c : CtxIdx) (src dst : Nat) : (s.cbcBlock d c src dst).rst = s.rst := by cases d <;> rfl
@[simp] theorem cbcBlock_reply (d : Direction) (c : CtxIdx) (src dst : Nat) : (s.cbcBlock d c src dst).reply = s.reply := by cases d <;> rfl
@[simp] theorem cbcBlock_params (d : Direction) (c : CtxIdx) (src dst : Nat) : (s.cbcBlock d c src dst).params = s.params := by cases d <;> rfl
@[simp] theorem cbcBlock_inbox (d : Direction) (c : CtxIdx) (src dst : Nat) : (s.cbcBlock d c src dst).inbox = s.inbox := by cases d <;> rfl
@[simp] theorem cbcBlock_epoch (d : Direction) (c : CtxIdx) (src dst : Nat) : (s.cbcBlock d c src dst).epoch = s.epoch := by cases d <;> rfl
@[simp] theorem cbcBlock_freeIdx (d : Direction) (c : CtxIdx) (src dst : Nat) : (s.cbcBlock d c src dst).freeIdx = s.freeIdx := by cases d <;> rfl

/-! ## What the build writes -/

@[simp] theorem build_tblDone : s.build.tblDone = true := rfl
@[simp] theorem build_trig : s.build.trig = false := rfl
@[simp] theorem build_pow : s.build.pow = powTable := rfl
@[simp] theorem build_log : s.build.log = logTable s.log := by unfold State.build; rw [buildFromLatch_log, latchBuild_log]
theorem build_maskLatch : s.build.maskLatch = s.latchBuild.maskLatch := rfl
theorem build_tables : s.build.tables =
    buildTableSet s.params.faultForm s.latchBuild.maskLatch powTable (logTable s.log) s.tables.rsb := by
  simp [State.build]

/-- `ensure_tables` always leaves the table set built (R161). -/
@[simp] theorem ensureTables_tblDone : s.ensureTables.tblDone = true := by
  unfold State.ensureTables; split <;> simp_all

theorem ensureTables_of_built (h : s.tblDone = true) : s.ensureTables = s := by simp [State.ensureTables, h]
theorem ensureTables_of_unbuilt (h : s.tblDone = false) : s.ensureTables = s.build := by simp [State.ensureTables, h]

@[simp] theorem setCtx_ctxAt_self (c : CtxIdx) (v : Context) : (s.setCtx c v).ctxAt c = v := by
  simp [State.ctxAt]

theorem setCtx_ctxAt_of_ne (c c' : CtxIdx) (v : Context) (h : c' ≠ c) : (s.setCtx c v).ctxAt c' = s.ctxAt c' := by
  have : c.val ≠ c'.val := fun e => h (Fin.ext e.symm)
  simp [State.ctxAt, this]

end Sys2Proof.Machine
end

