-- ==== Sys2Proof/Laws/Exec.lean ====
section
/-! SUPPORT. What each shared operation and each command can do, said once: the closed form of the table build and of the CBC loop
(every field they leave), and the cases of each command with their conditions. -/

namespace Sys2Proof.Machine

/-- Two states with the same fields are equal. -/
theorem State.ext_fields {s t : State}
    (h_seq : s.seq = t.seq) (h_done : s.done = t.done) (h_err : s.err = t.err) (h_haz : s.haz = t.haz)
    (h_undef : s.undef = t.undef) (h_irqEn : s.irqEn = t.irqEn) (h_trigEn : s.trigEn = t.trigEn) (h_mode : s.mode = t.mode)
    (h_keybits : s.keybits = t.keybits) (h_length : s.length = t.length) (h_src : s.src = t.src) (h_dst : s.dst = t.dst)
    (h_key : s.key = t.key) (h_din : s.din = t.din) (h_dout : s.dout = t.dout) (h_iv : s.iv = t.iv)
    (h_fmask : s.fmask = t.fmask) (h_ctx : s.ctx = t.ctx) (h_tables : s.tables = t.tables)
    (h_tblDone : s.tblDone = t.tblDone) (h_pow : s.pow = t.pow) (h_log : s.log = t.log)
    (h_maskLatch : s.maskLatch = t.maskLatch) (h_trLatch : s.trLatch = t.trLatch) (h_x : s.x = t.x) (h_y : s.y = t.y)
    (h_tmpk : s.tmpk = t.tmpk) (h_chain : s.chain = t.chain) (h_save : s.save = t.save) (h_trig : s.trig = t.trig)
    (h_mem : s.mem = t.mem) (h_rst : s.rst = t.rst) (h_reply : s.reply = t.reply) (h_params : s.params = t.params)
    (h_inbox : s.inbox = t.inbox) (h_epoch : s.epoch = t.epoch) (h_freeIdx : s.freeIdx = t.freeIdx) : s = t := by
  cases s
  cases t
  simp_all

/-! ## The table build -/

/-- `ensure_tables` writes the builder's fields and no other (R125, R132, R140). -/
theorem ensureTables_frame (s : State) :
    s.ensureTables =
      { s with
        tables := s.ensureTables.tables
        pow := s.ensureTables.pow
        log := s.ensureTables.log
        maskLatch := s.ensureTables.maskLatch
        trLatch := s.ensureTables.trLatch
        trig := s.ensureTables.trig
        tblDone := true } := by
  unfold State.ensureTables
  split
  · next h => cases s; simp_all
  · unfold State.build State.latchBuild
    split <;> rfl

theorem ensureTables_of_done {s : State} (h : s.tblDone = true) : s.ensureTables = s := by simp [State.ensureTables, h]

theorem ensureTables_of_not_done {s : State} (h : s.tblDone = false) : s.ensureTables = s.latchBuild.buildFromLatch := by
  simp [State.ensureTables, h, State.build]

/-- The latch of R125 step 1 writes the two latched copies and no other field. -/
theorem latchBuild_frame (s : State) :
    s.latchBuild = { s with maskLatch := s.latchBuild.maskLatch, trLatch := s.latchBuild.trLatch } := by
  unfold State.latchBuild
  split <;> rfl

/-- The latch of R125 step 1, by how far the running command has come. -/
theorem latchBuild_cases (s : State) :
    (s.latchBuild = s ∧ ∃ cmd phase, s.seq = .busy cmd phase ∧ phase ≠ .start) ∨
      (s.latchBuild = { s with maskLatch := s.fmask, trLatch := s.trigEn } ∧
        ∀ cmd phase, s.seq = .busy cmd phase → phase = .start) := by
  unfold State.latchBuild
  split
  · next h => exact .inl ⟨rfl, _, _, h, by decide⟩
  · next h => exact .inl ⟨rfl, _, _, h, by decide⟩
  · next h1 h2 =>
    refine .inr ⟨rfl, fun cmd phase h => ?_⟩
    cases phase
    · rfl
    · exact absurd h (h1 _)
    · exact absurd h (h2 _)

/-- The build does not read the contexts. -/
theorem ensureTables_setCtx (s : State) (c : CtxIdx) (v : Context) :
    (s.setCtx c v).ensureTables = s.ensureTables.setCtx c v := by
  unfold State.ensureTables
  rw [show (s.setCtx c v).tblDone = s.tblDone from rfl]
  split
  · rfl
  · unfold State.build State.latchBuild
    rw [show (s.setCtx c v).seq = s.seq from rfl]
    split <;> rfl

/-! ## Contexts -/

@[simp] theorem ctxAt_setCtx_self (s : State) (c : CtxIdx) (v : Context) : (s.setCtx c v).ctxAt c = v := by
  simp [State.ctxAt, State.setCtx]

theorem ctxAt_setCtx_of_ne (s : State) (c c' : CtxIdx) (v : Context) (h : c' ≠ c) : (s.setCtx c v).ctxAt c' = s.ctxAt c' := by
  have : c.val ≠ c'.val := fun e => h (Fin.ext e).symm
  simp [State.ctxAt, State.setCtx, this]

theorem setCtx_comm (s : State) (c c' : CtxIdx) (v v' : Context) (h : c ≠ c') :
    (s.setCtx c v).setCtx c' v' = (s.setCtx c' v').setCtx c v := by
  have : c.val ≠ c'.val := fun e => h (Fin.ext e)
  simp only [State.setCtx, Vector.set_comm _ _ this]

/-! ## The CBC loop -/

@[simp] theorem cbcBlock_x (s : State) (d : Direction) (c : CtxIdx) (src dst : Nat) : (s.cbcBlock d c src dst).x = Quad.zero := by
  cases d <;> rfl
@[simp] theorem cbcBlock_y (s : State) (d : Direction) (c : CtxIdx) (src dst : Nat) : (s.cbcBlock d c src dst).y = Quad.zero := by
  cases d <;> rfl

/-- One block of the loop writes DATA_MEM and scratch only. -/
theorem cbcBlock_frame (s : State) (d : Direction) (c : CtxIdx) (src dst : Nat) :
    s.cbcBlock d c src dst =
      { s with
        mem := (s.cbcBlock d c src dst).mem
        x := Quad.zero
        y := Quad.zero
        chain := (s.cbcBlock d c src dst).chain
        save := (s.cbcBlock d c src dst).save } := by
  apply State.ext_fields <;> simp

/-- The loop writes DATA_MEM and scratch only (R220, R230). -/
theorem cbcLoop_frame (s : State) (d : Direction) (c : CtxIdx) (n src dst : Nat) :
    s.cbcLoop d c n src dst =
      { s with
        mem := (s.cbcLoop d c n src dst).mem
        x := (s.cbcLoop d c n src dst).x
        y := (s.cbcLoop d c n src dst).y
        chain := (s.cbcLoop d c n src dst).chain
        save := (s.cbcLoop d c n src dst).save } := by
  induction n generalizing s src dst with
  | zero => rfl
  | succ n ih =>
    have h := ih (s.cbcBlock d c src dst) (src + 16) (dst + 16)
    simp only [State.cbcLoop]
    refine h.trans ?_
    simp

/-! What one block writes (R220, R223, R225). -/

theorem cbcBlock_encrypt_chain (s : State) (c : CtxIdx) (src dst : Nat) :
    (s.cbcBlock .encrypt c src dst).chain =
      storeBlock (cipherBlock .encrypt s.tables (s.ctxAt c) (loadBlock (xorBytes (s.memRead src) s.chain))) := by
  simp only [State.cbcBlock, State.cbcEncryptBlock, State.block]
theorem cbcBlock_encrypt_save (s : State) (c : CtxIdx) (src dst : Nat) : (s.cbcBlock .encrypt c src dst).save = s.save := rfl
theorem cbcBlock_encrypt_mem (s : State) (c : CtxIdx) (src dst : Nat) :
    (s.cbcBlock .encrypt c src dst).mem = s.mem.storeList dst (s.cbcBlock .encrypt c src dst).chain.toList := by
  rw [cbcBlock_encrypt_chain]
  simp only [State.cbcBlock, State.cbcEncryptBlock, State.block, memWrite_mem, wipeWorking_mem]
theorem cbcBlock_decrypt_chain (s : State) (c : CtxIdx) (src dst : Nat) :
    (s.cbcBlock .decrypt c src dst).chain = s.memRead src := rfl
theorem cbcBlock_decrypt_save (s : State) (c : CtxIdx) (src dst : Nat) :
    (s.cbcBlock .decrypt c src dst).save = s.memRead src := rfl
theorem cbcBlock_decrypt_mem (s : State) (c : CtxIdx) (src dst : Nat) :
    (s.cbcBlock .decrypt c src dst).mem =
      s.mem.storeList dst
        (xorBytes (storeBlock (cipherBlock .decrypt s.tables (s.ctxAt c) (loadBlock (s.memRead src)))) s.chain).toList := by
  simp only [State.cbcBlock, State.cbcDecryptBlock, State.block, State.ctxAt, memWrite_mem, wipeWorking_mem]

@[simp] theorem memRead_setCtx (s : State) (c : CtxIdx) (v : Context) (off : Nat) :
    (s.setCtx c v).memRead off = s.memRead off := rfl

/-- A block of the loop does not read another context. -/
theorem cbcBlock_setCtx (s : State) (d : Direction) (c c' : CtxIdx) (v : Context) (h : c ≠ c') (src dst : Nat) :
    (s.setCtx c' v).cbcBlock d c src dst = (s.cbcBlock d c src dst).setCtx c' v := by
  have hc : (s.setCtx c' v).ctxAt c = s.ctxAt c := ctxAt_setCtx_of_ne s c' c v h
  cases d
  · apply State.ext_fields <;> simp [cbcBlock_encrypt_chain, cbcBlock_encrypt_save, cbcBlock_encrypt_mem, hc]
  · apply State.ext_fields <;> simp [cbcBlock_decrypt_chain, cbcBlock_decrypt_save, cbcBlock_decrypt_mem, hc]

/-- The loop does not read another context. -/
theorem cbcLoop_setCtx (s : State) (d : Direction) (c c' : CtxIdx) (v : Context) (h : c ≠ c') (n src dst : Nat) :
    (s.setCtx c' v).cbcLoop d c n src dst = (s.cbcLoop d c n src dst).setCtx c' v := by
  induction n generalizing s src dst with
  | zero => rfl
  | succ n ih => rw [State.cbcLoop, State.cbcLoop, cbcBlock_setCtx s d c c' v h, ih]

/-- After at least one block the working registers are wiped (R198). -/
theorem cbcLoop_wiped (s : State) (d : Direction) (c : CtxIdx) (n src dst : Nat) :
    (s.cbcLoop d c (n + 1) src dst).x = Quad.zero ∧ (s.cbcLoop d c (n + 1) src dst).y = Quad.zero := by
  induction n generalizing s src dst with
  | zero => cases d <;> exact ⟨rfl, rfl⟩
  | succ n ih => exact ih (s.cbcBlock d c src dst) (src + 16) (dst + 16)

/-- The loop over m + n blocks is the loop over m, then over n. -/
theorem cbcLoop_add (s : State) (d : Direction) (c : CtxIdx) (m n src dst : Nat) :
    s.cbcLoop d c (m + n) src dst = (s.cbcLoop d c m src dst).cbcLoop d c n (src + 16 * m) (dst + 16 * m) := by
  induction m generalizing s src dst with
  | zero => simp [State.cbcLoop]
  | succ m ih =>
    rw [show m + 1 + n = (m + n) + 1 by omega, State.cbcLoop, State.cbcLoop, ih,
      show src + 16 + 16 * m = src + 16 * (m + 1) by omega, show dst + 16 + 16 * m = dst + 16 * (m + 1) by omega]

/-! ## The cases of each command -/

theorem exec_nop (s : State) : exec .nop s = .next (s.complete .ok) := rfl

theorem exec_buildTables (s : State) : exec .buildTables s = .next (s.ensureTables.complete .ok) := rfl

theorem exec_wipe_cases (s : State) (c : CtxIdx) :
    (s.params.nCtx ≤ c.val ∧ exec (.wipe c) s = .next (s.complete .illegalCommand)) ∨
      (c.val < s.params.nCtx ∧ exec (.wipe c) s = .next ((s.wipeContext c).complete .ok)) := by
  rw [show exec (.wipe c) s = .next (s.withContext c fun s => (s.wipeContext c).complete .ok) from rfl]
  unfold State.withContext
  split
  · next h => exact .inr ⟨h, rfl⟩
  · next h => exact .inl ⟨by omega, rfl⟩

theorem keyParams_isSome_iff (w : Word) : (keyParams w).isSome = true ↔ w = 128 ∨ w = 192 ∨ w = 256 := by
  unfold keyParams
  split_ifs <;> simp_all

theorem directionOf_eq_none_iff (w : Word) : directionOf w = none ↔ w ≠ 1 ∧ w ≠ 0 := by
  unfold directionOf
  split_ifs <;> simp_all

/-- The checks of SETKEY_ENC and SETKEY_DEC (R278), for a meaning k after them. -/
theorem withKeyParams_cases (s : State) (c : CtxIdx) (k : KeyParams → State) :
    (keyParams s.keybits = none ∧ s.withKeyParams c k = s.complete .invalidKeyLength) ∨
      (∃ kp, keyParams s.keybits = some kp ∧ (s.ctxAt c).nr ≠ .empty ∧ s.withKeyParams c k = s.complete .undefinedUse) ∨
      (∃ kp, keyParams s.keybits = some kp ∧ (s.ctxAt c).nr = .empty ∧ s.withKeyParams c k = k kp) := by
  unfold State.withKeyParams
  split
  · next h => exact .inl ⟨h, rfl⟩
  · next kp h =>
    split
    · next hn => exact .inr (.inl ⟨kp, h, hn, rfl⟩)
    · next hn => exact .inr (.inr ⟨kp, h, not_not.mp hn, rfl⟩)

/-- The checks of CRYPT_ECB (R278), for a meaning k after them. -/
theorem withDirection_cases (s : State) (c : CtxIdx) (k : Direction → State) :
    (directionOf s.mode = none ∧ s.withDirection c k = s.complete .invalidMode) ∨
      (∃ d, directionOf s.mode = some d ∧ (s.ctxAt c).nr = .empty ∧ s.withDirection c k = s.complete .undefinedUse) ∨
      (∃ d, directionOf s.mode = some d ∧ (s.ctxAt c).nr ≠ .empty ∧ s.withDirection c k = k d) := by
  unfold State.withDirection
  split
  · next h => exact .inl ⟨h, rfl⟩
  · next d h =>
    split
    · next hn => exact .inr (.inl ⟨d, h, hn, rfl⟩)
    · next hn => exact .inr (.inr ⟨d, h, hn, rfl⟩)

/-- The checks of CRYPT_CBC (R221), for a meaning k after them. -/
theorem withCbcOperands_cases (s : State) (c : CtxIdx) (k : Direction → State) :
    (directionOf s.mode = none ∧ s.withCbcOperands c k = s.complete .invalidMode) ∨
      ∃ d, directionOf s.mode = some d ∧
        ((s.length.toNat % 16 ≠ 0 ∧ s.withCbcOperands c k = s.complete .invalidInputLength) ∨
          (s.length.toNat = 0 ∧ s.withCbcOperands c k = s.complete .ok) ∨
          (s.length.toNat % 16 = 0 ∧ 0 < s.length.toNat ∧ (s.ctxAt c).nr = .empty ∧
            s.withCbcOperands c k = s.complete .undefinedUse) ∨
          (s.length.toNat % 16 = 0 ∧ 0 < s.length.toNat ∧ (s.ctxAt c).nr ≠ .empty ∧
            (s.params.bufBytes < s.src.toNat + s.length.toNat ∨ s.params.bufBytes < s.dst.toNat + s.length.toNat) ∧
            s.withCbcOperands c k = s.complete .range) ∨
          (s.length.toNat % 16 = 0 ∧ 0 < s.length.toNat ∧ (s.ctxAt c).nr ≠ .empty ∧
            s.src.toNat + s.length.toNat ≤ s.params.bufBytes ∧ s.dst.toNat + s.length.toNat ≤ s.params.bufBytes ∧
            s.withCbcOperands c k = k d)) := by
  unfold State.withCbcOperands
  split
  · next h => exact .inl ⟨h, rfl⟩
  · next d h =>
    refine .inr ⟨d, h, ?_⟩
    split
    · next h1 => exact .inl ⟨h1, rfl⟩
    · next h1 =>
      split
      · next h2 => exact .inr (.inl ⟨h2, rfl⟩)
      · next h2 =>
        split
        · next h3 => exact .inr (.inr (.inl ⟨by omega, by omega, h3, rfl⟩))
        · next h3 =>
          split
          · next h4 => exact .inr (.inr (.inr (.inl ⟨by omega, by omega, h3, by omega, rfl⟩)))
          · next h4 => exact .inr (.inr (.inr (.inr ⟨by omega, by omega, h3, by omega, by omega, rfl⟩)))

/-- A context command on a context that does not exist (log 11), and on one that does. -/
theorem withContext_cases (s : State) (c : CtxIdx) (k : State → State) :
    (s.params.nCtx ≤ c.val ∧ s.withContext c k = s.complete .illegalCommand) ∨
      (c.val < s.params.nCtx ∧ s.withContext c k = k s) := by
  unfold State.withContext
  split
  · next h => exact .inr ⟨h, rfl⟩
  · next h => exact .inl ⟨by omega, rfl⟩

/-- What a command can do: it completes with a code and no other effect, or it has its own effect and completes OK. -/
theorem exec_cases (i : Instr) (s : State) :
    (∃ e, exec i s = .next (s.complete e)) ∨
      (i = .buildTables ∧ exec i s = .next (s.ensureTables.complete .ok)) ∨
      (∃ c kp, i = .setkeyEnc c ∧ c.val < s.params.nCtx ∧ keyParams s.keybits = some kp ∧ (s.ctxAt c).nr = .empty ∧
        exec i s = .next (s.keyEncrypt c kp)) ∨
      (∃ c kp, i = .setkeyDec c ∧ c.val < s.params.nCtx ∧ keyParams s.keybits = some kp ∧ (s.ctxAt c).nr = .empty ∧
        exec i s = .next (s.keyDecrypt c kp)) ∨
      (∃ c d, i = .cryptEcb c ∧ c.val < s.params.nCtx ∧ directionOf s.mode = some d ∧ (s.ctxAt c).nr ≠ .empty ∧
        exec i s = .next (s.cryptBlock c d)) ∨
      (∃ c d, i = .cryptCbc c ∧ c.val < s.params.nCtx ∧ directionOf s.mode = some d ∧ s.length.toNat % 16 = 0 ∧
        0 < s.length.toNat ∧ (s.ctxAt c).nr ≠ .empty ∧ s.src.toNat + s.length.toNat ≤ s.params.bufBytes ∧
        s.dst.toNat + s.length.toNat ≤ s.params.bufBytes ∧ exec i s = .next (s.cryptChain c d)) ∨
      (∃ c, i = .wipe c ∧ c.val < s.params.nCtx ∧ exec i s = .next ((s.wipeContext c).complete .ok)) := by
  cases i with
  | nop => exact .inl ⟨.ok, rfl⟩
  | buildTables => exact .inr (.inl ⟨rfl, rfl⟩)
  | setkeyEnc c =>
    rw [show exec (.setkeyEnc c) s = .next (s.withContext c fun s => s.withKeyParams c (s.keyEncrypt c)) from rfl]
    rcases withContext_cases s c fun s => s.withKeyParams c (s.keyEncrypt c) with ⟨-, h⟩ | ⟨hc, h⟩
    · exact .inl ⟨_, by rw [h]⟩
    · rcases withKeyParams_cases s c (s.keyEncrypt c) with ⟨-, e⟩ | ⟨kp, -, -, e⟩ | ⟨kp, hk, hn, e⟩
      · exact .inl ⟨_, by rw [h, e]⟩
      · exact .inl ⟨_, by rw [h, e]⟩
      · exact .inr (.inr (.inl ⟨c, kp, rfl, hc, hk, hn, by rw [h, e]⟩))
  | setkeyDec c =>
    rw [show exec (.setkeyDec c) s = .next (s.withContext c fun s => s.withKeyParams c (s.keyDecrypt c)) from rfl]
    rcases withContext_cases s c fun s => s.withKeyParams c (s.keyDecrypt c) with ⟨-, h⟩ | ⟨hc, h⟩
    · exact .inl ⟨_, by rw [h]⟩
    · rcases withKeyParams_cases s c (s.keyDecrypt c) with ⟨-, e⟩ | ⟨kp, -, -, e⟩ | ⟨kp, hk, hn, e⟩
      · exact .inl ⟨_, by rw [h, e]⟩
      · exact .inl ⟨_, by rw [h, e]⟩
      · exact .inr (.inr (.inr (.inl ⟨c, kp, rfl, hc, hk, hn, by rw [h, e]⟩)))
  | cryptEcb c =>
    rw [show exec (.cryptEcb c) s = .next (s.withContext c fun s => s.withDirection c (s.cryptBlock c)) from rfl]
    rcases withContext_cases s c fun s => s.withDirection c (s.cryptBlock c) with ⟨-, h⟩ | ⟨hc, h⟩
    · exact .inl ⟨_, by rw [h]⟩
    · rcases withDirection_cases s c (s.cryptBlock c) with ⟨-, e⟩ | ⟨d, -, -, e⟩ | ⟨d, hd, hn, e⟩
      · exact .inl ⟨_, by rw [h, e]⟩
      · exact .inl ⟨_, by rw [h, e]⟩
      · exact .inr (.inr (.inr (.inr (.inl ⟨c, d, rfl, hc, hd, hn, by rw [h, e]⟩))))
  | cryptCbc c =>
    rw [show exec (.cryptCbc c) s = .next (s.withContext c fun s => s.withCbcOperands c (s.cryptChain c)) from rfl]
    rcases withContext_cases s c fun s => s.withCbcOperands c (s.cryptChain c) with ⟨-, h⟩ | ⟨hc, h⟩
    · exact .inl ⟨_, by rw [h]⟩
    · rcases withCbcOperands_cases s c (s.cryptChain c) with
        ⟨-, e⟩ | ⟨d, hd, ⟨-, e⟩ | ⟨-, e⟩ | ⟨-, -, -, e⟩ | ⟨-, -, -, -, e⟩ | ⟨h16, hp, hn, hs, ht, e⟩⟩
      · exact .inl ⟨_, by rw [h, e]⟩
      · exact .inl ⟨_, by rw [h, e]⟩
      · exact .inl ⟨_, by rw [h, e]⟩
      · exact .inl ⟨_, by rw [h, e]⟩
      · exact .inl ⟨_, by rw [h, e]⟩
      · exact .inr (.inr (.inr (.inr (.inr (.inl ⟨c, d, rfl, hc, hd, h16, hp, hn, hs, ht, by rw [h, e]⟩)))))
  | wipe c =>
    rcases exec_wipe_cases s c with ⟨-, h⟩ | ⟨hc, h⟩
    · exact .inl ⟨_, h⟩
    · exact .inr (.inr (.inr (.inr (.inr (.inr ⟨c, rfl, hc, h⟩)))))

/-- SETKEY_ENC that passes its checks (R160). -/
theorem exec_setkeyEnc {s : State} {c : CtxIdx} {kp : KeyParams} (hc : c.val < s.params.nCtx) (hk : keyParams s.keybits = some kp)
    (hn : (s.ctxAt c).nr = .empty) : exec (.setkeyEnc c) s = .next (s.keyEncrypt c kp) := by
  simp [exec, execSetkeyEnc, State.withContext, State.withKeyParams, hc, hk, hn]

/-- SETKEY_DEC that passes its checks (R165). -/
theorem exec_setkeyDec {s : State} {c : CtxIdx} {kp : KeyParams} (hc : c.val < s.params.nCtx) (hk : keyParams s.keybits = some kp)
    (hn : (s.ctxAt c).nr = .empty) : exec (.setkeyDec c) s = .next (s.keyDecrypt c kp) := by
  simp [exec, execSetkeyDec, State.withContext, State.withKeyParams, hc, hk, hn]

/-- CRYPT_ECB that passes its checks (R190). -/
theorem exec_cryptEcb {s : State} {c : CtxIdx} {d : Direction} (hc : c.val < s.params.nCtx) (hd : directionOf s.mode = some d)
    (hn : (s.ctxAt c).nr ≠ .empty) : exec (.cryptEcb c) s = .next (s.cryptBlock c d) := by
  simp [exec, execCryptEcb, State.withContext, State.withDirection, hc, hd, hn]

/-- CRYPT_CBC that passes its checks with a block to process (R220, R221). -/
theorem exec_cryptCbc {s : State} {c : CtxIdx} {d : Direction} (hc : c.val < s.params.nCtx) (hd : directionOf s.mode = some d)
    (h16 : s.length.toNat % 16 = 0) (hp : 0 < s.length.toNat) (hn : (s.ctxAt c).nr ≠ .empty)
    (hs : s.src.toNat + s.length.toNat ≤ s.params.bufBytes) (ht : s.dst.toNat + s.length.toNat ≤ s.params.bufBytes) :
    exec (.cryptCbc c) s = .next (s.cryptChain c d) := by
  have hr : ¬ (s.src.toNat + s.length.toNat > s.params.bufBytes ∨ s.dst.toNat + s.length.toNat > s.params.bufBytes) := by omega
  simp [exec, execCryptCbc, State.withContext, State.withCbcOperands, hc, hd, h16, Nat.pos_iff_ne_zero.mp hp, hn, hr]

/-- The frame of SETKEY_ENC's own effect (R160). -/
theorem keyEncrypt_eq (s : State) (c : CtxIdx) (kp : KeyParams) :
    s.keyEncrypt c kp =
      (s.ensureTables.setCtx c { nr := kp.nr, rk := expandEnc s.ensureTables.tables s.key kp }).complete .ok := by
  rw [State.keyEncrypt]
  simp

/-- The frame of SETKEY_DEC's own effect (R165, R167). -/
theorem keyDecrypt_eq (s : State) (c : CtxIdx) (kp : KeyParams) :
    s.keyDecrypt c kp =
      ({ s.ensureTables.setCtx c
          { nr := kp.nr
            rk := expandDec s.ensureTables.tables (expandEnc s.ensureTables.tables s.key kp) kp.nr.toNat } with
        tmpk := zeroSchedule }).complete .ok := by
  rw [State.keyDecrypt]
  simp [State.setCtx]

/-- CRYPT_ECB's own effect (R190, R198). -/
theorem cryptBlock_eq (s : State) (c : CtxIdx) (d : Direction) :
    s.cryptBlock c d =
      ({ s with dout := cipherBlock d s.tables (s.ctxAt c) s.din, x := Quad.zero, y := Quad.zero }).complete .ok := rfl

/-- CRYPT_CBC's own effect (R220, R226, R230): DATA_MEM and the IV, and wiped scratch. -/
theorem cryptChain_eq (s : State) (c : CtxIdx) (d : Direction) (h : 0 < s.length.toNat) (h16 : s.length.toNat % 16 = 0)
    (t : State) (ht : t = ({ s with chain := storeBlock s.iv } : State).cbcLoop d c (s.length.toNat / 16) s.src.toNat s.dst.toNat) :
    s.cryptChain c d =
      ({ s with
        mem := t.mem
        iv := loadBlock t.chain
        x := Quad.zero
        y := Quad.zero
        chain := zeroBytes
        save := zeroBytes } : State).complete .ok := by
  obtain ⟨n, hn⟩ : ∃ n, s.length.toNat / 16 = n + 1 := ⟨s.length.toNat / 16 - 1, by omega⟩
  have hf := cbcLoop_frame { s with chain := storeBlock s.iv } d c (s.length.toNat / 16) s.src.toNat s.dst.toNat
  have hw := cbcLoop_wiped { s with chain := storeBlock s.iv } d c n s.src.toNat s.dst.toNat
  rw [← hn, ← ht] at hw
  rw [← ht] at hf
  simp only [State.cryptChain]
  rw [← ht]
  conv_lhs => rw [hf]
  simp only [hw.1, hw.2]

/-! ## Every command completes -/

/-- Every command answers a next state, IDLE with DONE = 1; UNDEF records UNDEFINED_USE, HAZ stays (R252, R31, R30). -/
theorem exec_completes (i : Instr) (s : State) :
    ∃ t : State, exec i s = .next t ∧ t.seq = .idle ∧ t.done = true ∧ t.haz = s.haz ∧
      t.undef = (s.undef || decide (t.err = .undefinedUse)) ∧ t.params = s.params := by
  rcases exec_cases i s with ⟨e, h⟩ | ⟨-, h⟩ | ⟨c, kp, -, -, -, -, h⟩ | ⟨c, kp, -, -, -, -, h⟩ | ⟨c, d, -, -, -, -, h⟩ |
    ⟨c, d, -, -, -, h16, hp, -, -, -, h⟩ | ⟨c, -, -, h⟩
  · exact ⟨_, h, rfl, rfl, rfl, rfl, rfl⟩
  · exact ⟨_, h, by simp⟩
  · exact ⟨_, h, by simp [keyEncrypt_eq]⟩
  · exact ⟨_, h, by simp [keyDecrypt_eq]⟩
  · exact ⟨_, h, by simp [cryptBlock_eq]⟩
  · exact ⟨_, h, by rw [cryptChain_eq s c d hp h16 _ rfl]; simp⟩
  · exact ⟨_, h, by simp⟩

end Sys2Proof.Machine
end

