-- ==== Sys2Proof/Laws/Steps.lean ====
section
/-! SUPPORT. What a step can do, said once: the cases of a step by the next event and the level of `rst`, the cases of each event, and
that every step answers a next state (R282). -/

namespace Sys2Proof.Machine

theorem step_of_nil {s : State} (h : s.inbox = []) (hp : s.edgePending = false) : step s = s.finish := by
  simp [step, State.transition, h, hp]

/-- With nothing more to come, a pending edge of the S-box loop is passed before the end. -/
theorem step_of_nil_pending {s : State} (h : s.inbox = []) (hp : s.edgePending = true) : step s = .next s.advance := by
  simp [step, State.transition, h, hp]

theorem step_of_cons {s : State} {e : Event} {rest : List Event} (h : s.inbox = e :: rest) (hr : s.rst = false)
    (hf : e ≠ .finish ∨ s.edgePending = false) : step s = ({ s with inbox := rest } : State).onEvent e := by
  have hn : ¬ (e = .finish ∧ s.edgePending = true) := by
    rintro ⟨he, hp⟩
    exact hf.elim (· he) fun h => by rw [h] at hp; cases hp
  simp [step, State.transition, h, hr, hn, State.popEvent]

/-- So it is when the next event is the end, which waits. -/
theorem step_of_finish_pending {s : State} {rest : List Event} (h : s.inbox = .finish :: rest) (hr : s.rst = false)
    (hp : s.edgePending = true) : step s = .next s.advance := by simp [step, State.transition, h, hr, hp]

theorem step_of_cons_in_reset {s : State} {e : Event} {rest : List Event} (h : s.inbox = e :: rest) (hr : s.rst = true) :
    step s = ({ s with inbox := rest } : State).onEventInReset e := by simp [step, State.transition, h, hr, State.popEvent]

/-- A step is the end of the running command where nothing else happens, or the edge of the S-box loop that comes before that end, or
what the next event does. -/
theorem step_cases (s : State) :
    (s.inbox = [] ∧ s.edgePending = false ∧ step s = s.finish) ∨
      ((s.inbox = [] ∨ ∃ rest, s.inbox = .finish :: rest ∧ s.rst = false) ∧ s.edgePending = true ∧ step s = .next s.advance) ∨
      (∃ e rest, s.inbox = e :: rest ∧ s.rst = false ∧ (e ≠ .finish ∨ s.edgePending = false) ∧
        step s = ({ s with inbox := rest } : State).onEvent e) ∨
      (∃ e rest, s.inbox = e :: rest ∧ s.rst = true ∧ step s = ({ s with inbox := rest } : State).onEventInReset e) := by
  rcases h : s.inbox with - | ⟨e, rest⟩
  · rcases Bool.eq_false_or_eq_true s.edgePending with hp | hp
    · exact .inr (.inl ⟨.inl rfl, hp, step_of_nil_pending h hp⟩)
    · exact .inl ⟨rfl, hp, step_of_nil h hp⟩
  · rcases Bool.eq_false_or_eq_true s.rst with hr | hr
    · exact .inr (.inr (.inr ⟨e, rest, rfl, hr, step_of_cons_in_reset h hr⟩))
    · by_cases hf : e ≠ .finish ∨ s.edgePending = false
      · exact .inr (.inr (.inl ⟨e, rest, rfl, hr, hf, step_of_cons h hr hf⟩))
      · simp only [not_or, not_not, Bool.not_eq_false] at hf
        obtain ⟨rfl, hp⟩ := hf
        exact .inr (.inl ⟨.inr ⟨rest, rfl, hr⟩, hp, step_of_finish_pending h hr hp⟩)

/-- Where an edge is pending, `advance` passes it. -/
theorem advance_of_pending {s : State} (hp : s.edgePending = true) :
    (∃ i, s.seq = .busy (.legal i) .start ∧ s.buildsTables i = true ∧ s.advance = s.enterSboxLoop i) ∨
      (∃ i, s.seq = .busy (.legal i) .sboxLoop ∧ s.advance = s.leaveSboxLoop i) := by
  unfold State.edgePending at hp
  split at hp
  · cases hp
  · cases hp
  · next i h => exact .inl ⟨i, h, hp, by simp [State.advance, h, hp]⟩
  · next i h => exact .inr ⟨i, h, by simp [State.advance, h]⟩
  · cases hp

/-- The end of an execution (R252): nothing while IDLE, ILLEGAL_COMMAND for an illegal word (R274), else the command's meaning. -/
theorem finish_cases (s : State) :
    (s.seq = .idle ∧ s.finish = .next s) ∨
      (∃ phase, s.seq = .busy .illegal phase ∧ s.finish = .next (s.complete .illegalCommand)) ∨
      (∃ i phase, s.seq = .busy (.legal i) phase ∧ s.finish = exec i s) := by
  unfold State.finish
  split
  · next h => exact .inl ⟨h, rfl⟩
  · next ph h => exact .inr (.inl ⟨ph, h, rfl⟩)
  · next i ph h => exact .inr (.inr ⟨i, ph, h, rfl⟩)

/-- What `advance` does: enter the S-box loop, leave it, or nothing. -/
theorem advance_cases (s : State) :
    s.advance = s ∨
      (∃ i, s.seq = .busy (.legal i) .start ∧ s.buildsTables i = true ∧ s.advance = s.enterSboxLoop i) ∨
      (∃ i, s.seq = .busy (.legal i) .sboxLoop ∧ s.advance = s.leaveSboxLoop i) := by
  unfold State.advance
  split
  · exact .inl rfl
  · exact .inl rfl
  · next i h =>
    split
    · next hb => exact .inr (.inl ⟨i, h, hb, rfl⟩)
    · exact .inl rfl
  · next i h => exact .inr (.inr ⟨i, h, rfl⟩)
  · exact .inl rfl

theorem advance_of_start {s : State} {i : Instr} (h : s.seq = .busy (.legal i) .start) :
    s.advance = if s.buildsTables i then s.enterSboxLoop i else s := by simp only [State.advance, h]

theorem advance_of_sboxLoop {s : State} {i : Instr} (h : s.seq = .busy (.legal i) .sboxLoop) :
    s.advance = s.leaveSboxLoop i := by simp only [State.advance, h]

/-- The edges of the S-box loop change nothing a build leaves: it latches the same values once (R125 step 1). -/
theorem ensureTables_enterSboxLoop {s : State} {i : Instr} (h : s.seq = .busy (.legal i) .start) (hd : s.tblDone = false) :
    (s.enterSboxLoop i).ensureTables = { s.ensureTables with seq := .busy (.legal i) .sboxLoop } := by
  rw [ensureTables_of_not_done (show (s.enterSboxLoop i).tblDone = false from (latchBuild_tblDone s).trans hd),
    ensureTables_of_not_done hd]
  simp [State.enterSboxLoop, State.latchBuild, h, State.buildFromLatch]

theorem ensureTables_leaveSboxLoop {s : State} {i : Instr} (h : s.seq = .busy (.legal i) .sboxLoop) (hd : s.tblDone = false) :
    (s.leaveSboxLoop i).ensureTables = { s.ensureTables with seq := .busy (.legal i) .tail } := by
  rw [ensureTables_of_not_done (show (s.leaveSboxLoop i).tblDone = false from hd), ensureTables_of_not_done hd]
  simp [State.leaveSboxLoop, State.latchBuild, h, State.buildFromLatch]

/-- The meaning of a command that builds reads of a state only what decides its checks, the KEY registers, and the built state. -/
theorem exec_congr_of_builds {s t : State} {i : Instr} (hb : s.buildsTables i = true) (q : Seq) (hp : t.params = s.params)
    (hk : t.keybits = s.keybits) (hkey : t.key = s.key) (hc : t.ctx = s.ctx)
    (he : t.ensureTables = { s.ensureTables with seq := q }) : exec i t = exec i s := by
  have hx : ∀ c, t.ctxAt c = s.ctxAt c := fun c => by simp only [State.ctxAt, hc]
  have hs : ∀ {c}, s.setkeyPasses c = true →
      c.val < s.params.nCtx ∧ (∃ kp, keyParams s.keybits = some kp) ∧ (s.ctxAt c).nr = .empty := fun {c} h => by
    simpa [State.setkeyPasses, and_assoc, Option.isSome_iff_exists] using h
  cases i with
  | buildTables =>
    rw [exec_buildTables, exec_buildTables, he]
    rfl
  | setkeyEnc c =>
    obtain ⟨hn, ⟨kp, hkp⟩, hr⟩ := hs (Bool.and_eq_true_iff.mp hb).2
    rw [exec_setkeyEnc hn hkp hr, exec_setkeyEnc (hp ▸ hn) (hk ▸ hkp) ((hx c).symm ▸ hr), keyEncrypt_eq, keyEncrypt_eq, he, hkey]
    rfl
  | setkeyDec c =>
    obtain ⟨hn, ⟨kp, hkp⟩, hr⟩ := hs (Bool.and_eq_true_iff.mp hb).2
    rw [exec_setkeyDec hn hkp hr, exec_setkeyDec (hp ▸ hn) (hk ▸ hkp) ((hx c).symm ▸ hr), keyDecrypt_eq, keyDecrypt_eq, he, hkey]
    rfl
  | nop => simp [State.buildsTables] at hb
  | cryptEcb c => simp [State.buildsTables] at hb
  | cryptCbc c => simp [State.buildsTables] at hb
  | wipe c => simp [State.buildsTables] at hb

theorem tblDone_of_builds {s : State} {i : Instr} (hb : s.buildsTables i = true) : s.tblDone = false := by
  simpa using (Bool.and_eq_true_iff.mp hb).1

/-- Passing an edge of the S-box loop leaves a building command with the same meaning (R125, R131). -/
theorem exec_enterSboxLoop {s : State} {i : Instr} (h : s.seq = .busy (.legal i) .start) (hb : s.buildsTables i = true) :
    exec i (s.enterSboxLoop i) = exec i s :=
  exec_congr_of_builds hb _ (latchBuild_params s) (latchBuild_keybits s) (latchBuild_key s) (latchBuild_ctx s)
    (ensureTables_enterSboxLoop h (tblDone_of_builds hb))

theorem exec_leaveSboxLoop {s : State} {i : Instr} (h : s.seq = .busy (.legal i) .sboxLoop) (hb : s.buildsTables i = true) :
    exec i (s.leaveSboxLoop i) = exec i s :=
  exec_congr_of_builds hb _ rfl rfl rfl rfl (ensureTables_leaveSboxLoop h (tblDone_of_builds hb))

/-- What an access does (R62): an admitted read, an admitted write, or a refusal. -/
theorem access_cases (s : State) (a : BusAccess) :
    (a.admitted = true ∧ a.kind = .read ∧ s.access a = s.admittedRead (s.locate a)) ∨
      (∃ v, a.admitted = true ∧ a.kind = .write v ∧ s.access a = s.admittedWrite (s.locate a) v) ∨
      (a.admitted = false ∧ s.access a = { s with reply := some a.refusedReply }) := by
  unfold State.access
  cases ha : a.admitted
  · exact .inr (.inr ⟨rfl, rfl⟩)
  · cases hk : a.kind with
    | read => exact .inl ⟨rfl, rfl, rfl⟩
    | write v => exact .inr (.inl ⟨v, rfl, rfl, rfl⟩)

/-- A read changes the port and, where a free value is drawn, the counter (R69). -/
theorem admittedRead_eq (s : State) (r : Reg) :
    s.admittedRead r =
      { s with
        freeIdx := if s.openBits r = 0 then s.freeIdx else s.freeIdx + 1
        reply := some (.read .okay (s.readData r)) } := by
  unfold State.admittedRead State.drawFree
  dsimp only
  split <;> rfl

/-- A read whose location has no unspecified bit gives the location's value. -/
theorem readData_of_openBits_eq_zero (s : State) (r : Reg) (h : s.openBits r = 0) : s.readData r = s.readReg r := by
  rw [State.readData, if_pos h]

theorem openBits_of_idle (s : State) (r : Reg) (h : s.seq = .idle) : s.openBits r = 0 := by simp [State.openBits, h]

/-- Every end of an execution answers a next state. -/
theorem finish_next (s : State) : ∃ t : State, s.finish = .next t := by
  rcases finish_cases s with ⟨-, h⟩ | ⟨ph, -, h⟩ | ⟨i, ph, -, h⟩
  · exact ⟨_, h⟩
  · exact ⟨_, h⟩
  · obtain ⟨t, ht, -⟩ := exec_completes i s
    exact ⟨t, h.trans ht⟩

/-- Every event answers a next state. -/
theorem onEvent_next (s : State) (e : Event) : ∃ t : State, s.onEvent e = .next t := by
  cases e with
  | access a => exact ⟨_, rfl⟩
  | advance => exact ⟨_, rfl⟩
  | finish => exact finish_next s
  | reset level => exact ⟨_, rfl⟩

end Sys2Proof.Machine
end

