-- ==== Sys2Proof/Laws/Words.lean ====
section
/-! SUPPORT. Laws of bytes, words and blocks: lanes of a word, four words, block and word conversion (R11, R65). -/

namespace Sys2Proof

@[simp] theorem Quad.get_zero (q : Quad) : q.get 0 = q.w0 := rfl
@[simp] theorem Quad.get_one (q : Quad) : q.get 1 = q.w1 := rfl
@[simp] theorem Quad.get_two (q : Quad) : q.get 2 = q.w2 := rfl
@[simp] theorem Quad.get_three (q : Quad) : q.get 3 = q.w3 := rfl

@[simp] theorem Quad.get_ofFn (f : Fin 4 → Word) (j : Fin 4) : (Quad.ofFn f).get j = f j := by
  fin_cases j <;> rfl

@[simp] theorem Quad.ofFn_get (q : Quad) : Quad.ofFn q.get = q := rfl

theorem Quad.ext_get {a b : Quad} (h : ∀ j, a.get j = b.get j) : a = b := by
  rw [← Quad.ofFn_get a, ← Quad.ofFn_get b, funext h]

@[simp] theorem Quad.get_xor (a b : Quad) (j : Fin 4) : (a.xor b).get j = a.get j ^^^ b.get j := by
  simp [Quad.xor]

@[simp] theorem Quad.get_zeroQuad (j : Fin 4) : Quad.zero.get j = 0 := by fin_cases j <;> rfl

theorem Quad.get_set_self (q : Quad) (j : Fin 4) (v : Word) : (q.set j v).get j = v := by fin_cases j <;> rfl

theorem Quad.get_set_of_ne (q : Quad) (j k : Fin 4) (v : Word) (h : k ≠ j) : (q.set j v).get k = q.get k := by
  revert h; fin_cases j <;> fin_cases k <;> intro h <;> first | rfl | exact absurd rfl h

theorem Quad.xor_xor_cancel (a b : Quad) : (a.xor b).xor b = a :=
  Quad.ext_get fun j => by simp

end Sys2Proof

namespace Sys2Proof.Machine

theorem getLsbD_wordOf (b0 b1 b2 b3 : Byte) (i : Nat) :
    (wordOf b0 b1 b2 b3).getLsbD i =
      if i < 8 then b0.getLsbD i else if i < 16 then b1.getLsbD (i - 8) else if i < 24 then b2.getLsbD (i - 16)
      else b3.getLsbD (i - 24) := by
  simp only [wordOf, BitVec.getLsbD_or, BitVec.getLsbD_setWidth, BitVec.getLsbD_shiftLeft]
  have hb : ∀ (b : Byte) (k : Nat), 8 ≤ k → b.getLsbD k = false := fun b k h => BitVec.getLsbD_of_ge b k h
  split_ifs with h1 h2 h3
  · simp [show i < 32 by omega, h1, show i < 16 by omega, show i < 24 by omega]
  · simp [hb b0 i (by omega), show i < 32 by omega, h1, h2, show i < 24 by omega, show i - 8 < 32 by omega]
  · simp [hb b0 i (by omega), hb b1 (i - 8) (by omega), show i < 32 by omega, h1, h2, h3, show i - 16 < 32 by omega]
  · by_cases h : i < 32
    · simp [hb b0 i (by omega), hb b1 (i - 8) (by omega), hb b2 (i - 16) (by omega), h, h3, show i - 24 < 32 by omega]
    · simp [h, hb b0 i (by omega), hb b3 (i - 24) (by omega)]

theorem getLsbD_byteLane (w : Word) (k : Fin 4) (i : Nat) :
    (byteLane w k).getLsbD i = (decide (i < 8) && w.getLsbD (8 * k.val + i)) := by
  simp [byteLane, BitVec.getLsbD_extractLsb']

/-- Lane k of a word built from four bytes is the k-th byte. -/
theorem byteLane_wordOf (b : Fin 4 → Byte) (k : Fin 4) : byteLane (wordOf (b 0) (b 1) (b 2) (b 3)) k = b k := by
  apply BitVec.eq_of_getLsbD_eq
  intro i hi
  rw [getLsbD_byteLane, getLsbD_wordOf]
  fin_cases k
  · simp [hi]
  · simp [hi, show ¬ 8 + i < 8 by omega, show 8 + i < 16 by omega]
  · simp [hi, show ¬ 16 + i < 8 by omega, show ¬ 16 + i < 16 by omega, show 16 + i < 24 by omega]
  · simp [hi, show ¬ 24 + i < 8 by omega, show ¬ 24 + i < 16 by omega, show ¬ 24 + i < 24 by omega]

@[simp] theorem byteLane_wordOf_zero (b0 b1 b2 b3 : Byte) : byteLane (wordOf b0 b1 b2 b3) 0 = b0 :=
  byteLane_wordOf (fun k => [b0, b1, b2, b3][k]) 0
@[simp] theorem byteLane_wordOf_one (b0 b1 b2 b3 : Byte) : byteLane (wordOf b0 b1 b2 b3) 1 = b1 :=
  byteLane_wordOf (fun k => [b0, b1, b2, b3][k]) 1
@[simp] theorem byteLane_wordOf_two (b0 b1 b2 b3 : Byte) : byteLane (wordOf b0 b1 b2 b3) 2 = b2 :=
  byteLane_wordOf (fun k => [b0, b1, b2, b3][k]) 2
@[simp] theorem byteLane_wordOf_three (b0 b1 b2 b3 : Byte) : byteLane (wordOf b0 b1 b2 b3) 3 = b3 :=
  byteLane_wordOf (fun k => [b0, b1, b2, b3][k]) 3

/-- Two words with the same four lanes are equal. -/
theorem word_ext_lanes {v w : Word} (h : ∀ k, byteLane v k = byteLane w k) : v = w := by
  apply BitVec.eq_of_getLsbD_eq
  intro i hi
  have := congrArg (fun b : Byte => b.getLsbD (i % 8)) (h ⟨i / 8, by omega⟩)
  simp only [getLsbD_byteLane, show i % 8 < 8 by omega, show 8 * (i / 8) + i % 8 = i by omega, decide_true,
    Bool.true_and] at this
  exact this

/-- A word is built from its four lanes. -/
@[simp] theorem wordOf_byteLane (w : Word) : wordOf (byteLane w 0) (byteLane w 1) (byteLane w 2) (byteLane w 3) = w :=
  word_ext_lanes fun k => byteLane_wordOf (byteLane w) k

@[simp] theorem byteLane_xor (v w : Word) (k : Fin 4) : byteLane (v ^^^ w) k = byteLane v k ^^^ byteLane w k := by
  apply BitVec.eq_of_getLsbD_eq
  intro i hi
  simp only [getLsbD_byteLane, BitVec.getLsbD_xor, hi, decide_true, Bool.true_and]

@[simp] theorem byteLane_zero (k : Fin 4) : byteLane 0 k = 0 := by fin_cases k <;> rfl

theorem wordOf_xor (a0 a1 a2 a3 b0 b1 b2 b3 : Byte) :
    wordOf a0 a1 a2 a3 ^^^ wordOf b0 b1 b2 b3 = wordOf (a0 ^^^ b0) (a1 ^^^ b1) (a2 ^^^ b2) (a3 ^^^ b3) :=
  word_ext_lanes fun k => by fin_cases k <;> simp

@[simp] theorem storeBlock_get (q : Quad) (i : Fin 16) :
    (storeBlock q)[i.val] = byteLane (q.get ⟨i.val / 4, by omega⟩) ⟨i.val % 4, by omega⟩ := by
  simp [storeBlock]

@[simp] theorem xorBytes_get (a b : Bytes16) (i : Fin 16) : (xorBytes a b)[i.val] = a[i.val] ^^^ b[i.val] := by
  simp [xorBytes]

/-- `store_block` is the inverse of `load_block` (R65). -/
@[simp] theorem loadBlock_storeBlock (q : Quad) : loadBlock (storeBlock q) = q :=
  Quad.ext_get fun j => by
    fin_cases j <;> simp [loadBlock, storeBlock] <;> exact wordOf_byteLane _

@[simp] theorem storeBlock_loadBlock (b : Bytes16) : storeBlock (loadBlock b) = b := by
  apply Vector.ext
  intro i hi
  have h := storeBlock_get (loadBlock b) ⟨i, hi⟩
  rw [loadBlock, Quad.get_ofFn] at h
  refine h.trans ((byteLane_wordOf (fun k : Fin 4 => b[4 * (i / 4) + k.val]) ⟨i % 4, by omega⟩).trans ?_)
  simp only [show 4 * (i / 4) + i % 4 = i by omega]

/-- A word with the byte lanes of a rotation by 8 (R11). -/
theorem byteLane_rotlWord8 (w : Word) (k : Fin 4) : byteLane (rotlWord8 w) k = byteLane w (k - 1) := by
  apply BitVec.eq_of_getLsbD_eq
  intro i hi
  simp only [getLsbD_byteLane, rotlWord8, BitVec.getLsbD_or, BitVec.getLsbD_shiftLeft, BitVec.getLsbD_ushiftRight]
  have hw : ∀ k : Nat, 32 ≤ k → w.getLsbD k = false := fun k h => BitVec.getLsbD_of_ge w k h
  fin_cases k
  · simp [hi]
  · simp [hi, show ¬ 8 + i < 8 by omega, hw (24 + (8 + i)) (by omega), show 8 + i < 32 by omega]
  · simp [hi, show ¬ 16 + i < 8 by omega, hw (24 + (16 + i)) (by omega), show 16 + i < 32 by omega, show 16 + i - 8 = 8 + i by omega]
  · simp [hi, show ¬ 24 + i < 8 by omega, hw (24 + (24 + i)) (by omega), show 24 + i < 32 by omega, show 24 + i - 8 = 16 + i by omega]

end Sys2Proof.Machine
end

