-- ==== Sys2Proof/Laws/Bus.lean ====
section
/-! SUPPORT. Laws of the bus port: the bits of STATUS and CTXINFO (R26, R38), the register map (R22), what an admitted access does in one
step, and which bits of a read are unspecified while a command runs (R331). -/

namespace Sys2Proof.Machine

/-! ## STATUS and CTXINFO -/

theorem getLsbD_bitAt (b : Bool) (k i : Nat) (hk : k < 32) : (bitAt b k).getLsbD i = (b && decide (i = k)) := by
  cases b
  · simp [bitAt]
  · by_cases h : i = k
    · subst h
      simp [bitAt, hk]
    · simp only [bitAt, if_true, BitVec.getLsbD_shiftLeft, h, decide_false, Bool.and_false]
      by_cases h2 : i < k
      · simp [h2]
      · simp [show i - k ≠ 0 by omega]

theorem getLsbD_errField (e : StatusCode) (i : Nat) :
    ((e.toBits.setWidth 32 : Word) <<< 4).getLsbD i = (decide (4 ≤ i) && e.toBits.getLsbD (i - 4)) := by
  by_cases h : i < 4
  · simp only [BitVec.getLsbD_shiftLeft]
    simp [h, show ¬ 4 ≤ i by omega]
  · simp only [BitVec.getLsbD_shiftLeft, BitVec.getLsbD_setWidth]
    by_cases h2 : i < 32
    · simp [h2, h, show 4 ≤ i by omega]
      intro
      omega
    · rw [BitVec.getLsbD_of_ge e.toBits (i - 4) (by omega)]
      simp [h2]

/-- The bits of STATUS (R26). -/
theorem getLsbD_statusWord (s : State) (i : Nat) :
    s.statusWord.getLsbD i =
      ((s.isBusy && decide (i = 0)) || (s.done && decide (i = 1)) || (decide (4 ≤ i) && s.err.toBits.getLsbD (i - 4)) ||
        (s.haz && decide (i = 8)) || (s.undef && decide (i = 9)) || (s.tblDone && decide (i = 12)) ||
        (s.trig && decide (i = 13))) := by
  simp only [State.statusWord, BitVec.getLsbD_or, getLsbD_errField, getLsbD_bitAt _ _ _ (show 0 < 32 by decide),
    getLsbD_bitAt _ _ _ (show 1 < 32 by decide), getLsbD_bitAt _ _ _ (show 8 < 32 by decide),
    getLsbD_bitAt _ _ _ (show 9 < 32 by decide), getLsbD_bitAt _ _ _ (show 12 < 32 by decide),
    getLsbD_bitAt _ _ _ (show 13 < 32 by decide)]

/-- Byte c of CTXINFO (R38). -/
theorem byteLane_ctxInfoWord (s : State) (c : CtxIdx) : byteLane s.ctxInfoWord c = s.ctxInfoByte c :=
  byteLane_wordOf s.ctxInfoByte c

/-! ## The register map (R22, R61, R64) -/

theorem ofOffset_register (bufBytes : Nat) (o : BitVec 13) (h : o.toNat < 0x1000) :
    Reg.ofOffset bufBytes o = Reg.ofRegisterIndex (o.toNat / 4) := by simp [Reg.ofOffset, h]

theorem ofOffset_dataMem (bufBytes w : Nat) (o : BitVec 13) (ho : o.toNat = 0x1000 + 4 * w) (h : 4 * w + 4 ≤ bufBytes) :
    Reg.ofOffset bufBytes o = .dataMem w := by
  unfold Reg.ofOffset
  rw [if_neg (by omega), if_pos (by omega)]
  congr 1
  omega

theorem ofOffset_aboveDataMem (bufBytes : Nat) (o : BitVec 13) (ho : 0x1000 ≤ o.toNat)
    (h : bufBytes < o.toNat - 0x1000 + 4) : Reg.ofOffset bufBytes o = .reserved := by
  unfold Reg.ofOffset
  rw [if_neg (by omega), if_neg (by omega)]

theorem ite_ne {α : Type} {c : Prop} [Decidable c] {a b x : α} (ha : a ≠ x) (hb : b ≠ x) : (if c then a else b) ≠ x := by
  split
  · exact ha
  · exact hb

theorem dite_ne {α : Type} {c : Prop} [Decidable c] {a : c → α} {b : ¬ c → α} {x : α} (ha : ∀ h, a h ≠ x) (hb : ∀ h, b h ≠ x) :
    (if h : c then a h else b h) ≠ x := by
  split
  · next h => exact ha h
  · next h => exact hb h

theorem ofRegisterIndex_ne_dataMem (i w : Nat) : Reg.ofRegisterIndex i ≠ .dataMem w := by
  unfold Reg.ofRegisterIndex
  iterate 10 refine ite_ne nofun ?_
  iterate 5 refine dite_ne (fun _ => nofun) fun _ => ?_
  exact nofun

/-- A word of DATA_MEM that the map names lies below BUF_BYTES. -/
theorem ofOffset_eq_dataMem {bufBytes w : Nat} {o : BitVec 13} (h : Reg.ofOffset bufBytes o = .dataMem w) :
    4 * w + 4 ≤ bufBytes := by
  unfold Reg.ofOffset at h
  split at h
  · exact absurd h (ofRegisterIndex_ne_dataMem _ _)
  · split at h
    · cases h
      omega
    · cases h

/-! ## One access, one step -/

theorem readReg_inbox (s : State) (l : List Event) (r : Reg) : ({ s with inbox := l } : State).readReg r = s.readReg r := by
  cases r <;> rfl

theorem openBits_inbox (s : State) (l : List Event) (r : Reg) : ({ s with inbox := l } : State).openBits r = s.openBits r := rfl

theorem readData_inbox (s : State) (l : List Event) (r : Reg) : ({ s with inbox := l } : State).readData r = s.readData r := by
  simp only [State.readData, readReg_inbox, openBits_inbox]
  rfl

/-- An admitted read: its answer, and nothing else but the counter of free values (R69, R331). -/
theorem step_readEvent {s : State} {o : BitVec 13} {rest : List Event} (hr : s.rst = false) (ho : o.toNat % 4 = 0)
    (hi : s.inbox = readEvent o :: rest) :
    step s =
      .next { s with
        inbox := rest
        freeIdx := if s.openBits (Reg.ofOffset s.params.bufBytes o) = 0 then s.freeIdx else s.freeIdx + 1
        reply := some (.read .okay (s.readData (Reg.ofOffset s.params.bufBytes o))) } := by
  rw [step_of_cons hi hr (.inl nofun)]
  have ha : BusAccess.admitted { offset := o, size := .bits32, kind := .read } = true := by simp [BusAccess.admitted, ho]
  simp only [State.onEvent, readEvent, State.access, ha, if_true]
  rw [admittedRead_eq, readData_inbox, openBits_inbox]
  rfl

/-- An admitted write while BUSY is dropped, with HAZ set (R330). -/
theorem step_writeEvent_busy {s : State} {o : BitVec 13} {v : Word} {rest : List Event} (hr : s.rst = false)
    (ho : o.toNat % 4 = 0) (hb : s.isBusy = true) (hi : s.inbox = writeEvent o v :: rest) :
    step s = .next { s with inbox := rest, haz := true, reply := some (.write .okay) } := by
  rw [step_of_cons hi hr (.inl nofun)]
  have ha : BusAccess.admitted { offset := o, size := .bits32, kind := .write v } = true := by simp [BusAccess.admitted, ho]
  simp only [State.onEvent, writeEvent, State.access, ha, if_true, State.admittedWrite]
  rw [show ({ s with inbox := rest } : State).isBusy = s.isBusy from rfl, hb]
  rfl

/-- An admitted write while IDLE has its effect (R23). -/
theorem step_writeEvent_idle {s : State} {o : BitVec 13} {v : Word} {rest : List Event} (hr : s.rst = false)
    (ho : o.toNat % 4 = 0) (hs : s.seq = .idle) (hi : s.inbox = writeEvent o v :: rest) :
    step s =
      .next { ({ s with inbox := rest } : State).writeReg (Reg.ofOffset s.params.bufBytes o) v with
        reply := some (.write .okay) } := by
  rw [step_of_cons hi hr (.inl nofun)]
  have ha : BusAccess.admitted { offset := o, size := .bits32, kind := .write v } = true := by simp [BusAccess.admitted, ho]
  have hb : ({ s with inbox := rest } : State).isBusy = false := by simp [State.isBusy, hs]
  simp only [State.onEvent, writeEvent, State.access, ha, if_true, State.admittedWrite, hb]
  rfl

/-! ## Unspecified bits (R331) -/

/-- A bit of a read that is not unspecified is the bit of the location. -/
theorem getLsbD_readData (s : State) (r : Reg) (i : Nat) (h : (s.openBits r).getLsbD i = false) :
    (s.readData r).getLsbD i = (s.readReg r).getLsbD i := by
  unfold State.readData
  split
  · rfl
  by_cases hi : i < 32
  · simp only [BitVec.getLsbD_or, BitVec.getLsbD_and, BitVec.getLsbD_not, h, hi]
    simp
  · rw [BitVec.getLsbD_of_ge _ _ (by omega), BitVec.getLsbD_of_ge _ _ (by omega)]

/-- No bit of STATUS but TBL_DONE is ever unspecified. -/
theorem getLsbD_openBits_status (s : State) (i : Nat) (h : i ≠ 12) : (s.openBits .status).getLsbD i = false := by
  unfold State.openBits
  split
  · simp
  · simp
  · next j ph hs =>
    cases j <;>
      simp only [State.openBitsOf, openTblDone, openCtxInfo, openDout, State.openCbc, BitVec.getLsbD_or,
        getLsbD_bitAt _ _ _ (show 12 < 32 by decide)] <;>
      simp [h]

theorem getLsbD_laneMask (b : Bool) (k : Fin 4) (i : Nat) :
    (laneMask b k.val).getLsbD i = (b && decide (8 * k.val ≤ i ∧ i < 8 * k.val + 8)) := by
  have hlo : ∀ j : Fin 8, (0xFF : Word).getLsbD j.val = true := by decide
  have hhi : ∀ j : Fin 32, 8 ≤ j.val → (0xFF : Word).getLsbD j.val = false := by decide
  cases b
  · simp [laneMask]
  · simp only [laneMask, if_true, BitVec.getLsbD_shiftLeft, Bool.true_and]
    by_cases h1 : i < 8 * k.val
    · simp [h1, show ¬ 8 * k.val ≤ i by omega]
    · by_cases h2 : i < 8 * k.val + 8
      · rw [hlo ⟨i - 8 * k.val, by omega⟩]
        simp [h1, h2, show i < 32 by omega, show 8 * k.val ≤ i by omega]
      · have : (0xFF : Word).getLsbD (i - 8 * k.val) = false := by
          by_cases h3 : i - 8 * k.val < 32
          · exact hhi ⟨_, h3⟩ (by simp only; omega)
          · exact BitVec.getLsbD_of_ge _ _ (by omega)
        rw [this]
        simp [h2]

end Sys2Proof.Machine
end

