-- ==== Sys2Proof/Laws/Memory.lean ====
section
/-! SUPPORT. Laws of DATA_MEM: read after write, and that every memory operation keeps the canonical form and the range. -/

namespace Sys2Proof.Machine

/-! ## One byte -/

theorem lookup_store_self (m : Memory) (off : Nat) (v : Byte) : (m.store off v).lookup off = some v := by
  induction m with
  | nil => simp [Memory.store, Memory.lookup]
  | cons c m ih =>
    unfold Memory.store
    split
    · simp [Memory.lookup]
    · split
      · simp [Memory.lookup]
      · next h => simp [Memory.lookup, Ne.symm h, ih]

theorem lookup_store_of_ne (m : Memory) (off a : Nat) (v : Byte) (h : a ≠ off) :
    (m.store off v).lookup a = m.lookup a := by
  induction m with
  | nil => simp [Memory.store, Memory.lookup, Ne.symm h]
  | cons c m ih =>
    unfold Memory.store
    split
    · simp [Memory.lookup, Ne.symm h]
    · split
      · next e => simp [Memory.lookup, ← e, Ne.symm h]
      · simp [Memory.lookup, ih]

/-- The canonical form as a chain: offsets strictly rising. -/
theorem wf_iff_pairwise (m : Memory) : m.wf = true ↔ m.Pairwise (fun a b => a.1 < b.1) := by
  induction m with
  | nil => simp [Memory.wf]
  | cons c m ih =>
    cases m with
    | nil => simp [Memory.wf]
    | cons d m =>
      rw [List.pairwise_cons, ← ih]
      simp only [Memory.wf, Bool.and_eq_true, decide_eq_true_eq]
      constructor
      · rintro ⟨h, hm⟩
        refine ⟨fun e he => ?_, hm⟩
        rcases List.mem_cons.mp he with rfl | he
        · exact h
        · exact h.trans ((List.pairwise_cons.mp (ih.mp hm)).1 e he)
      · exact fun h => ⟨h.1 d (by simp), h.2⟩

theorem mem_store {m : Memory} {off : Nat} {v : Byte} {c : Host.Cell} (h : c ∈ m.store off v) : c = (off, v) ∨ c ∈ m := by
  induction m with
  | nil => simpa [Memory.store] using h
  | cons d m ih =>
    unfold Memory.store at h
    split at h
    · simpa using h
    · split at h
      · rcases List.mem_cons.mp h with h | h
        · exact .inl h
        · exact .inr (List.mem_cons_of_mem _ h)
      · rcases List.mem_cons.mp h with h | h
        · exact .inr (h ▸ List.mem_cons_self ..)
        · exact (ih h).imp id (List.mem_cons_of_mem _)

/-- Writing one byte keeps the canonical form. -/
theorem wf_store (m : Memory) (off : Nat) (v : Byte) (h : m.wf = true) : (m.store off v).wf = true := by
  rw [wf_iff_pairwise] at h ⊢
  induction m with
  | nil => simp [Memory.store]
  | cons d m ih =>
    obtain ⟨hd, hm⟩ := List.pairwise_cons.mp h
    unfold Memory.store
    split
    · next hlt =>
      refine List.pairwise_cons.mpr ⟨fun e he => ?_, h⟩
      rcases List.mem_cons.mp he with rfl | he
      · exact hlt
      · exact hlt.trans (hd e he)
    · split
      · next e => exact List.pairwise_cons.mpr ⟨fun x hx => e ▸ hd x hx, hm⟩
      · next hge hne =>
        refine List.pairwise_cons.mpr ⟨fun e he => ?_, ih hm⟩
        rcases mem_store he with rfl | he
        · simp only; omega
        · exact hd e he

/-! ## A sequence of bytes -/

theorem wf_storeList (m : Memory) (off : Nat) (l : List Byte) (h : m.wf = true) : (m.storeList off l).wf = true := by
  induction l generalizing m off with
  | nil => exact h
  | cons v l ih => exact ih _ _ (wf_store m off v h)

theorem mem_storeList {m : Memory} {off : Nat} {l : List Byte} {c : Host.Cell} (h : c ∈ m.storeList off l) :
    (off ≤ c.1 ∧ c.1 < off + l.length) ∨ c ∈ m := by
  induction l generalizing m off with
  | nil => exact .inr h
  | cons v l ih =>
    rcases ih h with h | h
    · exact .inl ⟨by omega, by simp only [List.length_cons]; omega⟩
    · rcases mem_store h with rfl | h
      · exact .inl ⟨Nat.le_refl _, by simp⟩
      · exact .inr h

theorem lookup_storeList_of_lt (m : Memory) (off a : Nat) (l : List Byte) (h : a < off ∨ off + l.length ≤ a) :
    (m.storeList off l).lookup a = m.lookup a := by
  induction l generalizing m off with
  | nil => rfl
  | cons v l ih =>
    simp only [List.length_cons] at h
    rw [Memory.storeList, ih _ _ (by omega), lookup_store_of_ne _ _ _ _ (by omega)]

theorem lookup_storeList_at (m : Memory) (off i : Nat) (l : List Byte) (h : i < l.length) :
    (m.storeList off l).lookup (off + i) = some l[i] := by
  induction l generalizing m off i with
  | nil => simp at h
  | cons v l ih =>
    rw [Memory.storeList]
    cases i with
    | zero => rw [lookup_storeList_of_lt _ _ _ _ (by omega)]; simp [lookup_store_self]
    | succ i =>
      have := ih (m.store off v) (off + 1) i (by simpa using h)
      simpa [Nat.add_assoc, Nat.add_comm 1 i] using this

/-! ## The bytes of a state -/

/-- A read of DATA_MEM depends on the written bytes and the reset count alone. -/
theorem memByte_congr {s t : State} (hm : t.mem = s.mem) (he : t.epoch = s.epoch) (a : Nat) : t.memByte a = s.memByte a := by
  simp [State.memByte, hm, he]

theorem memWrite_memByte_of_ne (s : State) (off a : Nat) (v : Bytes16) (h : a < off ∨ off + 16 ≤ a) :
    (s.memWrite off v).memByte a = s.memByte a := by
  simp [State.memByte, lookup_storeList_of_lt s.mem off a v.toList (by simpa using h)]

theorem memWrite_memByte_at (s : State) (off : Nat) (v : Bytes16) (i : Fin 16) :
    (s.memWrite off v).memByte (off + i.val) = v[i.val] := by
  have := lookup_storeList_at s.mem off i.val v.toList (by simp)
  simp [State.memByte, this]

/-- MemRead after MemWrite at the same offset gives what was written (R66). -/
theorem memRead_memWrite_self (s : State) (off : Nat) (v : Bytes16) : (s.memWrite off v).memRead off = v := by
  apply Vector.ext
  intro i hi
  simpa [State.memRead] using memWrite_memByte_at s off v ⟨i, hi⟩

/-- MemRead after MemWrite at a disjoint offset gives what was there (R66). -/
theorem memRead_memWrite_of_disjoint (s : State) (off a : Nat) (v : Bytes16) (h : a + 16 ≤ off ∨ off + 16 ≤ a) :
    (s.memWrite off v).memRead a = s.memRead a := by
  apply Vector.ext
  intro i hi
  simpa [State.memRead] using memWrite_memByte_of_ne s off (a + i) v (by omega)

theorem memPutWord_memByte_of_ne (s : State) (off a : Nat) (v : Word) (h : a < off ∨ off + 4 ≤ a) :
    (s.memPutWord off v).memByte a = s.memByte a := by
  rw [State.memByte, State.memPutWord]
  simp only [lookup_storeList_of_lt s.mem off a [byteLane v 0, byteLane v 1, byteLane v 2, byteLane v 3] (by simpa using h)]
  rfl

theorem memPutWord_memByte_at (s : State) (off : Nat) (v : Word) (k : Fin 4) :
    (s.memPutWord off v).memByte (off + k.val) = byteLane v k := by
  have := lookup_storeList_at s.mem off k.val [byteLane v 0, byteLane v 1, byteLane v 2, byteLane v 3] (by simp)
  rw [State.memByte, State.memPutWord]
  simp only [this]
  fin_cases k <;> rfl

/-! ## The canonical form of a state's DATA_MEM -/

theorem memoryCanonical_congr {s t : State} (h : s.MemoryCanonical) (hm : t.mem = s.mem) (hp : t.params = s.params) :
    t.MemoryCanonical := by
  simpa [State.MemoryCanonical, hm, hp] using h

theorem memoryCanonical_memWrite {s : State} (h : s.MemoryCanonical) (off : Nat) (v : Bytes16)
    (hoff : off + 16 ≤ s.params.bufBytes) : (s.memWrite off v).MemoryCanonical := by
  refine ⟨by simpa using wf_storeList _ _ _ h.1, fun c hc => ?_⟩
  rcases mem_storeList hc with hc | hc
  · simp at hc ⊢; omega
  · exact h.2 c hc

theorem memoryCanonical_memPutWord {s : State} (h : s.MemoryCanonical) (off : Nat) (v : Word)
    (hoff : off + 4 ≤ s.params.bufBytes) : (s.memPutWord off v).MemoryCanonical := by
  refine ⟨wf_storeList _ _ _ h.1, fun c hc => ?_⟩
  rcases mem_storeList hc with hc | hc
  · simp at hc ⊢; omega
  · exact h.2 c hc

/-- The memory of the reset state has the canonical form. -/
theorem reset_mem_wf : State.reset.mem.wf = true := rfl

end Sys2Proof.Machine
end

