-- ==== Sys2Proof/Laws/Cbc.lean ====
section
/-! SUPPORT. Laws of the CBC loop (R220, R222-R230): what it depends on, the bytes outside its output, and its blocks where every input
is read before it is overwritten (R228). -/

namespace Sys2Proof.Machine

/-- The loop over n + 1 blocks ends with block n. -/
theorem cbcLoop_succ (s : State) (d : Direction) (c : CtxIdx) (n src dst : Nat) :
    s.cbcLoop d c (n + 1) src dst = (s.cbcLoop d c n src dst).cbcBlock d c (src + 16 * n) (dst + 16 * n) := by
  rw [cbcLoop_add s d c n 1 src dst]
  rfl

theorem cbcLoop_ctxAt (s : State) (d : Direction) (c c' : CtxIdx) (n src dst : Nat) :
    (s.cbcLoop d c n src dst).ctxAt c' = s.ctxAt c' := by
  rw [cbcLoop_frame]
  rfl

theorem cbcLoop_tables (s : State) (d : Direction) (c : CtxIdx) (n src dst : Nat) :
    (s.cbcLoop d c n src dst).tables = s.tables := by rw [cbcLoop_frame]

theorem cbcLoop_params (s : State) (d : Direction) (c : CtxIdx) (n src dst : Nat) :
    (s.cbcLoop d c n src dst).params = s.params := by rw [cbcLoop_frame]

theorem cbcLoop_epoch (s : State) (d : Direction) (c : CtxIdx) (n src dst : Nat) :
    (s.cbcLoop d c n src dst).epoch = s.epoch := by rw [cbcLoop_frame]

/-- The block a step of the loop writes to its output (R220). -/
def cbcOutput (s : State) (d : Direction) (c : CtxIdx) (src : Nat) : Bytes16 :=
  match d with
  | .encrypt => storeBlock (cipherBlock .encrypt s.tables (s.ctxAt c) (loadBlock (xorBytes (s.memRead src) s.chain)))
  | .decrypt => xorBytes (storeBlock (cipherBlock .decrypt s.tables (s.ctxAt c) (loadBlock (s.memRead src)))) s.chain

theorem cbcBlock_mem (s : State) (d : Direction) (c : CtxIdx) (src dst : Nat) :
    (s.cbcBlock d c src dst).mem = (s.memWrite dst (cbcOutput s d c src)).mem := by
  cases d
  · rw [cbcBlock_encrypt_mem, cbcBlock_encrypt_chain, memWrite_mem, cbcOutput]
  · rw [cbcBlock_decrypt_mem, memWrite_mem, cbcOutput]

theorem cbcBlock_memByte (s : State) (d : Direction) (c : CtxIdx) (src dst a : Nat) :
    (s.cbcBlock d c src dst).memByte a = (s.memWrite dst (cbcOutput s d c src)).memByte a :=
  memByte_congr (cbcBlock_mem s d c src dst) (by simp) a

/-- Every byte outside the loop's output is unchanged. -/
theorem cbcLoop_memByte_outside (s : State) (d : Direction) (c : CtxIdx) (n src dst a : Nat)
    (h : a < dst ∨ dst + 16 * n ≤ a) : (s.cbcLoop d c n src dst).memByte a = s.memByte a := by
  induction n with
  | zero => rfl
  | succ n ih =>
    rw [cbcLoop_succ, cbcBlock_memByte, memWrite_memByte_of_ne _ _ _ _ (by omega), ih (by omega)]

/-- So is a whole block outside it. -/
theorem cbcLoop_memRead_outside (s : State) (d : Direction) (c : CtxIdx) (n src dst a : Nat)
    (h : a + 16 ≤ dst ∨ dst + 16 * n ≤ a) : (s.cbcLoop d c n src dst).memRead a = s.memRead a := by
  apply Vector.ext
  intro i hi
  simpa [State.memRead] using cbcLoop_memByte_outside s d c n src dst (a + i) (by omega)

/-- Every output block is what its step wrote: the loop writes no byte of it later. -/
theorem cbcLoop_memByte_output (s : State) (d : Direction) (c : CtxIdx) (n src dst k : Nat) (hk : k < n) (i : Fin 16) :
    (s.cbcLoop d c n src dst).memByte (dst + 16 * k + i.val) =
      (cbcOutput (s.cbcLoop d c k src dst) d c (src + 16 * k))[i.val] := by
  induction n with
  | zero => omega
  | succ n ih =>
    rw [cbcLoop_succ, cbcBlock_memByte]
    by_cases h : k = n
    · subst h
      rw [memWrite_memByte_at]
    · rw [memWrite_memByte_of_ne _ _ _ _ (by omega), ih (by omega)]

/-- Where no write comes before the read of a later input (R228), the loop reads every input block as it was. -/
theorem cbcLoop_memRead_input (s : State) (d : Direction) (c : CtxIdx) (n src dst k : Nat) (hk : k < n)
    (h : dst ≤ src ∨ src + 16 * n ≤ dst) : (s.cbcLoop d c k src dst).memRead (src + 16 * k) = s.memRead (src + 16 * k) :=
  cbcLoop_memRead_outside s d c k src dst _ (by omega)

/-- The loop's memory and chain depend on these fields alone. -/
theorem cbcLoop_congr {s t : State} (d : Direction) (c : CtxIdx) (n src dst : Nat) (hm : t.mem = s.mem)
    (he : t.epoch = s.epoch) (hc : t.chain = s.chain) (ht : t.tables = s.tables) (hx : t.ctx = s.ctx) :
    (t.cbcLoop d c n src dst).mem = (s.cbcLoop d c n src dst).mem ∧
      (t.cbcLoop d c n src dst).chain = (s.cbcLoop d c n src dst).chain := by
  induction n generalizing s t src dst with
  | zero => exact ⟨hm, hc⟩
  | succ n ih =>
    have hr : ∀ a, t.memRead a = s.memRead a := fun a => by
      apply Vector.ext
      intro i hi
      simpa [State.memRead] using memByte_congr hm he (a + i)
    have ha : t.ctxAt c = s.ctxAt c := by simp only [State.ctxAt, hx]
    refine ih _ _ ?_ ?_ ?_ ?_ ?_
    · cases d
      · rw [cbcBlock_encrypt_mem, cbcBlock_encrypt_mem, cbcBlock_encrypt_chain, cbcBlock_encrypt_chain, hm, hr, ht, ha, hc]
      · rw [cbcBlock_decrypt_mem, cbcBlock_decrypt_mem, hm, hr, ht, ha, hc]
    · simpa using he
    · cases d
      · rw [cbcBlock_encrypt_chain, cbcBlock_encrypt_chain, hr, ht, ha, hc]
      · rw [cbcBlock_decrypt_chain, cbcBlock_decrypt_chain, hr]
    · simpa using ht
    · simpa using hx

/-- The loop keeps the canonical form of DATA_MEM while its output lies below BUF_BYTES. -/
theorem memoryCanonical_cbcLoop {s : State} (h : s.MemoryCanonical) (d : Direction) (c : CtxIdx) (n src dst : Nat)
    (hd : dst + 16 * n ≤ s.params.bufBytes) : (s.cbcLoop d c n src dst).MemoryCanonical := by
  induction n with
  | zero => exact h
  | succ n ih =>
    rw [cbcLoop_succ]
    have hp : (s.cbcLoop d c n src dst).params = s.params := cbcLoop_params s d c n src dst
    have hw := memoryCanonical_memWrite (ih (by omega)) (dst + 16 * n)
      (cbcOutput (s.cbcLoop d c n src dst) d c (src + 16 * n)) (by rw [hp]; omega)
    exact memoryCanonical_congr hw (cbcBlock_mem _ _ _ _ _) (by simp)

end Sys2Proof.Machine
end

