-- ==== Sys2Proof/Laws/Gf.lean ====
section
/-! SUPPORT. Laws of GF(2^8): `xtime` and `gmul` respect exclusive-or, and `gmul` by a doubled operand doubles the product (R120,
R123). -/

namespace Sys2Proof.Machine

@[simp] theorem xtime_zero : xtime 0#8 = 0#8 := rfl

/-- Doubling is linear (R120). -/
theorem xtime_xor (a b : Byte) : xtime (a ^^^ b) = xtime a ^^^ xtime b := by
  apply BitVec.eq_of_getLsbD_eq
  intro i hi
  unfold xtime
  rw [BitVec.getLsbD_xor (x := a) (y := b) (i := 7)]
  cases a.getLsbD 7 <;> cases b.getLsbD 7 <;>
    simp only [BitVec.getLsbD_xor, BitVec.getLsbD_shiftLeft, bne_self_eq_false, Bool.xor_false, Bool.xor_true,
      Bool.not_false, if_true, if_false, Bool.false_eq_true] <;>
    cases (decide (i < 8)) <;> cases (decide (i < 1)) <;> cases a.getLsbD (i - 1) <;> cases b.getLsbD (i - 1) <;>
    cases ((0x1B : Byte).getLsbD i) <;> simp

@[simp] theorem gmulLoop_zero_left (n : Nat) (b : Byte) : gmulLoop n 0#8 b = 0#8 := by
  induction n generalizing b with
  | zero => rfl
  | succ n ih => simp [gmulLoop, ih]

theorem gmulLoop_xor_left (n : Nat) (a a' b : Byte) : gmulLoop n (a ^^^ a') b = gmulLoop n a b ^^^ gmulLoop n a' b := by
  induction n generalizing a a' b with
  | zero => simp [gmulLoop]
  | succ n ih =>
    simp only [gmulLoop, xtime_xor, ih]
    split
    · ac_rfl
    · simp only [BitVec.ofNat_eq_ofNat, BitVec.zero_xor]

theorem gmulLoop_xor_right (n : Nat) (a b b' : Byte) : gmulLoop n a (b ^^^ b') = gmulLoop n a b ^^^ gmulLoop n a b' := by
  induction n generalizing a b b' with
  | zero => simp [gmulLoop]
  | succ n ih =>
    simp only [gmulLoop, BitVec.ushiftRight_xor_distrib, ih, BitVec.getLsbD_xor]
    have cancel (x y : Byte) : x ^^^ y = (a ^^^ x) ^^^ (a ^^^ y) := by
      rw [show (a ^^^ x) ^^^ (a ^^^ y) = (a ^^^ a) ^^^ (x ^^^ y) by ac_rfl, BitVec.xor_self, BitVec.zero_xor]
    cases b.getLsbD 0 <;> cases b'.getLsbD 0 <;>
      simp only [Bool.xor_false, Bool.xor_true, Bool.not_true, Bool.not_false, if_true, if_false, Bool.false_eq_true,
        BitVec.ofNat_eq_ofNat, BitVec.zero_xor]
    · ac_rfl
    · ac_rfl
    · exact cancel _ _

theorem gmulLoop_xtime (n : Nat) (a b : Byte) : gmulLoop n (xtime a) b = xtime (gmulLoop n a b) := by
  induction n generalizing a b with
  | zero => exact xtime_zero.symm
  | succ n ih =>
    simp only [gmulLoop, xtime_xor, ih]
    split
    · rfl
    · simp

/-- `gmul` is additive in its first operand. -/
theorem gmul_xor_left (a a' b : Byte) : gmul (a ^^^ a') b = gmul a b ^^^ gmul a' b := gmulLoop_xor_left 8 a a' b

/-- `gmul` is additive in its second operand. -/
theorem gmul_xor_right (a b b' : Byte) : gmul a (b ^^^ b') = gmul a b ^^^ gmul a b' := gmulLoop_xor_right 8 a b b'

/-- Doubling the first operand doubles the product. -/
theorem gmul_xtime_left (a b : Byte) : gmul (xtime a) b = xtime (gmul a b) := gmulLoop_xtime 8 a b

@[simp] theorem gmul_zero_left (b : Byte) : gmul 0#8 b = 0#8 := gmulLoop_zero_left 8 b

@[simp] theorem gmul_one_left (b : Byte) : gmul 1#8 b = b := by revert b; decide +kernel
@[simp] theorem gmul_one_right (a : Byte) : gmul a 1#8 = a := by revert a; decide +kernel
@[simp] theorem gmul_zero_right (a : Byte) : gmul a 0#8 = 0#8 := by revert a; decide +kernel

/-- Multiplication by 2 is `xtime`. -/
theorem gmul_two (b : Byte) : gmul 2 b = xtime b := by
  rw [show (2 : Byte) = xtime 1#8 from rfl, gmul_xtime_left, gmul_one_left]

/-- Multiplication by 3 is the step `x ^ xtime(x)` of the POW loop (R121, 90_conflicts.md C3). -/
theorem gmul_three (b : Byte) : gmul 3 b = b ^^^ xtime b := by
  rw [show (3 : Byte) = 1#8 ^^^ xtime 1#8 from rfl, gmul_xor_left, gmul_xtime_left, gmul_one_left]

end Sys2Proof.Machine
end

