-- ==== Sys2Proof/Laws/PerInstr.lean ====
section
/-! SUPPORT. Statements for every command as syntax, one lemma per constructor of Instr. -/

namespace Sys2Proof.Laws.EncodedFields

/-- The opcode of a command (30_encoding.md R92). -/
def opcode : Instr → BitVec 4
  | .nop => 0x0
  | .buildTables => 0x1
  | .setkeyEnc _ => 0x2
  | .setkeyDec _ => 0x3
  | .cryptEcb _ => 0x4
  | .cryptCbc _ => 0x5
  | .wipe _ => 0x6

/-- The CTX field of a command: its context index, or 0 (R91, R94). -/
def ctx : Instr → CtxIdx
  | .nop => 0
  | .buildTables => 0
  | .setkeyEnc c => c
  | .setkeyDec c => c
  | .cryptEcb c => c
  | .cryptCbc c => c
  | .wipe c => c

/-- The fields of the command word (R90): RES is 0, OPCODE is the command's, CTX is its context index. -/
def Statement (i : Instr) : Prop :=
  resField (encode i) = 0 ∧ opcodeField (encode i) = opcode i ∧ ctxField (encode i) = ctx i

theorem nop : Statement .nop := by unfold Statement; decide
theorem buildTables : Statement .buildTables := by unfold Statement; decide
theorem setkeyEnc (c : CtxIdx) : Statement (.setkeyEnc c) := by revert c; unfold Statement; decide
theorem setkeyDec (c : CtxIdx) : Statement (.setkeyDec c) := by revert c; unfold Statement; decide
theorem cryptEcb (c : CtxIdx) : Statement (.cryptEcb c) := by revert c; unfold Statement; decide
theorem cryptCbc (c : CtxIdx) : Statement (.cryptCbc c) := by revert c; unfold Statement; decide
theorem wipe (c : CtxIdx) : Statement (.wipe c) := by revert c; unfold Statement; decide

end Sys2Proof.Laws.EncodedFields
end

