-- ==== Sys2Proof/Laws/Tables.lean ====
section
/-! SUPPORT. Laws of the tables: entries of a table that a loop writes, POW and LOG as powers and logarithms of 3 (R121, R122), the
product through them (R123), the reverse S-box as the largest index (R130). -/

namespace Sys2Proof.Machine

/-! ## Entries -/

theorem table_ext {α : Type} {t u : Vector α 256} (h : ∀ b : Byte, tableAt t b = tableAt u b) : t = u := by
  apply Vector.ext
  intro i hi
  simpa [tableAt, Nat.mod_eq_of_lt hi] using h (BitVec.ofNat 8 i)

@[simp] theorem tableAt_replicate {α : Type} (v : α) (b : Byte) : tableAt (Vector.replicate 256 v) b = v := by
  simp [tableAt]

theorem tableAt_tablePut_self {α : Type} (t : Vector α 256) (b : Byte) (v : α) : tableAt (tablePut t b v) b = v := by
  simp [tableAt, tablePut]

theorem tableAt_tablePut_of_ne {α : Type} (t : Vector α 256) (b c : Byte) (v : α) (h : c ≠ b) :
    tableAt (tablePut t b v) c = tableAt t c := by
  have : b.toNat ≠ c.toNat := fun e => h (BitVec.eq_of_toNat_eq e).symm
  simp [tableAt, tablePut, this]

@[simp] theorem tableAt_tableOf {α : Type} (f : Byte → α) (b : Byte) : tableAt (tableOf f) b = f b := by
  simp [tableAt, tableOf, allBytes]

theorem mem_allBytes (b : Byte) : b ∈ allBytes :=
  List.mem_map.mpr ⟨b.toNat, List.mem_range.mpr b.isLt, by simp⟩

/-! ## Successive writes -/

theorem tablePutAll_append {α : Type} (t : Vector α 256) (l m : List (Byte × α)) :
    tablePutAll t (l ++ m) = tablePutAll (tablePutAll t l) m := List.foldl_append

/-- An entry no write names keeps what it held. -/
theorem tableAt_tablePutAll_of_notMem {α : Type} (t : Vector α 256) (l : List (Byte × α)) (b : Byte)
    (h : ∀ p ∈ l, p.1 ≠ b) : tableAt (tablePutAll t l) b = tableAt t b := by
  induction l generalizing t with
  | nil => rfl
  | cons p l ih =>
    rw [show tablePutAll t (p :: l) = tablePutAll (tablePut t p.1 p.2) l from rfl,
      ih _ fun q hq => h q (List.mem_cons_of_mem _ hq),
      tableAt_tablePut_of_ne _ _ _ _ (h p List.mem_cons_self).symm]

/-- The last write of an entry is what it holds. -/
theorem tableAt_tablePutAll_last {α : Type} (t : Vector α 256) (l m : List (Byte × α)) (b : Byte) (v : α)
    (h : ∀ p ∈ m, p.1 ≠ b) : tableAt (tablePutAll t (l ++ (b, v) :: m)) b = v := by
  rw [tablePutAll_append, show ∀ u, tablePutAll u ((b, v) :: m) = tablePutAll (tablePut u b v) m from fun _ => rfl,
    tableAt_tablePutAll_of_notMem _ _ _ h, tableAt_tablePut_self]

/-- An entry some write names does not depend on what the table held. -/
theorem tableAt_tablePutAll_congr {α : Type} (t u : Vector α 256) (l : List (Byte × α)) (b : Byte)
    (h : tableAt t b = tableAt u b ∨ ∃ p ∈ l, p.1 = b) : tableAt (tablePutAll t l) b = tableAt (tablePutAll u l) b := by
  induction l generalizing t u with
  | nil => exact h.elim id fun ⟨p, hp, _⟩ => absurd hp List.not_mem_nil
  | cons p l ih =>
    refine ih (tablePut t p.1 p.2) (tablePut u p.1 p.2) ?_
    by_cases e : p.1 = b
    · subst e
      exact .inl ((tableAt_tablePut_self _ _ _).trans (tableAt_tablePut_self _ _ _).symm)
    · rcases h with h | ⟨q, hq, rfl⟩
      · exact .inl (by rwa [tableAt_tablePut_of_ne _ _ _ _ (Ne.symm e), tableAt_tablePut_of_ne _ _ _ _ (Ne.symm e)])
      · rcases List.mem_cons.mp hq with rfl | hq
        · exact absurd rfl e
        · exact .inr ⟨q, hq, rfl⟩

/-! ## The reverse S-box (R130) -/

theorem allBytes_split (i : Byte) :
    allBytes = (List.range i.toNat).map (BitVec.ofNat 8) ++ i :: (List.range' (i.toNat + 1) (255 - i.toNat)).map (BitVec.ofNat 8) := by
  have h : List.range 256 = List.range i.toNat ++ i.toNat :: List.range' (i.toNat + 1) (255 - i.toNat) := by
    have := i.isLt
    rw [List.range_eq_range', List.range_eq_range', ← List.range'_succ, ← show i.toNat + (255 - i.toNat + 1) = 256 by omega]
    simpa using (List.range'_append_1 (s := 0) (m := i.toNat) (n := 255 - i.toNat + 1)).symm
  rw [allBytes, h]
  simp

/-- An entry no index maps to keeps what the RAM held. -/
theorem reverseSbox_of_unmapped (rsb fsb : ByteTable) (x : Byte) (h : ∀ i, tableAt fsb i ≠ x) :
    tableAt (reverseSbox rsb fsb) x = tableAt rsb x :=
  tableAt_tablePutAll_of_notMem _ _ _ fun p hp => by
    obtain ⟨i, -, rfl⟩ := List.mem_map.mp hp
    exact h i

/-- The largest index that maps to x is the entry of x. -/
theorem reverseSbox_of_largest (rsb fsb : ByteTable) (i x : Byte) (h : tableAt fsb i = x)
    (hl : ∀ j, i < j → tableAt fsb j ≠ x) : tableAt (reverseSbox rsb fsb) x = i := by
  rw [reverseSbox, allBytes_split i, List.map_append, List.map_cons, h]
  refine tableAt_tablePutAll_last _ _ _ _ _ fun p hp => ?_
  obtain ⟨j, hj, rfl⟩ := List.mem_map.mp hp
  obtain ⟨n, hn, rfl⟩ := List.mem_map.mp hj
  have := List.mem_range'_1.mp hn
  have := i.isLt
  exact hl _ (by rw [BitVec.lt_def, BitVec.toNat_ofNat, Nat.mod_eq_of_lt (by omega)]; omega)

/-! ## POW and LOG (R121, R122) -/

/-- The power 3^n, by the step of R121. -/
def power : Nat → Byte
  | 0 => 1
  | n + 1 => power n ^^^ xtime (power n)

theorem gmul_power (n : Nat) (b : Byte) : gmul (power (n + 1)) b = gmul (power n) b ^^^ xtime (gmul (power n) b) := by
  rw [power, gmul_xor_left, gmul_xtime_left]

/-- Powers of 3 multiply by adding exponents. -/
theorem gmul_power_power (m n : Nat) : gmul (power m) (power n) = power (m + n) := by
  induction m with
  | zero => simp [power]
  | succ m ih => rw [gmul_power, ih, show m + 1 + n = (m + n) + 1 by omega, power]

theorem getElem_powSequence (n k m : Nat) (x : Byte) (hx : x = power m) (h : k < (powSequence n x).length) :
    (powSequence n x)[k] = power (m + k) := by
  induction n generalizing k m x with
  | zero => exact absurd h (by simp [powSequence])
  | succ n ih =>
    cases k with
    | zero => exact hx
    | succ k =>
      rw [show m + (k + 1) = m + 1 + k by omega]
      exact ih k (m + 1) _ (by rw [hx, power]) (by simpa [powSequence, length_powSequence] using h)

/-- POW[e] is 3^e (R121). -/
theorem powTable_eq_power (e : Byte) : tableAt powTable e = power e.toNat := by
  simp only [tableAt, powTable, Vector.getElem_mk, List.getElem_toArray]
  rw [getElem_powSequence 256 e.toNat 0 1 rfl, Nat.zero_add]

theorem powTable_zero : tableAt powTable 0 = 1 := powTable_eq_power 0

/-- Each entry of POW is 3 times the one before it (R121). -/
theorem powTable_succ (e : Byte) (he : e ≠ 255) : tableAt powTable (e + 1) = gmul 3 (tableAt powTable e) := by
  have hl := e.isLt
  have hne : e.toNat ≠ 255 := fun h => he (BitVec.eq_of_toNat_eq h)
  have hs : (e + 1).toNat = e.toNat + 1 := by
    rw [BitVec.toNat_add]
    simp
    omega
  rw [powTable_eq_power, powTable_eq_power, hs, gmul_three, power]

/-- 3^255 = 1. -/
theorem power_255 : power 255 = 1 := by decide +kernel

theorem powTable_last : tableAt powTable 255 = 1 := (powTable_eq_power 255).trans power_255

/-- The powers have period 255. -/
theorem power_add_255 (n : Nat) : power (n + 255) = power n := by
  rw [← gmul_power_power, power_255]
  exact gmul_one_right _

theorem power_mod_255 (n : Nat) : power (n % 255) = power n := by
  induction n using Nat.strongRecOn with
  | _ n ih =>
    by_cases h : n < 255
    · rw [Nat.mod_eq_of_lt h]
    · obtain ⟨m, rfl⟩ : ∃ m, n = m + 255 := ⟨n - 255, by omega⟩
      rw [Nat.add_mod_right, ih m (by omega), power_add_255]

/-- LOG over a blank RAM. -/
theorem logTable_blank_one : tableAt (logTable (Vector.replicate 256 0)) 1 = 255 := by decide +kernel

theorem logTable_blank_facts : ∀ y : Byte, y = 0 ∨
    (tableAt (logTable (Vector.replicate 256 0)) y ≠ 0 ∧
      (y = 1 ∨ tableAt (logTable (Vector.replicate 256 0)) y ≠ 255) ∧
      tableAt powTable (tableAt (logTable (Vector.replicate 256 0)) y) = y) := by decide +kernel

/-- Every nonzero byte is a power of 3: the loop of R121 writes its LOG entry. -/
theorem exists_powSequence (y : Byte) (hy : y ≠ 0) : ∃ p ∈ (powSequence 256 1).zip allBytes, p.1 = y := by
  by_contra h
  simp only [not_exists, not_and] at h
  have hf := ((logTable_blank_facts y).resolve_left hy).1
  unfold logTable at hf
  rw [tableAt_tablePutAll_of_notMem _ _ _ h, tableAt_replicate] at hf
  exact hf rfl

/-- LOG[y] of a nonzero y does not depend on what the RAM held (R121 writes each of them). -/
theorem logTable_of_ne_zero (log : ByteTable) (y : Byte) (hy : y ≠ 0) :
    tableAt (logTable log) y = tableAt (logTable (Vector.replicate 256 0)) y := by
  unfold logTable
  exact tableAt_tablePutAll_congr _ _ _ _ (.inr (exists_powSequence y hy))

/-- LOG[0] keeps what the RAM held (R122: no iteration writes it). -/
theorem logTable_zero (log : ByteTable) : tableAt (logTable log) 0 = tableAt log 0 := by
  have hall : ((powSequence 256 1).zip allBytes).all (fun p => p.1 ≠ 0) = true := by decide +kernel
  unfold logTable
  refine tableAt_tablePutAll_of_notMem _ _ _ fun p hp => ?_
  simpa using List.all_eq_true.mp hall p hp

theorem logTable_one (log : ByteTable) : tableAt (logTable log) 1 = 255 := by
  rw [logTable_of_ne_zero log 1 (by decide), logTable_blank_one]

theorem logTable_ne_zero (log : ByteTable) (y : Byte) (hy : y ≠ 0) : tableAt (logTable log) y ≠ 0 := by
  rw [logTable_of_ne_zero log y hy]
  exact ((logTable_blank_facts y).resolve_left hy).1

theorem logTable_ne_255 (log : ByteTable) (y : Byte) (hy : y ≠ 0) (h1 : y ≠ 1) : tableAt (logTable log) y ≠ 255 := by
  rw [logTable_of_ne_zero log y hy]
  exact ((logTable_blank_facts y).resolve_left hy).2.1.resolve_left h1

theorem powTable_logTable (log : ByteTable) (y : Byte) (hy : y ≠ 0) : tableAt powTable (tableAt (logTable log) y) = y := by
  rw [logTable_of_ne_zero log y hy]
  exact ((logTable_blank_facts y).resolve_left hy).2.2

theorem logTable_blank_powTable :
    ∀ e : Byte, e = 0 ∨ tableAt (logTable (Vector.replicate 256 0)) (tableAt powTable e) = e := by decide +kernel

theorem powTable_ne_zero (e : Byte) : tableAt powTable e ≠ 0 := by
  intro h
  have h1 := gmul_power_power e.toNat (255 - e.toNat)
  rw [← powTable_eq_power, h, show e.toNat + (255 - e.toNat) = 255 by have := e.isLt; omega, power_255] at h1
  exact absurd ((gmul_zero_left _).symm.trans h1) (by decide)

/-- LOG inverts POW on the exponents 1 to 255. -/
theorem logTable_powTable (log : ByteTable) (e : Byte) (he : e ≠ 0) : tableAt (logTable log) (tableAt powTable e) = e := by
  rw [logTable_of_ne_zero log _ (powTable_ne_zero e)]
  exact (logTable_blank_powTable e).resolve_left he

/-- The exponents 0 to 254 have different powers (R121). -/
theorem powTable_injective {e e' : Byte} (he : e ≠ 255) (he' : e' ≠ 255) (h : tableAt powTable e = tableAt powTable e') :
    e = e' := by
  have key : ∀ e e' : Byte, e' ≠ 255 → tableAt powTable e = tableAt powTable e' → e = 0 → e' = 0 := fun e e' he' h h0 => by
    by_contra hn
    have := logTable_powTable (Vector.replicate 256 0) e' hn
    rw [← h, h0, powTable_zero, logTable_one] at this
    exact he' this.symm
  by_cases h0 : e = 0
  · rw [h0, key e e' he' h h0]
  · by_cases h0' : e' = 0
    · exact absurd (key e' e he h.symm h0') h0
    · have := logTable_powTable (Vector.replicate 256 0) e h0
      rw [h, logTable_powTable _ e' h0'] at this
      exact this.symm

/-- `MUL` is the field product (R123), whatever the LOG RAM held before. -/
theorem tableMul_eq_gmul (log : ByteTable) (a b : Byte) : tableMul powTable (logTable log) a b = gmul a b := by
  unfold tableMul
  split
  · next h =>
    obtain ⟨ha, hb⟩ := h
    have hlt : ((tableAt (logTable log) a).toNat + (tableAt (logTable log) b).toNat) % 255 < 256 := by omega
    rw [powTable_eq_power, BitVec.toNat_ofNat, Nat.mod_eq_of_lt hlt, power_mod_255, ← gmul_power_power, ← powTable_eq_power,
      ← powTable_eq_power, powTable_logTable log a ha, powTable_logTable log b hb]
  · next h =>
    by_cases ha : a = 0
    · subst ha
      exact (gmul_zero_left b).symm
    · have hb : b = 0 := by
        by_contra hb
        exact h ⟨ha, hb⟩
      subst hb
      exact (gmul_zero_right a).symm

/-- The value the S-box loop takes for index i is the multiplicative inverse of i (R128). -/
theorem gmul_inverse (log : ByteTable) (i : Byte) (hi : i ≠ 0) : gmul i (tableAt powTable (255 - tableAt (logTable log) i)) = 1 := by
  have h := powTable_logTable log i hi
  rw [powTable_eq_power] at h ⊢
  generalize tableAt (logTable log) i = l at h ⊢
  have hl := l.isLt
  have hs : (255 - l).toNat = 255 - l.toNat := by
    rw [BitVec.toNat_sub]
    simp
    omega
  rw [← h, hs, gmul_power_power, show l.toNat + (255 - l.toNat) = 0 + 255 by omega, power_add_255]
  rfl

/-! ## Entries of the S-box and of the T-tables -/

/-- The rotate-XOR combination with its rotations written out (R128). -/
theorem rotateXor_eq (x : Byte) : rotateXor x = x ^^^ rotl8 x 1 ^^^ rotl8 x 2 ^^^ rotl8 x 3 ^^^ rotl8 x 4 := by
  revert x
  decide +kernel

/-- Table k of four rotations: each entry rotated k times (R135, R136). -/
theorem tableAt_fourRotations (t : WordTable) (k : Fin 4) (b : Byte) :
    tableAt (fourRotations t)[k.val] b = rotlWord8^[k.val] (tableAt t b) := by
  have h1 : ∀ u, tableAt (rotateTable u) b = rotlWord8 (tableAt u b) := fun u => tableAt_tableOf _ _
  match k with
  | 0 => rfl
  | 1 => exact h1 _
  | 2 => exact (h1 _).trans (congrArg rotlWord8 (h1 _))
  | 3 => exact (h1 _).trans (congrArg rotlWord8 ((h1 _).trans (congrArg rotlWord8 (h1 _))))

/-- Entry i of FT[0] (R135), through the field product. -/
theorem forwardEntry_eq (s : Byte) : forwardEntry s = wordOf (gmul 2 s) s s (gmul 3 s) := by
  rw [forwardEntry, gmul_two, gmul_three, BitVec.xor_comm]

/-- Entry i of RT[0] (R136), through the field product. -/
theorem reverseEntry_eq (log : ByteTable) (r : Byte) :
    reverseEntry powTable (logTable log) r = wordOf (gmul 0x0E r) (gmul 0x09 r) (gmul 0x0D r) (gmul 0x0B r) := by
  simp only [reverseEntry, tableMul_eq_gmul]

/-! ## The table set a build leaves (R125) -/

section
variable (form : FaultForm) (mask : Vector Word 8) (pow log rsb : ByteTable)

theorem buildTableSet_fsb : (buildTableSet form mask pow log rsb).fsb = forwardSbox form mask pow log := by
  simp only [buildTableSet]

/-- RSB from the FSB of the same build (R130). -/
theorem buildTableSet_rsb :
    (buildTableSet form mask pow log rsb).rsb = reverseSbox rsb (buildTableSet form mask pow log rsb).fsb := by
  simp only [buildTableSet]

theorem buildTableSet_rcon : (buildTableSet form mask pow log rsb).rcon = rconTable := by simp only [buildTableSet]

/-- FSB[i] is 0x63 for i = 0, else the affine transform or the faulted value of the entry of POW that inverts i (R127-R129). -/
theorem tableAt_buildTableSet_fsb (i : Byte) :
    tableAt (buildTableSet form mask pow log rsb).fsb i =
      if i = 0 then 0x63 else affineOrFault form (tableAt pow (255 - tableAt log i)) (maskBit mask i) := by
  rw [buildTableSet_fsb, forwardSbox, tableAt_tableOf, sboxEntry]

/-- FT[k][i], through the field product (R135). -/
theorem tableAt_buildTableSet_ft (k : Fin 4) (i : Byte) :
    tableAt (buildTableSet form mask pow log rsb).ft[k.val] i =
      rotlWord8^[k.val]
        (wordOf (gmul 2 (tableAt (buildTableSet form mask pow log rsb).fsb i)) (tableAt (buildTableSet form mask pow log rsb).fsb i)
          (tableAt (buildTableSet form mask pow log rsb).fsb i)
          (gmul 3 (tableAt (buildTableSet form mask pow log rsb).fsb i))) := by
  have h : (buildTableSet form mask pow log rsb).ft = forwardTables (buildTableSet form mask pow log rsb).fsb := by
    simp only [buildTableSet]
  rw [h, forwardTables, tableAt_fourRotations, tableAt_tableOf, forwardEntry_eq]

/-- RT[k][i], through the field product (R136). -/
theorem tableAt_buildTableSet_rt (k : Fin 4) (i : Byte) :
    tableAt (buildTableSet form mask powTable (logTable log) rsb).rt[k.val] i =
      rotlWord8^[k.val]
        (wordOf (gmul 0x0E (tableAt (buildTableSet form mask powTable (logTable log) rsb).rsb i))
          (gmul 0x09 (tableAt (buildTableSet form mask powTable (logTable log) rsb).rsb i))
          (gmul 0x0D (tableAt (buildTableSet form mask powTable (logTable log) rsb).rsb i))
          (gmul 0x0B (tableAt (buildTableSet form mask powTable (logTable log) rsb).rsb i))) := by
  have h : (buildTableSet form mask powTable (logTable log) rsb).rt =
      reverseTables powTable (logTable log) (buildTableSet form mask powTable (logTable log) rsb).rsb := by
    simp only [buildTableSet]
  rw [h, reverseTables, tableAt_fourRotations, tableAt_tableOf, reverseEntry_eq]

end

/-- The round constants (R124). -/
theorem rconTable_toList : rconTable.toList = [0x01, 0x02, 0x04, 0x08, 0x10, 0x20, 0x40, 0x80, 0x1B, 0x36] := by decide +kernel

end Sys2Proof.Machine
end

