-- ==== Sys2Proof/Laws/Rounds.lean ====
section
/-! SUPPORT. Laws of the rounds: the two column maps that the T-tables hold, that they invert each other, and that a reverse round undoes a
forward one (R193-R196, R166, R171). -/

namespace Sys2Proof.Machine

/-- The column map of the forward T-tables (R135), on four bytes, through the field product. -/
def mixColumn (a b c d : Byte) : Word :=
  wordOf (gmul 2 a ^^^ gmul 3 b ^^^ c ^^^ d) (a ^^^ gmul 2 b ^^^ gmul 3 c ^^^ d) (a ^^^ b ^^^ gmul 2 c ^^^ gmul 3 d)
    (gmul 3 a ^^^ b ^^^ c ^^^ gmul 2 d)

/-- The column map of the reverse T-tables (R136), on four bytes, through the field product. -/
def unmixColumn (a b c d : Byte) : Word :=
  wordOf (gmul 0x0E a ^^^ gmul 0x0B b ^^^ gmul 0x0D c ^^^ gmul 0x09 d)
    (gmul 0x09 a ^^^ gmul 0x0E b ^^^ gmul 0x0B c ^^^ gmul 0x0D d)
    (gmul 0x0D a ^^^ gmul 0x09 b ^^^ gmul 0x0E c ^^^ gmul 0x0B d)
    (gmul 0x0B a ^^^ gmul 0x0D b ^^^ gmul 0x09 c ^^^ gmul 0x0E d)

/-- The column map of the reverse tables on the lanes of a word. -/
def unmixWord (w : Word) : Word := unmixColumn (byteLane w 0) (byteLane w 1) (byteLane w 2) (byteLane w 3)

theorem unmixColumn_xor (a b c d a' b' c' d' : Byte) :
    unmixColumn (a ^^^ a') (b ^^^ b') (c ^^^ c') (d ^^^ d') = unmixColumn a b c d ^^^ unmixColumn a' b' c' d' := by
  simp only [unmixColumn, wordOf_xor, gmul_xor_right]
  congr 1 <;> ac_rfl

theorem unmixWord_xor (v w : Word) : unmixWord (v ^^^ w) = unmixWord v ^^^ unmixWord w := by
  simp only [unmixWord, byteLane_xor, unmixColumn_xor]

/-- The four products of a row of the reverse map with a column of the forward map: 1 on the diagonal. -/
theorem unmix_mix_diag : ∀ x : Byte,
    gmul 0x0E (gmul 2 x) ^^^ gmul 0x0B x ^^^ gmul 0x0D x ^^^ gmul 0x09 (gmul 3 x) = x := by decide +kernel

/-- The same rows off the diagonal: 0. -/
theorem unmix_mix_off1 : ∀ x : Byte,
    gmul 0x0E (gmul 3 x) ^^^ gmul 0x0B (gmul 2 x) ^^^ gmul 0x0D x ^^^ gmul 0x09 x = 0 := by decide +kernel
theorem unmix_mix_off2 : ∀ x : Byte,
    gmul 0x0E x ^^^ gmul 0x0B (gmul 3 x) ^^^ gmul 0x0D (gmul 2 x) ^^^ gmul 0x09 x = 0 := by decide +kernel
theorem unmix_mix_off3 : ∀ x : Byte,
    gmul 0x0E x ^^^ gmul 0x0B x ^^^ gmul 0x0D (gmul 3 x) ^^^ gmul 0x09 (gmul 2 x) = 0 := by decide +kernel

/-- One lane of the reverse map after the forward map. -/
theorem unmix_mix_lane (a b c d : Byte) :
    gmul 0x0E (gmul 2 a ^^^ gmul 3 b ^^^ c ^^^ d) ^^^ gmul 0x0B (a ^^^ gmul 2 b ^^^ gmul 3 c ^^^ d) ^^^
      gmul 0x0D (a ^^^ b ^^^ gmul 2 c ^^^ gmul 3 d) ^^^ gmul 0x09 (gmul 3 a ^^^ b ^^^ c ^^^ gmul 2 d) = a := by
  simp only [gmul_xor_right]
  calc _ = (gmul 0x0E (gmul 2 a) ^^^ gmul 0x0B a ^^^ gmul 0x0D a ^^^ gmul 0x09 (gmul 3 a)) ^^^
        (gmul 0x0E (gmul 3 b) ^^^ gmul 0x0B (gmul 2 b) ^^^ gmul 0x0D b ^^^ gmul 0x09 b) ^^^
        (gmul 0x0E c ^^^ gmul 0x0B (gmul 3 c) ^^^ gmul 0x0D (gmul 2 c) ^^^ gmul 0x09 c) ^^^
        (gmul 0x0E d ^^^ gmul 0x0B d ^^^ gmul 0x0D (gmul 3 d) ^^^ gmul 0x09 (gmul 2 d)) := by ac_rfl
    _ = a := by
      rw [unmix_mix_diag, unmix_mix_off1, unmix_mix_off2, unmix_mix_off3]
      simp

/-- The reverse column map inverts the forward one. -/
theorem unmixWord_mixColumn (a b c d : Byte) : unmixWord (mixColumn a b c d) = wordOf a b c d := by
  have h0 := unmix_mix_lane a b c d
  have h1 := unmix_mix_lane b c d a
  have h2 := unmix_mix_lane c d a b
  have h3 := unmix_mix_lane d a b c
  simp only [unmixWord, mixColumn, unmixColumn, byteLane_wordOf_zero, byteLane_wordOf_one, byteLane_wordOf_two,
    byteLane_wordOf_three]
  congr 1
  · conv_rhs => rw [← h1]
    simp only [gmul_xor_right]
    ac_rfl
  · conv_rhs => rw [← h2]
    simp only [gmul_xor_right]
    ac_rfl
  · conv_rhs => rw [← h3]
    simp only [gmul_xor_right]
    ac_rfl

/-! ## Tables that are fault-free -/

/-- What a fault-free build makes of the table set (R137): RSB inverts FSB, and the T-tables are the column maps of one lane. -/
structure TableSet.FaultFree (t : TableSet) : Prop where
  rsb_fsb : ∀ b, tableAt t.rsb (tableAt t.fsb b) = b
  ft_entry : ∀ (k : Fin 4) (i : Byte),
    tableAt t.ft[k.val] i =
      rotlWord8^[k.val] (wordOf (gmul 2 (tableAt t.fsb i)) (tableAt t.fsb i) (tableAt t.fsb i) (gmul 3 (tableAt t.fsb i)))
  rt_entry : ∀ (k : Fin 4) (i : Byte),
    tableAt t.rt[k.val] i =
      rotlWord8^[k.val] (wordOf (gmul 0x0E (tableAt t.rsb i)) (gmul 0x09 (tableAt t.rsb i)) (gmul 0x0D (tableAt t.rsb i))
        (gmul 0x0B (tableAt t.rsb i)))

theorem rotlWord8_wordOf (a b c d : Byte) : rotlWord8 (wordOf a b c d) = wordOf d a b c :=
  word_ext_lanes fun k => by
    rw [byteLane_rotlWord8]
    fin_cases k <;> simp [show (-1 : Fin 4) = 3 from rfl]

/-- The four forward tables together are the column map of the substituted bytes. -/
theorem ft_column {t : TableSet} (h : t.FaultFree) (a b c d : Byte) :
    ftAt t 0 a ^^^ ftAt t 1 b ^^^ ftAt t 2 c ^^^ ftAt t 3 d =
      mixColumn (tableAt t.fsb a) (tableAt t.fsb b) (tableAt t.fsb c) (tableAt t.fsb d) := by
  simp only [ftAt, h.ft_entry]
  simp only [Fin.val_zero, Fin.val_one, show (2 : Fin 4).val = 2 from rfl, show (3 : Fin 4).val = 3 from rfl,
    Function.iterate_succ, Function.iterate_zero, Function.comp, id, rotlWord8_wordOf, wordOf_xor, mixColumn]

/-- The four reverse tables together are the reverse column map of the substituted bytes. -/
theorem rt_column {t : TableSet} (h : t.FaultFree) (a b c d : Byte) :
    rtAt t 0 a ^^^ rtAt t 1 b ^^^ rtAt t 2 c ^^^ rtAt t 3 d =
      unmixColumn (tableAt t.rsb a) (tableAt t.rsb b) (tableAt t.rsb c) (tableAt t.rsb d) := by
  simp only [rtAt, h.rt_entry]
  simp only [Fin.val_zero, Fin.val_one, show (2 : Fin 4).val = 2 from rfl, show (3 : Fin 4).val = 3 from rfl,
    Function.iterate_succ, Function.iterate_zero, Function.comp, id, rotlWord8_wordOf, wordOf_xor, unmixColumn]

/-- An inner word of a decryption schedule is the reverse column map of the encryption word (R166). -/
theorem inverseRoundWord_eq {t : TableSet} (h : t.FaultFree) (w : Word) : inverseRoundWord t w = unmixWord w := by
  rw [inverseRoundWord, rt_column h]
  simp only [h.rsb_fsb, unmixWord]

/-- The final forward round without its key: the substituted and shifted words (R195). -/
def subShift (t : TableSet) (x : Quad) : Quad := ffinal t x Quad.zero

theorem subShift_get (t : TableSet) (x : Quad) (j : Fin 4) :
    (subShift t x).get j =
      wordOf (tableAt t.fsb (laneOf forwardOffset x j 0)) (tableAt t.fsb (laneOf forwardOffset x j 1))
        (tableAt t.fsb (laneOf forwardOffset x j 2)) (tableAt t.fsb (laneOf forwardOffset x j 3)) := by
  simp [subShift, ffinal]

theorem ffinal_eq (t : TableSet) (x k : Quad) : ffinal t x k = k.xor (subShift t x) :=
  Quad.ext_get fun j => by
    rw [Quad.get_xor, subShift_get, ffinal, Quad.get_ofFn]

/-- A forward round is the column map of the substituted and shifted words, and the key (R193). -/
theorem fround_get {t : TableSet} (h : t.FaultFree) (x k : Quad) (j : Fin 4) :
    (fround t x k).get j =
      k.get j ^^^ mixColumn (byteLane ((subShift t x).get j) 0) (byteLane ((subShift t x).get j) 1)
        (byteLane ((subShift t x).get j) 2) (byteLane ((subShift t x).get j) 3) := by
  rw [subShift_get, byteLane_wordOf_zero, byteLane_wordOf_one, byteLane_wordOf_two, byteLane_wordOf_three, ← ft_column h,
    fround, Quad.get_ofFn]
  ac_rfl

/-- The reverse shift finds each byte where the forward shift took it from. -/
theorem rsb_lane_subShift {t : TableSet} (h : t.FaultFree) (x : Quad) (j k : Fin 4) :
    tableAt t.rsb (laneOf reverseOffset (subShift t x) j k) = byteLane (x.get j) k := by
  rw [laneOf, subShift_get]
  have hj : ∀ j k : Fin 4, j + reverseOffset k + forwardOffset k = j := by decide
  fin_cases k <;>
    simp only [byteLane_wordOf_zero, byteLane_wordOf_one, byteLane_wordOf_two, byteLane_wordOf_three, Fin.zero_eta, Fin.mk_one,
      Fin.reduceFinMk, h.rsb_fsb, laneOf, hj]

/-- A reverse round on substituted and shifted words is the reverse column map of the words themselves, and the key (R194). -/
theorem rround_subShift {t : TableSet} (h : t.FaultFree) (x k : Quad) :
    rround t (subShift t x) k = k.xor (Quad.ofFn fun j => unmixWord (x.get j)) :=
  Quad.ext_get fun j => by
    rw [Quad.get_xor, Quad.get_ofFn, rround, Quad.get_ofFn]
    have := rt_column h (laneOf reverseOffset (subShift t x) j 0) (laneOf reverseOffset (subShift t x) j 1)
      (laneOf reverseOffset (subShift t x) j 2) (laneOf reverseOffset (subShift t x) j 3)
    rw [rsb_lane_subShift h, rsb_lane_subShift h, rsb_lane_subShift h, rsb_lane_subShift h] at this
    rw [unmixWord, ← this]
    ac_rfl

/-- The final reverse round on substituted and shifted words is the words themselves, and the key (R196). -/
theorem rfinal_subShift {t : TableSet} (h : t.FaultFree) (x k : Quad) : rfinal t (subShift t x) k = k.xor x :=
  Quad.ext_get fun j => by
    rw [Quad.get_xor, rfinal, Quad.get_ofFn, rsb_lane_subShift h, rsb_lane_subShift h, rsb_lane_subShift h,
      rsb_lane_subShift h, wordOf_byteLane]

/-- A REVERSE ROUND UNDOES A FORWARD ROUND: with the reverse column map of the same round key, a reverse round takes the substituted
and shifted output of a forward round to its substituted and shifted input (R171). -/
theorem rround_fround {t : TableSet} (h : t.FaultFree) (x k : Quad) :
    rround t (subShift t (fround t x k)) (Quad.ofFn fun j => unmixWord (k.get j)) = subShift t x := by
  rw [rround_subShift h]
  refine Quad.ext_get fun j => ?_
  rw [Quad.get_xor, Quad.get_ofFn, Quad.get_ofFn, ← unmixWord_xor, fround_get h, ← BitVec.xor_assoc, BitVec.xor_self,
    BitVec.zero_xor, unmixWord_mixColumn, wordOf_byteLane]

end Sys2Proof.Machine
end

