-- ==== Sys2Proof/Tests/Slice0.lean ====
section
/-! SUPPORT. The model's own tests: the WellFormed smoke test, the decoding of words written out from the encoding of the spec, one step of
each command on values from 95_test_vectors.md, and a witness for the hypotheses of each statement of Obligations.lean. -/

namespace Sys2Proof.Tests

open Sys2Proof.Machine Sys2Proof.Statements

/-! ## WellFormed: an ill-formed term for each check, refused; the last well-formed index, accepted (R92) -/

theorem test_setkeyEnc_illFormed : (Instr.setkeyEnc 2).wellFormed Params.reference = false := by decide
theorem test_setkeyDec_illFormed : (Instr.setkeyDec 2).wellFormed Params.reference = false := by decide
theorem test_cryptEcb_illFormed : (Instr.cryptEcb 3).wellFormed Params.reference = false := by decide
theorem test_cryptCbc_illFormed : (Instr.cryptCbc 3).wellFormed Params.reference = false := by decide
theorem test_wipe_illFormed : (Instr.wipe 2).wellFormed Params.reference = false := by decide
theorem test_wipe_wellFormed : (Instr.wipe 1).wellFormed Params.reference = true := by decide
theorem test_global_wellFormed :
    Instr.nop.wellFormed Params.reference = true ∧ Instr.buildTables.wellFormed Params.reference = true := by decide

/-! ## Decode: words from the format of R90, RES (26 bits), CTX (2 bits), OPCODE (4 bits) -/

theorem test_decode_nop : decode Params.reference 0b00000000000000000000000000_00_0000 = .ok .nop := by rfl
theorem test_decode_buildTables : decode Params.reference 0b00000000000000000000000000_00_0001 = .ok .buildTables := by rfl
theorem test_decode_setkeyEnc : decode Params.reference 0b00000000000000000000000000_01_0010 = .ok (.setkeyEnc 1) := by rfl
theorem test_decode_setkeyDec : decode Params.reference 0b00000000000000000000000000_00_0011 = .ok (.setkeyDec 0) := by rfl
theorem test_decode_cryptEcb : decode Params.reference 0b00000000000000000000000000_01_0100 = .ok (.cryptEcb 1) := by rfl
theorem test_decode_cryptCbc : decode Params.reference 0b00000000000000000000000000_00_0101 = .ok (.cryptCbc 0) := by rfl
theorem test_decode_wipe : decode Params.reference 0b00000000000000000000000000_01_0110 = .ok (.wipe 1) := by rfl
theorem test_decode_wipe_c3 : decode { Params.reference with nCtx := 4 } 0b00000000000000000000000000_11_0110 = .ok (.wipe 3) := by rfl

/-- V7.1a to V7.1e, V7.20: the words rejected by name. -/
theorem test_decode_rejects :
    decode Params.reference 0x00000007 = .error .reservedOpcode ∧ decode Params.reference 0x0000000F = .error .reservedOpcode ∧
    decode Params.reference 0x00000040 = .error .reservedBits ∧ decode Params.reference 0xFFFFFFC4 = .error .reservedBits ∧
    decode Params.reference 0x00000011 = .error .ctxNotZero ∧ decode Params.reference 0x00000022 = .error .ctxOutOfRange ∧
    decode { Params.reference with nCtx := 1 } 0x00000012 = .error .ctxOutOfRange := ⟨rfl, rfl, rfl, rfl, rfl, rfl, rfl⟩

/-- The words of R102: 0x02 + 16N and so on. -/
theorem test_encode :
    encode .nop = 0 ∧ encode .buildTables = 1 ∧ encode (.setkeyEnc 1) = 0x12 ∧ encode (.setkeyDec 1) = 0x13 ∧
    encode (.cryptEcb 1) = 0x14 ∧ encode (.cryptCbc 1) = 0x15 ∧ encode (.wipe 1) = 0x16 := ⟨rfl, rfl, rfl, rfl, rfl, rfl, rfl⟩

theorem test_decodeTableWord :
    decodeTableWord 32 0x12 = some (.setkeyEnc 1) ∧ decodeTableWord 32 0x07 = none ∧ decodeTableWord 32 0x22 = none :=
  ⟨rfl, rfl, rfl⟩

/-! ## One step of each command -/

/-- The state an outcome goes on with. -/
def nextOf (o : Host.Outcome State Fault Refusal) : Option State :=
  match o with
  | .next t => some t
  | .fault _ => none
  | .refused _ => none

/-- What step gives on a state. -/
def stepped (s : State) : Option State := nextOf (step s)

/-- The next step of a state in which the command of a word has been issued. -/
def ran (s : State) (w : Nat) : Option State := stepped (s.withFetchWord 32 w)

theorem sboxTable_length : sboxTable.length = 256 := by decide +kernel

/-- The table set of R137, from the FSB table of 95_test_vectors.md §2 and the formulas of R130, R135 and R136. -/
def aesTables : TableSet :=
  let fsb : ByteTable := ⟨⟨sboxTable⟩, sboxTable_length⟩
  let rsb := reverseSbox (Vector.replicate 256 0) fsb
  { fsb := fsb
    rsb := rsb
    ft := fourRotations (tableOf fun i => wordOf (gmul 2 (tableAt fsb i)) (tableAt fsb i) (tableAt fsb i) (gmul 3 (tableAt fsb i)))
    rt := fourRotations (tableOf fun i =>
      wordOf (gmul 0x0E (tableAt rsb i)) (gmul 0x09 (tableAt rsb i)) (gmul 0x0D (tableAt rsb i)) (gmul 0x0B (tableAt rsb i)))
    rcon := #v[0x01, 0x02, 0x04, 0x08, 0x10, 0x20, 0x40, 0x80, 0x1B, 0x36] }

/-- The K128 encryption schedule of 95_test_vectors.md §3. -/
def k128Enc : Schedule :=
  #v[0x03020100, 0x07060504, 0x0B0A0908, 0x0F0E0D0C, 0xFD74AAD6, 0xFA72AFD2, 0xF178A6DA, 0xFE76ABD6,
    0x0BCF92B6, 0xF1BD3D64, 0x00C59BBE, 0xFEB33068, 0x4E74FFB6, 0xBFC9C2D2, 0xBF0C596C, 0x41BF6904,
    0xBCF7F747, 0x033E3595, 0xBC326CF9, 0xFD8D05FD, 0xE8A3AA3C, 0xEB9D9FA9, 0x57AFF350, 0xAA22F6AD,
    0x7D0F395E, 0x9692A6F7, 0xC13D55A7, 0x6B1FA30A, 0x1A70F914, 0x8CE25FE3, 0x4DDF0A44, 0x26C0A94E,
    0x35874347, 0xB9651CA4, 0xF4BA16E0, 0xD27ABFAE, 0xD1329954, 0x685785F0, 0x9CED9310, 0x4E972CBE,
    0x7F1D1113, 0x174A94E3, 0x8BA707F3, 0xC5302B4D, 0x00000000, 0x00000000, 0x00000000, 0x00000000,
    0x00000000, 0x00000000, 0x00000000, 0x00000000, 0x00000000, 0x00000000, 0x00000000, 0x00000000,
    0x00000000, 0x00000000, 0x00000000, 0x00000000, 0x00000000, 0x00000000, 0x00000000, 0x00000000]

/-- The K128 decryption schedule of 95_test_vectors.md §3. -/
def k128Dec : Schedule :=
  #v[0x7F1D1113, 0x174A94E3, 0x8BA707F3, 0xC5302B4D, 0xBE29AA13, 0xF6AF8F9C, 0x80F570F7, 0x03BFF700,
    0x63A46213, 0x4886258F, 0x765AFF6B, 0x834A87F7, 0x74FC828D, 0x2B22479C, 0x3EDCDAE4, 0xF510789C,
    0x8D09E372, 0x5FDEC511, 0x15FE9D78, 0xCBCCA278, 0x2710C42E, 0xD2D72663, 0x4A205869, 0xDE323F00,
    0x04F5A2A8, 0xF5C7E24D, 0x98F77E0A, 0x94126769, 0x91E3C6C7, 0xF13240E5, 0x6D309C47, 0x0CE51963,
    0x9902DBA0, 0x60D18622, 0x9C02DCA2, 0x61D58524, 0xF0DF568C, 0xF9D35D82, 0xFCD35A80, 0xFDD75986,
    0x03020100, 0x07060504, 0x0B0A0908, 0x0F0E0D0C, 0x00000000, 0x00000000, 0x00000000, 0x00000000,
    0x00000000, 0x00000000, 0x00000000, 0x00000000, 0x00000000, 0x00000000, 0x00000000, 0x00000000,
    0x00000000, 0x00000000, 0x00000000, 0x00000000, 0x00000000, 0x00000000, 0x00000000, 0x00000000]

/-- The K0 encryption schedule of 95_test_vectors.md §3. -/
def k0Enc : Schedule :=
  #v[0x00000000, 0x00000000, 0x00000000, 0x00000000, 0x63636362, 0x63636362, 0x63636362, 0x63636362,
    0xC998989B, 0xAAFBFBF9, 0xC998989B, 0xAAFBFBF9, 0x50349790, 0xFACF6C69, 0x3357F4F2, 0x99AC0F0B,
    0x7BDA06EE, 0x81156A87, 0xB2429E75, 0x2BEE917E, 0x882B2E7F, 0x093E44F8, 0xBB7CDA8D, 0x90924BF3,
    0x854B61EC, 0x8C752514, 0x3709FF99, 0xA79BB46A, 0x87177521, 0x0B625035, 0x3C6BAFAC, 0x9BF01BC6,
    0x3303F90E, 0x3861A93B, 0x040A0697, 0x9FFA1D51, 0xE2D8D4B1, 0xDAB97D8A, 0xDEB37B1D, 0x4149664C,
    0xCB5BEFB4, 0x11E2923E, 0xCF51E923, 0x8E188F6F, 0x00000000, 0x00000000, 0x00000000, 0x00000000,
    0x00000000, 0x00000000, 0x00000000, 0x00000000, 0x00000000, 0x00000000, 0x00000000, 0x00000000,
    0x00000000, 0x00000000, 0x00000000, 0x00000000, 0x00000000, 0x00000000, 0x00000000, 0x00000000]

/-- The key K128 in the KEY registers. -/
def k128Key : Vector Word 8 := #v[0x03020100, 0x07060504, 0x0B0A0908, 0x0F0E0D0C, 0, 0, 0, 0]

/-- Built tables, context 0 keyed with a schedule of NR = 10. -/
def keyed (rk : Schedule) : State :=
  { State.reset with tables := aesTables, tblDone := true, ctx := #v[⟨.ten, rk⟩, Context.blank, Context.blank, Context.blank] }

/-- V7.18: NOP from reset gives STATUS 0x00000002. -/
theorem test_nop_status : (ran State.reset 0x00).map (·.statusWord) = some 0x00000002 := by decide +kernel

/-- V7.1a: OPCODE 7 from reset gives STATUS 0x00000042. -/
theorem test_illegal_status : (ran State.reset 0x07).map (·.statusWord) = some 0x00000042 := by decide +kernel

/-- P1: BUILD_TABLES from reset gives STATUS 0x00001002. -/
theorem test_build_status : (ran State.reset 0x01).map (·.statusWord) = some 0x00001002 := by decide +kernel

/-- §2, row 0x53: FSB, FT[0] to FT[3], RT[0] to RT[3] after BUILD_TABLES from reset. -/
theorem test_build_entries :
    (ran State.reset 0x01).map (fun t => (tableAt t.tables.fsb 0x53, t.tables.ft.toList.map (fun u => tableAt u 0x53),
      t.tables.rt.toList.map (fun u => tableAt u 0x53))) =
      some (0xED, [0x2CEDEDC1, 0xEDEDC12C, 0xEDC12CED, 0xC12CEDED], [0x46BDE64D, 0xBDE64D46, 0xE64D46BD, 0x4D46BDE6]) := by
  decide +kernel

/-- P3: with FMASK0 = 0x00000800, FSB[0x0B] = 0x48, RSB[0x48] = 0xD4 and RSB[0x2B] = 0. -/
theorem test_build_faulted :
    (ran { State.reset with fmask := #v[0x00000800, 0, 0, 0, 0, 0, 0, 0] } 0x01).map
      (fun t => [tableAt t.tables.fsb 0x0B, tableAt t.tables.rsb 0x48, tableAt t.tables.rsb 0x2B]) =
      some [0x48, 0xD4, 0] := by decide +kernel

/-- P1, §3: SETKEY_ENC c0 of K128 writes the encryption schedule, and CTXINFO reads 0x0000000A. -/
theorem test_setkeyEnc :
    (ran { State.reset with tables := aesTables, tblDone := true, keybits := 128, key := k128Key } 0x02).map
      (fun t => (t.ctxInfoWord, (t.ctxAt 0).rk)) = some (0x0000000A, k128Enc) := by decide +kernel

/-- P1, §3: SETKEY_DEC c1 of K128 writes the decryption schedule (a word of the first, of an inner, of the last group, and the
first word above it), and CTXINFO reads 0x00000A00. -/
theorem test_setkeyDec :
    (ran { State.reset with tables := aesTables, tblDone := true, keybits := 128, key := k128Key } 0x13).map
      (fun t => (t.ctxInfoWord, (t.ctxAt 1).rk[0], (t.ctxAt 1).rk[7], (t.ctxAt 1).rk[41], (t.ctxAt 1).rk[44])) =
      some ((0x00000A00 : Word), k128Dec[0], k128Dec[7], k128Dec[41], (0 : Word)) := by decide +kernel

/-- P1, FIPS-197 C.1: encryption of 00112233445566778899aabbccddeeff under K128. -/
theorem test_ecb_encrypt :
    (ran { keyed k128Enc with mode := 1, din := ⟨0x33221100, 0x77665544, 0xBBAA9988, 0xFFEEDDCC⟩ } 0x04).map (·.dout) =
      some ⟨0xD8E0C469, 0x30047B6A, 0x80B7CDD8, 0x5AC5B470⟩ := by decide +kernel

/-- P1, FIPS-197 C.1: decryption of 69c4e0d86a7b0430d8cdb78070b4c55a under K128. -/
theorem test_ecb_decrypt :
    (ran { keyed k128Dec with mode := 0, din := ⟨0xD8E0C469, 0x30047B6A, 0x80B7CDD8, 0x5AC5B470⟩ } 0x04).map (·.dout) =
      some ⟨0x33221100, 0x77665544, 0xBBAA9988, 0xFFEEDDCC⟩ := by decide +kernel

/-- V5.9: CBC encryption of the last block of DATA_MEM in place, K0, IV 0. -/
theorem test_cbc_last_block :
    (ran { keyed k0Enc with
        mode := 1, src := 4080, dst := 4080, length := 16, mem := (List.range 16).map fun i => (4080 + i, 0) } 0x05).map
      (fun t => (t.iv, t.memWord 4080, t.memWord 4092, t.err)) =
      some (⟨0xD44BE966, 0x3B2C8AEF, 0x59FA4C88, 0x2E2B34CA⟩, 0xD44BE966, 0x2E2B34CA, .ok) := by decide +kernel

/-- V7.10: SRC + LENGTH above BUF_BYTES gives RANGE. -/
theorem test_cbc_range :
    (ran { keyed k0Enc with mode := 1, src := 4081, dst := 0, length := 16 } 0x05).map (·.statusWord) = some 0x00001052 := by
  decide +kernel

/-- V7.14: WIPE c0 empties a keyed context. -/
theorem test_wipe :
    (ran (keyed k0Enc) 0x06).map (fun t => (t.ctxInfoWord, (t.ctxAt 0).rk)) = some (0, Vector.replicate 64 0) := by
  decide +kernel

/-- V7.3: CRYPT_ECB on an empty context gives STATUS 0x00000262. -/
theorem test_ecb_empty : (ran { State.reset with mode := 1 } 0x04).map (·.statusWord) = some 0x00000262 := by decide +kernel

/-- V7.24: a byte write gets the ERROR response and changes nothing, even while BUSY. -/
theorem test_byte_write_refused :
    (stepped { State.reset with
      seq := .busy (.legal .nop) .start
      inbox := [.access { offset := 0x010, size := .bits8, kind := .write 7 }] }).map (fun t => (t.mode, t.haz, t.reply)) =
      some (0, false, some (.write .error)) := by decide +kernel

/-- V7.22: a write while BUSY is dropped and sets HAZ. -/
theorem test_busy_write :
    (stepped { State.reset with seq := .busy (.legal (.cryptEcb 0)) .start, inbox := [writeEvent 0x010 7] }).map
      (fun t => (t.mode, t.haz)) = some (0, true) := by decide +kernel

/-- V7.25, V7.26: KEY0 and CMD read 0, ID reads 0x41455307. -/
theorem test_reads :
    (stepped { State.reset with key := k128Key, inbox := [readEvent 0x044] }).map (·.reply) = some (some (.read .okay 0)) ∧
    (stepped { State.reset with inbox := [readEvent 0x000] }).map (·.reply) = some (some (.read .okay 0x41455307)) := by
  decide +kernel

/-- R63, R64: bytes 0 to 3 of a word are the lanes of the bus, lowest offset first. -/
theorem test_dataMem_byte_order :
    (stepped { State.reset with inbox := [writeEvent 0x1FFC 0x04030201] }).map (·.mem) =
      some [(4092, 1), (4093, 2), (4094, 3), (4095, 4)] := by decide +kernel

/-! ## Witnesses

For each statement with hypotheses, a concrete state and operands that meet all of them together; where clauses split a range, one
for each clause at its boundary. -/

/-- Reset, with c as the running command. -/
def running (i : Instr) : State := { State.reset with seq := .busy (.legal i) .start }

/-- Reset, with the host's events l to come. -/
def facing (l : List Event) : State := { State.reset with inbox := l }

/-- Reset with KEYBITS = 128, ready to be keyed. -/
def keyable : State := { State.reset with keybits := 128 }

/-- Context 0 keyed with NR = 10 and schedule words of 0; the tables count as built. -/
def keyedZero : State :=
  { State.reset with
    tblDone := true
    ctx := #v[⟨.ten, Vector.replicate 64 0⟩, Context.blank, Context.blank, Context.blank] }

/-- A CRYPT_CBC over one block, at the last in-range block of DATA_MEM. -/
def cbcOne : State := { keyedZero with mode := 1, src := 4080, dst := 4080, length := 16 }

/-- A CRYPT_CBC over two blocks whose output starts 16 bytes above its input. -/
def cbcOverlap : State := { keyedZero with mode := 1, src := 0, dst := 16, length := 32 }

theorem exists_exec (i : Instr) (s : State) : ∃ t : State, exec i s = .next t :=
  (exec_completes i s).imp fun _ h => h.1

theorem witness_DecodeInvertsEncode :
    (Instr.cryptCbc 1).wellFormed Params.reference = true ∧ (Instr.cryptCbc 3).wellFormed { Params.reference with nCtx := 4 } = true := by
  decide

theorem witness_EncodeInvertsDecode : decode Params.reference 0x15 = .ok (.cryptCbc 1) := rfl

/-- Words at the boundaries of R99's causes, and the last words below them. -/
theorem witness_IsIllegalWord :
    (IsIllegalWord Params.reference 64 ∧ IsIllegalWord Params.reference 0xFFFFFFFF ∧ IsIllegalWord Params.reference 7 ∧
      IsIllegalWord Params.reference 15 ∧ IsIllegalWord Params.reference 0x10 ∧ IsIllegalWord Params.reference 0x31 ∧
      IsIllegalWord Params.reference 0x22 ∧ IsIllegalWord Params.reference 0x36) ∧
    ¬ IsIllegalWord Params.reference 0 ∧ ¬ IsIllegalWord Params.reference 1 ∧ ¬ IsIllegalWord Params.reference 0x16 := by
  unfold IsIllegalWord
  refine ⟨⟨?_, ?_, ?_, ?_, ?_, ?_, ?_, ?_⟩, ?_, ?_, ?_⟩ <;> decide

theorem witness_CmdWriteIssues_idle :
    (facing [writeEvent 0x004 0x14]).rst = false ∧ (facing [writeEvent 0x004 0x14]).inbox = [writeEvent 0x004 0x14] ∧
      (facing [writeEvent 0x004 0x14]).seq = .idle := ⟨rfl, rfl, rfl⟩

theorem witness_CmdWriteIssues_busy :
    ∃ s : State, s.rst = false ∧ s.inbox = [writeEvent 0x004 0x14] ∧ s.seq = .busy (.legal .nop) .start :=
  ⟨{ running .nop with inbox := [writeEvent 0x004 0x14] }, rfl, rfl, rfl⟩

/-- For each clause, with the end of the execution as the next event. -/
theorem witness_FinishRunsLatchedCommand :
    (∃ s : State, s.rst = false ∧ s.seq = .busy (.legal (.wipe 1)) .start ∧ s.inbox = [] ∧ ¬ BuildsTables s (.wipe 1)) ∧
    (∀ phase : Phase, ∃ s : State, s.rst = false ∧ s.seq = .busy (.legal .buildTables) phase ∧ s.inbox = [.finish] ∧
      BuildsTables s .buildTables) := by
  refine ⟨⟨running (.wipe 1), rfl, rfl, rfl, ?_⟩,
    fun phase => ⟨{ State.reset with seq := .busy (.legal .buildTables) phase, inbox := [.finish] }, rfl, rfl, rfl, rfl, .inl rfl⟩⟩
  rintro ⟨-, h | ⟨c, h | h, -⟩⟩ <;> cases h

/-- A command that builds nothing (KEYBITS is 0) and one that builds. -/
theorem witness_CommandWordRuns :
    (∀ w ∈ [(0x12 : Word), 0x01], IdleThen (facing [writeEvent 0x004 w, .finish]) [writeEvent 0x004 w, .finish]) ∧
      decode State.reset.params 0x12 = .ok (.setkeyEnc 1) ∧ ¬ BuildsTables State.reset (.setkeyEnc 1) ∧
      decode State.reset.params 0x01 = .ok .buildTables ∧ BuildsTables State.reset .buildTables ∧
      decode State.reset.params (commandWord 32 0x12) = .ok (.setkeyEnc 1) := by
  refine ⟨fun _ _ => ⟨rfl, rfl, rfl⟩, rfl, ?_, rfl, ⟨rfl, .inl rfl⟩, rfl⟩
  rintro ⟨-, h | ⟨c, -, -, h, -⟩⟩
  · cases h
  · exact absurd h (by decide)

theorem witness_IllegalWordCompletesIllegal :
    IdleThen (facing [writeEvent 0x004 0x22, .finish]) [writeEvent 0x004 0x22, .finish] ∧
      IsIllegalWord (facing [writeEvent 0x004 0x22, .finish]).params 0x22 := by
  refine ⟨⟨rfl, rfl, rfl⟩, ?_⟩
  unfold IsIllegalWord
  decide

theorem witness_ErrorsArePrecise :
    ∃ t : State, exec (.cryptEcb 0) State.reset = .next t ∧ t.err ≠ .ok := ⟨_, rfl, by decide +kernel⟩

theorem witness_StatusCodeByPriority :
    (Instr.cryptCbc 1).wellFormed State.reset.params = true ∧
    ∃ s : State, s.rst = false ∧ s.seq = .busy .illegal .start ∧ s.inbox = [.finish] :=
  ⟨rfl, { State.reset with seq := .busy .illegal .start, inbox := [.finish] }, rfl, rfl, rfl⟩

/-- The clauses of R278 at their boundaries: KEYBITS 127 and 128, MODE 2, LENGTH 15, 0 and 16, a buffer one byte too long. -/
theorem witness_codeOf :
    codeOf { State.reset with keybits := 127 } (.setkeyEnc 0) = .invalidKeyLength ∧
    codeOf { State.reset with keybits := 128 } (.setkeyEnc 0) = .ok ∧
    codeOf { keyedZero with keybits := 256 } (.setkeyDec 0) = .undefinedUse ∧
    codeOf { keyedZero with mode := 2, length := 15 } (.cryptCbc 0) = .invalidMode ∧
    codeOf { keyedZero with mode := 1, length := 15 } (.cryptCbc 0) = .invalidInputLength ∧
    codeOf { State.reset with mode := 0, length := 0, src := 0xFFFFFFF0 } (.cryptCbc 0) = .ok ∧
    codeOf { State.reset with mode := 1, length := 16 } (.cryptCbc 0) = .undefinedUse ∧
    codeOf { keyedZero with mode := 1, length := 16, src := 4080 } (.cryptCbc 0) = .ok ∧
    codeOf { keyedZero with mode := 1, length := 16, src := 4081 } (.cryptCbc 0) = .range ∧
    codeOf { keyedZero with mode := 1, length := 16, dst := 0xFFFFFFF0 } (.cryptCbc 0) = .range := by decide +kernel

theorem witness_NoCancellation :
    ∃ s t : State, s.seq = .busy (.legal .buildTables) .start ∧ s.inbox = [.advance] ∧ Event.advance ≠ .finish ∧
      Event.advance ≠ .reset true ∧ step s = .next t :=
  ⟨{ running .buildTables with inbox := [.advance] }, _, rfl, rfl, nofun, nofun, rfl⟩

theorem witness_CommandsKeepWhatTheyDoNotWrite (i : Instr) : ∃ t : State, exec i State.reset = .next t := exists_exec i _

theorem witness_ContextsIndependent :
    contextOf (.wipe 0) ≠ some 1 ∧ ∃ t : State, exec (.wipe 0) State.reset = .next t := ⟨by decide, exists_exec _ _⟩

theorem witness_WipeClearsContext : CtxExists State.reset 1 := by
  unfold CtxExists
  decide

theorem witness_BuildTablesCompletes :
    keyedZero.tblDone = true ∧ State.reset.tblDone = false ∧ NotYetLatched State.reset ∧
      ¬ NotYetLatched { State.reset with seq := .busy (.legal .buildTables) .sboxLoop } :=
  ⟨rfl, rfl, nofun, fun h => absurd (h (.legal .buildTables) .sboxLoop rfl) (by decide)⟩

/-- For BuildPowLogRcon, TableProductIsFieldProduct, BuildForwardSbox, BuildReverseSbox and BuildTTables. -/
theorem witness_Builds : State.reset.tblDone = false ∧ ∃ t : State, exec .buildTables State.reset = .next t :=
  ⟨rfl, exists_exec _ _⟩

theorem witness_FaultFreeTables :
    State.reset.tblDone = false ∧ NotYetLatched State.reset ∧ State.reset.fmask = Vector.replicate 8 0 ∧
      ∃ t : State, exec .buildTables State.reset = .next t := ⟨rfl, nofun, rfl, exists_exec _ _⟩

/-- The mask that skips one index, at the two ends of the range the hook covers and at index 0x0B (P3). -/
theorem witness_FaultReach :
    State.reset.tblDone = false ∧ State.reset.BlankUntilBuilt ∧ NotYetLatched State.reset ∧
      State.reset.fmask = Vector.replicate 8 0 ∧
      (∀ p : Vector Word 8 × Byte, p ∈ [((#v[2, 0, 0, 0, 0, 0, 0, 0] : Vector Word 8), (1 : Byte)),
          (#v[0x800, 0, 0, 0, 0, 0, 0, 0], 0x0B), (#v[0, 0, 0, 0, 0, 0, 0, 0x80000000], 255)] →
        p.2 ≠ 0 ∧ ∀ i : Byte, i ≠ 0 → ((p.1.toList.getD (i.toNat / 32) 0).getLsbD (i.toNat % 32) = true ↔ i = p.2)) ∧
      ∃ t : State, exec .buildTables State.reset = .next t :=
  ⟨rfl, fun _ => ⟨rfl, rfl, rfl⟩, nofun, rfl, by decide +kernel, exists_exec _ _⟩

theorem witness_TablesWriteOnce :
    ∃ s t : State, s.tblDone = true ∧ s.inbox.head? ≠ some (.reset true) ∧ step s = .next t ∧ s.TrigBracket ∧ s.BuildLatched :=
  ⟨{ keyedZero with inbox := [writeEvent 0x0A0 0x800] }, _, rfl, nofun, rfl, by simp [State.TrigBracket, keyedZero, State.reset, State.resetWith],
    fun cmd phase h => by simp [keyedZero, State.reset, State.resetWith] at h⟩

/-- For SetkeyEncCompletes and SetkeyDecCompletes: each row of the table of R96. -/
theorem witness_SetkeyCompletes :
    ∀ row ∈ keyTable, ∃ s : State, CtxExists s 1 ∧ s.keybits = row.1 ∧ (s.ctxAt 1).nr = .empty :=
  fun row _ => by
    refine ⟨{ State.reset with keybits := row.1 }, ?_, rfl, ?_⟩
    · show 1 < Params.reference.nCtx
      decide
    · show (State.reset.ctxAt 1).nr = .empty
      decide

theorem witness_InvalidKeyLengthRefused :
    CtxExists { State.reset with keybits := 127 } 0 ∧ (127 : Word) ≠ 128 ∧ (127 : Word) ≠ 192 ∧ (127 : Word) ≠ 256 := by
  unfold CtxExists
  decide

theorem witness_RekeyRefused :
    CtxExists { keyedZero with keybits := 128 } 0 ∧ (keyedZero.ctxAt 0).nr ≠ .empty ∧
      (∃ t : State, exec (.wipe 0) { keyedZero with keybits := 128 } = .next t) ∧
      ∃ s t : State, s = { keyedZero with keybits := 128, inbox := [.reset true] } ∧ step s = .next t := by
  refine ⟨?_, by decide, exists_exec _ _, _, _, rfl, rfl⟩
  unfold CtxExists
  decide

theorem witness_SetkeyLeavesTablesBuilt :
    (∃ t : State, exec (.setkeyEnc 0) keyable = .next t ∧ t.err = .ok) ∧
    (∃ t : State, exec (.setkeyDec 0) State.reset = .next t ∧ t.err ≠ .ok) :=
  ⟨⟨_, rfl, by decide +kernel⟩, ⟨_, rfl, by decide +kernel⟩⟩

theorem witness_EcbCompletes :
    (∀ d : Direction, ∃ s : State, CtxExists s 0 ∧ modeIs d s.mode ∧ (s.ctxAt 0).nr ≠ .empty) := by
  intro d
  cases d
  · refine ⟨{ keyedZero with mode := 1 }, ?_, rfl, by decide⟩
    show 0 < Params.reference.nCtx
    decide
  · refine ⟨keyedZero, ?_, rfl, by decide⟩
    show 0 < Params.reference.nCtx
    decide

theorem witness_InvalidModeRefused : CtxExists { State.reset with mode := 2 } 0 ∧ (2 : Word) ≠ 1 ∧ (2 : Word) ≠ 0 := by
  unfold CtxExists
  decide

theorem witness_UnkeyedContextRefused :
    ∃ s : State, CtxExists s 0 ∧ s.mode = 1 ∧ (s.ctxAt 0).nr = .empty ∧ s.length.toNat % 16 = 0 ∧ 0 < s.length.toNat := by
  refine ⟨{ State.reset with mode := 1, length := 16 }, ?_, rfl, by decide, by decide, by decide⟩
  show 0 < Params.reference.nCtx
  decide

/-- SETKEY_ENC on slot 0 of a reset core with KEYBITS = 128. -/
def keyedOnce : State := keyable.keyEncrypt 0 ⟨4, .ten, 10⟩

/-- Then SETKEY_DEC on slot 1. -/
def keyedTwice : State := keyedOnce.keyDecrypt 1 ⟨4, .ten, 10⟩

theorem keyedOnce_tables : keyedOnce.tables = keyable.ensureTables.tables := by simp [keyedOnce, keyEncrypt_eq]

theorem keyedTwice_tables : keyedTwice.tables = keyedOnce.tables := by
  have h : keyedOnce.tblDone = true := by simp [keyedOnce, State.keyEncrypt]
  simp [keyedTwice, keyDecrypt_eq, ensureTables_of_done h]

theorem witness_EcbRoundTrip :
    ∃ a' b' p p' q q' : State, exec (.setkeyEnc 0) keyable = .next a' ∧ a'.err = .ok ∧ exec (.setkeyDec 1) a' = .next b' ∧
      b'.err = .ok ∧ keyable.keybits = a'.keybits ∧ keyable.key = a'.key ∧ FaultFreeBuild a'.tables ∧ FaultFreeBuild b'.tables ∧
      p.tables = a'.tables ∧ p.ctxAt 0 = a'.ctxAt 0 ∧ CtxExists p 0 ∧ p.mode = 1 ∧ exec (.cryptEcb 0) p = .next p' ∧
      q.tables = b'.tables ∧ q.ctxAt 1 = b'.ctxAt 1 ∧ CtxExists q 1 ∧ q.mode = 0 ∧ q.din = p'.dout ∧
      exec (.cryptEcb 1) q = .next q' := by
  have hk : keyedOnce.keybits = 128 ∧ keyedOnce.key = keyable.key ∧ keyedOnce.params = Params.reference := by
    simp [keyedOnce, keyEncrypt_eq, keyable, State.reset, State.resetWith]
  have h1 : exec (.setkeyEnc 0) keyable = .next keyedOnce := exec_setkeyEnc (by decide) rfl (by decide)
  have h2 : exec (.setkeyDec 1) keyedOnce = .next keyedTwice :=
    exec_setkeyDec (by rw [hk.2.2]; decide) (by rw [hk.1]; rfl) (by
      rw [keyedOnce, keyEncrypt_eq]
      simp [State.ctxAt, State.setCtx, keyable, State.reset, State.resetWith, Context.blank])
  have hf : FaultFreeBuild keyedOnce.tables :=
    ⟨keyable, _, rfl, nofun, rfl, exec_buildTables _, by rw [keyedOnce_tables, complete_tables]⟩
  let p : State := { keyedOnce with mode := 1, params := Params.reference }
  obtain ⟨p', hp⟩ := exists_exec (.cryptEcb 0) p
  let q : State := { keyedTwice with mode := 0, din := p'.dout, params := Params.reference }
  obtain ⟨q', hq⟩ := exists_exec (.cryptEcb 1) q
  exact ⟨_, _, p, p', q, q', h1, rfl, h2, rfl, hk.1.symm, hk.2.1.symm, hf, keyedTwice_tables ▸ hf, rfl, rfl,
    show 0 < 2 by decide, rfl, hp, rfl, rfl, show 1 < 2 by decide, rfl, rfl, hq⟩

theorem witness_CbcEncryptCompletes : CbcReady cbcOne 0 ∧ cbcOne.mode = 1 ∧ NoLateRead cbcOne := by
  unfold CbcReady CtxExists NoLateRead
  decide +kernel

theorem witness_CbcDecryptCompletes :
    CbcReady { cbcOne with mode := 0 } 0 ∧ ({ cbcOne with mode := 0 } : State).mode = 0 ∧ NoLateRead { cbcOne with mode := 0 } := by
  unfold CbcReady CtxExists NoLateRead
  decide +kernel

/-- The two sides of NoLateRead: input just below the output, and output just below the input. -/
theorem witness_NoLateRead :
    NoLateRead { cbcOne with src := 0, dst := 16 } ∧ NoLateRead { cbcOne with src := 16, dst := 0 } ∧ ¬ NoLateRead cbcOverlap := by
  unfold NoLateRead
  decide +kernel

theorem witness_CbcCompletesOnAnyBuffers :
    CbcReady cbcOverlap 0 ∧ modeIs .encrypt cbcOverlap.mode ∧ CbcReady { cbcOverlap with mode := 0 } 0 ∧
      modeIs .decrypt ({ cbcOverlap with mode := 0 } : State).mode := by
  unfold CbcReady CtxExists modeIs
  decide +kernel

theorem witness_CbcStreamContinuation :
    cbcOverlap.ParamsLegal ∧ CbcReady cbcOverlap 0 ∧ modeIs .encrypt cbcOverlap.mode ∧ cbcOverlap.length.toNat = 16 + 16 ∧
      ∃ t t₁ t₂ : State, exec (.cryptCbc 0) cbcOverlap = .next t ∧
        exec (.cryptCbc 0) { cbcOverlap with length := BitVec.ofNat 32 16 } = .next t₁ ∧
        exec (.cryptCbc 0) { t₁ with length := BitVec.ofNat 32 16, src := BitVec.ofNat 32 16, dst := BitVec.ofNat 32 32 } =
          .next t₂ := by
  obtain ⟨t, h⟩ := exists_exec (.cryptCbc 0) cbcOverlap
  obtain ⟨t₁, h₁⟩ := exists_exec (.cryptCbc 0) { cbcOverlap with length := BitVec.ofNat 32 16 }
  obtain ⟨t₂, h₂⟩ := exists_exec (.cryptCbc 0)
    { t₁ with length := BitVec.ofNat 32 16, src := BitVec.ofNat 32 16, dst := BitVec.ofNat 32 32 }
  refine ⟨?_, ?_, rfl, ?_, t, t₁, t₂, h, h₁, h₂⟩
  · unfold State.ParamsLegal
    decide +kernel
  · unfold CbcReady CtxExists
    decide +kernel
  · decide +kernel

theorem witness_CbcZeroLength :
    CtxExists State.reset 1 ∧ State.reset.length = 0 ∧ State.reset.mode = 0 ∧ ({ State.reset with mode := 5 } : State).mode ≠ 1 ∧
      ({ State.reset with mode := 5 } : State).mode ≠ 0 := by
  unfold CtxExists
  decide +kernel

theorem witness_CbcBadBuffersRefused :
    (∃ s : State, CtxExists s 0 ∧ s.mode = 1 ∧ s.length.toNat % 16 ≠ 0) ∧
    (∃ s : State, CtxExists s 0 ∧ s.mode = 1 ∧ s.length.toNat % 16 = 0 ∧ 0 < s.length.toNat ∧ (s.ctxAt 0).nr ≠ .empty ∧
      s.params.bufBytes < s.src.toNat + s.length.toNat) ∧
    (∃ s : State, CtxExists s 0 ∧ s.mode = 1 ∧ s.length.toNat % 16 = 0 ∧ 0 < s.length.toNat ∧ (s.ctxAt 0).nr ≠ .empty ∧
      s.params.bufBytes < s.dst.toNat + s.length.toNat) := by
  refine ⟨⟨{ cbcOne with length := 17 }, ?_⟩, ⟨{ cbcOne with src := 4081 }, ?_⟩, ⟨{ cbcOne with dst := 0xFFFFFFF0 }, ?_⟩⟩ <;>
    unfold CtxExists <;> decide +kernel

theorem witness_AccessAdmission :
    (∃ s : State, ∃ a : BusAccess, s.rst = false ∧ s.inbox = [.access a] ∧ a.size ≠ .bits32 ∧ a.kind = .read) ∧
    (∃ s : State, ∃ a : BusAccess, s.rst = false ∧ s.inbox = [.access a] ∧ a.offset.toNat % 4 ≠ 0 ∧ a.kind = .write 7) ∧
    (∃ s : State, ∃ a : BusAccess, s.rst = false ∧ s.inbox = [.access a] ∧ a.size = .bits32 ∧ a.offset.toNat % 4 = 0) :=
  ⟨⟨facing [.access ⟨0x010, .bits16, .read⟩], ⟨0x010, .bits16, .read⟩, rfl, rfl, nofun, rfl⟩,
    ⟨facing [.access ⟨0x011, .bits32, .write 7⟩], ⟨0x011, .bits32, .write 7⟩, rfl, rfl, by decide, rfl⟩,
    ⟨facing [.access ⟨0x1FFC, .bits32, .read⟩], ⟨0x1FFC, .bits32, .read⟩, rfl, rfl, rfl, rfl⟩⟩

theorem witness_BusyWriteDropped :
    ∃ s : State, s.rst = false ∧ s.seq = .busy .illegal .start ∧ (0xFFC : BitVec 13).toNat % 4 = 0 ∧ s.inbox = [writeEvent 0xFFC 1] :=
  ⟨{ State.reset with seq := .busy .illegal .start, inbox := [writeEvent 0xFFC 1] }, rfl, rfl, rfl, rfl⟩

/-- A read while BUSY at each offset a clause of BusyReads names, the last word of DATA_MEM among them. -/
theorem witness_BusyReads :
    ∀ o ∈ [(0x000 : BitVec 13), 0x008, 0x024, 0x07C, 0x08C, 0x1FFC, 0x010, 0xFFC], ∃ s : State,
      s.rst = false ∧ s.seq = .busy (.legal .nop) .start ∧ s.BusyFlags ∧ o.toNat % 4 = 0 ∧ s.inbox = [readEvent o] :=
  fun o ho => ⟨{ running .nop with inbox := [readEvent o] }, rfl, rfl, fun _ => ⟨rfl, rfl⟩, by
    simp only [List.mem_cons, List.not_mem_nil, or_false] at ho
    rcases ho with rfl | rfl | rfl | rfl | rfl | rfl | rfl | rfl <;> rfl, rfl⟩

/-- The clauses of BusyReads that a running command closes or leaves open. -/
theorem witness_BusyReads_clauses :
    mayBuild (.legal (.cryptEcb 0)) = false ∧ mayWriteCtxInfo (.legal .buildTables) = false ∧ isEcb (.legal (.cryptCbc 0)) = false ∧
      isCbc (.legal (.cryptEcb 0)) = false ∧ offsetAt 0x070 3 = 0x07C ∧ offsetAt 0x080 3 = 0x08C ∧ offsetAt 0x1000 1023 = 0x1FFC ∧
      ¬ isOutput cbcOne 4079 ∧ isOutput cbcOne 4080 ∧ isOutput cbcOne 4095 ∧ ¬ isOutput cbcOne 4096 := by
  unfold isOutput
  decide +kernel

/-- For IdleReadMap and IdleWriteMap. -/
theorem witness_IdleMap :
    State.reset.seq = .idle ∧ State.reset.rst = false ∧ State.reset.params.bufBytes ≤ 4096 := by decide +kernel

/-- The ends of the ranges of IsReservedOffset, and that no register of R22 and no DATA_MEM word is among them. -/
theorem witness_IsReservedOffset :
    (∀ o ∈ [0x028, 0x03C, 0x090, 0x09C, 0x0C0, 0xFFC], IsReservedOffset o) ∧
    (∀ o ∈ [0x000, 0x024, 0x040, 0x05C, 0x060, 0x06C, 0x070, 0x07C, 0x080, 0x08C, 0x0A0, 0x0BC, 0x1000, 0x1FFC],
      ¬ IsReservedOffset o) := by
  unfold IsReservedOffset
  decide

/-- The DATA_MEM clauses at their boundaries: the last word below BUF_BYTES = 16, the first above it, the last of the window. -/
theorem witness_IdleMap_dataMem : 4 * 3 + 4 ≤ 16 ∧ 16 < 4 * 4 + 4 ∧ 4 * 1023 + 4 ≤ 4096 := by decide

theorem witness_SecretsNotReadable :
    ∃ s t s' t' : State, AgreeButSecrets s t ∧ s ≠ t ∧ s.inbox = [readEvent 0x040] ∧ step s = .next s' ∧ step t = .next t' := by
  refine ⟨facing [readEvent 0x040], { facing [readEvent 0x040] with key := k128Key }, _, _, ⟨fun _ => rfl, rfl⟩, ?_, rfl, rfl, rfl⟩
  intro h
  exact absurd (congrArg (fun s : State => s.key[0]) h) (by decide)

theorem witness_DoneDrivesIrq :
    (∃ t : State, exec .nop State.reset = .next t) ∧
    (∀ l ∈ [[writeEvent 0x004 0], [writeEvent 0x008 2], [writeEvent 0x008 0], [writeEvent 0x00C 1]],
      ∃ s t : State, s.seq = .idle ∧ s.rst = false ∧ step s = .next t ∧ s.inbox = l ∧ s.done = true) := by
  refine ⟨exists_exec _ _, fun l hl => ?_⟩
  simp only [List.mem_cons, List.not_mem_nil, or_false] at hl
  rcases hl with rfl | rfl | rfl | rfl
  · exact ⟨{ facing [writeEvent 0x004 0] with done := true }, _, rfl, rfl, rfl, rfl, rfl⟩
  · exact ⟨{ facing [writeEvent 0x008 2] with done := true }, _, rfl, rfl, rfl, rfl, rfl⟩
  · exact ⟨{ facing [writeEvent 0x008 0] with done := true }, _, rfl, rfl, rfl, rfl, rfl⟩
  · exact ⟨{ facing [writeEvent 0x00C 1] with done := true }, _, rfl, rfl, rfl, rfl, rfl⟩

theorem witness_StickyFlags :
    ∃ s t : State, step s = .next t ∧ s.inbox.head? ≠ some (.reset true) ∧ s.isBusy = true ∧ s.rst = false ∧
      s.inbox = [writeEvent 0x028 1] :=
  ⟨{ running .nop with inbox := [writeEvent 0x028 1] }, _, rfl, nofun, rfl, rfl, rfl⟩

/-- A build, a SETKEY that passes its checks (its context the last one), one that fails a check, and a command that builds nothing,
each with every inbox of the first part. -/
theorem witness_TriggerEdges (i : Instr) (hi : i = .buildTables ∨ i = .setkeyDec 1 ∨ i = .setkeyEnc 2 ∨ i = .nop) :
    (∀ l ∈ [[], [Event.finish], [.advance, .advance]], ∃ s t u : State, s.rst = false ∧ s.seq = .busy (.legal i) .start ∧
      s.trig = false ∧ s.inbox = l ∧ step s = .next t ∧ step t = .next u ∧
      (BuildsTables s i ↔ i = .buildTables ∨ i = .setkeyDec 1)) := by
  intro l hl
  simp only [List.mem_cons, List.not_mem_nil, or_false] at hl
  rcases hi with rfl | rfl | rfl | rfl <;> rcases hl with rfl | rfl | rfl <;>
    refine ⟨{ running _ with trigEn := true, keybits := 256, inbox := _ }, _, _, rfl, rfl, rfl, rfl, rfl, rfl, ?_⟩
  iterate 3 exact ⟨fun _ => .inl rfl, fun _ => ⟨rfl, .inl rfl⟩⟩
  iterate 3 exact ⟨fun _ => .inr rfl, fun _ => ⟨rfl, .inr ⟨1, .inr rfl, show 1 < 2 by decide, .inr (.inr rfl), rfl⟩⟩⟩
  all_goals
    refine ⟨?_, nofun⟩
    rintro ⟨-, h | ⟨c, h | h, hc, -⟩⟩ <;> cases h
  all_goals exact absurd hc (by unfold CtxExists; decide)

/-- The second part: a build at its end, and one that leaves its loop. -/
theorem witness_TriggerEdges_end :
    (∃ s t : State, s.rst = false ∧ s.seq = .busy (.legal .buildTables) .tail ∧ BuildsTables s .buildTables ∧
      s.inbox.head? ≠ some (.reset true) ∧ step s = .next t ∧ t.seq = .idle) ∧
    (∃ s t : State, s.rst = false ∧ s.seq = .busy (.legal .buildTables) .sboxLoop ∧ BuildsTables s .buildTables ∧
      s.inbox.head? ≠ some (.reset true) ∧ step s = .next t ∧ t.seq = .busy (.legal .buildTables) .tail) :=
  ⟨⟨{ State.reset with seq := .busy (.legal .buildTables) .tail }, _, rfl, rfl, ⟨rfl, .inl rfl⟩, nofun, rfl, rfl⟩,
    ⟨{ State.reset with seq := .busy (.legal .buildTables) .sboxLoop }, _, rfl, rfl, ⟨rfl, .inl rfl⟩, nofun, rfl, rfl⟩⟩

/-- R131: a BUILD_TABLES with TRIG_EN = 1 and nothing else to come shows `trig` 1 once, and 0 before and after. -/
theorem test_build_trigger :
    (List.range 4).map (fun n => match Sys2Proof.core.run n { running .buildTables with trigEn := true } with
      | .next t => (State.trig t, State.isBusy t)
      | .fault _ => (true, true)
      | .refused _ => (true, true)) = [(false, true), (true, true), (false, true), (false, false)] := by decide +kernel

theorem witness_TriggerBracketKept :
    ∃ s t : State, s.TrigBracket ∧ s.BuildLatched ∧ s.trig = true ∧ step s = .next t := by
  refine ⟨{ State.reset with
      seq := .busy (.legal .buildTables) .sboxLoop, trig := true, trLatch := true, trigEn := true, inbox := [.advance] }, _,
    ⟨fun _ => ⟨⟨_, rfl⟩, rfl⟩, fun _ => rfl⟩, fun cmd phase h _ => ?_, rfl, rfl⟩
  cases h
  exact ⟨⟨_, rfl, rfl⟩, rfl, rfl⟩

theorem witness_ResetState : ∃ s : State, s.inbox = [.reset true] ∧ s.seq = .busy (.legal .buildTables) .sboxLoop :=
  ⟨{ State.reset with seq := .busy (.legal .buildTables) .sboxLoop, inbox := [.reset true] }, rfl, rfl⟩

theorem witness_HeldInResetIgnoresBus :
    ∃ s t : State, s.rst = true ∧ s.inbox = [writeEvent 0x010 1] ∧ step s = .next t ∧
      (∀ level, writeEvent 0x010 1 ≠ .reset level) :=
  ⟨{ State.reset with rst := true, inbox := [writeEvent 0x010 1] }, _, rfl, rfl, rfl, nofun⟩

theorem witness_KeyedHasTablesKept :
    ∃ s t : State, s.KeyedHasTables ∧ (s.ctxAt 0).nr ≠ .empty ∧ step s = .next t :=
  ⟨{ keyedZero with inbox := [writeEvent 0x004 6] }, _, fun _ _ => rfl, by decide, rfl⟩

theorem witness_MemoryCanonicalKept :
    ∃ s t : State, s.MemoryCanonical ∧ s.mem = [(0, 1), (4095, 2)] ∧ step s = .next t := by
  refine ⟨{ State.reset with mem := [(0, 1), (4095, 2)], inbox := [writeEvent 0x1FFC 7] }, _, ⟨rfl, ?_⟩, rfl, rfl⟩
  intro cell h
  change cell ∈ [((0 : Nat), (1 : BitVec 8)), (4095, 2)] at h
  show cell.1 < 4096
  simp only [List.mem_cons, List.not_mem_nil, or_false] at h
  rcases h with rfl | rfl <;> decide

/-- A safe state other than reset: the core while `rst` is asserted. -/
theorem witness_SafeKept : ∃ s t : State, s.Safe ∧ s.rst = true ∧ step s = .next t := by
  have hc : ∀ c : CtxIdx, ({ State.reset with rst := true, inbox := [.reset false] } : State).ctxAt c = Context.blank := by
    intro c
    simp [State.ctxAt, State.reset, State.resetWith]
  refine ⟨{ State.reset with rst := true, inbox := [.reset false] }, _, ?_, rfl, rfl⟩
  constructor
  · unfold State.ParamsLegal
    decide
  · exact ⟨rfl, nofun⟩
  · intro c
    rw [hc]
    exact ⟨fun _ => rfl, fun _ => rfl⟩
  · intro c h
    rw [hc] at h
    exact absurd rfl h
  · intro c h
    rw [hc] at h
    exact absurd rfl h
  · exact fun _ => ⟨rfl, rfl, rfl⟩
  · exact nofun
  · exact ⟨rfl, rfl, rfl, rfl, rfl⟩
  · exact ⟨nofun, fun h => by obtain ⟨⟨_, h⟩, -⟩ := h; cases h⟩
  · exact nofun
  · exact nofun
  · exact nofun
  · exact nofun
  · exact fun _ => rfl

end Sys2Proof.Tests
end

/-! SUPPORT. Proofs of the statements of 10_state.md. Every step is a `Move` of the core (below), up to the inbox and the port's
own lines; an invariant is kept because every move keeps it. -/

namespace Sys2Proof.Machine

open Sys2Proof.Statements

/-! ### Rules of the state operations -/

@[simp] theorem ensureTables_ctxAt (s : State) (c : CtxIdx) : s.ensureTables.ctxAt c = s.ctxAt c := by simp [State.ctxAt]

/-- A register write touches the registers and flags the host can write, SEQ and DATA_MEM, and nothing else (R22, R23). -/
theorem writeReg_frame (s : State) (r : Reg) (v : Word) :
    s.writeReg r v =
      { s with
        seq := (s.writeReg r v).seq
        done := (s.writeReg r v).done
        err := (s.writeReg r v).err
        irqEn := (s.writeReg r v).irqEn
        trigEn := (s.writeReg r v).trigEn
        mode := (s.writeReg r v).mode
        keybits := (s.writeReg r v).keybits
        length := (s.writeReg r v).length
        src := (s.writeReg r v).src
        dst := (s.writeReg r v).dst
        key := (s.writeReg r v).key
        din := (s.writeReg r v).din
        iv := (s.writeReg r v).iv
        fmask := (s.writeReg r v).fmask
        mem := (s.writeReg r v).mem } := by
  cases r <;> rfl

/-- A register write issues a command, or leaves SEQ and ERR alone. -/
theorem writeReg_cases (s : State) (r : Reg) (v : Word) :
    s.writeReg r v = s.issue v ∨ ((s.writeReg r v).seq = s.seq ∧ (s.writeReg r v).err = s.err) := by
  cases r with
  | cmd => exact .inl rfl
  | _ => exact .inr ⟨rfl, rfl⟩

/-- A build that enters its S-box loop latches FMASK and TRIG_EN and shows the latter on `trig` (R125, R131). -/
theorem enterSboxLoop_of_start {s : State} {i : Instr} (h : s.seq = .busy (.legal i) .start) :
    s.enterSboxLoop i =
      { s with seq := .busy (.legal i) .sboxLoop, maskLatch := s.fmask, trLatch := s.trigEn, trig := s.trigEn } := by
  simp only [State.enterSboxLoop, State.latchBuild, h]

theorem isBusy_iff (s : State) : s.isBusy = true ↔ ∃ cmd phase, s.seq = .busy cmd phase := by
  unfold State.isBusy
  split
  · next h => simp [h]
  · next cmd phase h => simp [h]

theorem isBusy_of_busy {s : State} {cmd : Command} {phase : Phase} (h : s.seq = .busy cmd phase) : s.isBusy = true :=
  (isBusy_iff s).mpr ⟨cmd, phase, h⟩

@[simp] theorem complete_isBusy (s : State) (e : StatusCode) : (s.complete e).isBusy = false := rfl

theorem seq_eq_idle_of_not_busy {s : State} (h : s.isBusy = false) : s.seq = .idle := by
  cases hs : s.seq with
  | idle => rfl
  | busy cmd phase => exact absurd (isBusy_of_busy hs) (by simp [h])

theorem admittedWrite_of_idle {s : State} (hb : s.isBusy = false) (r : Reg) (v : Word) :
    s.admittedWrite r v = { s.writeReg r v with reply := some (.write .okay) } := by
  rw [State.admittedWrite, hb]
  rfl

theorem admittedWrite_of_busy {s : State} (hb : s.isBusy = true) (r : Reg) (v : Word) :
    s.admittedWrite r v = { s with haz := true, reply := some (.write .okay) } := by
  rw [State.admittedWrite, hb]
  rfl

theorem decodeGlobal_eq_ok {c : CtxIdx} {i j : Instr} (h : decodeGlobal c j = .ok i) : i = j ∧ c.val = 0 := by
  unfold decodeGlobal at h
  split at h
  · next hc => exact ⟨(Except.ok.inj h).symm, hc⟩
  · cases h

theorem decodeContext_eq_ok {p : Params} {c : CtxIdx} {i j : Instr} (h : decodeContext p c j = .ok i) :
    i = j ∧ c.val < p.nCtx := by
  unfold decodeContext at h
  split at h
  · next hc => exact ⟨(Except.ok.inj h).symm, hc⟩
  · cases h

/-- A word that decodes gives a well-formed command (R91, R92). -/
theorem wellFormed_of_decode {p : Params} {w : Word} {i : Instr} (h : decode p w = .ok i) : i.wellFormed p = true := by
  unfold decode at h
  split at h
  · cases h
  · unfold decodeOpcode at h
    split at h
    iterate 2
      · obtain ⟨rfl, -⟩ := decodeGlobal_eq_ok h
        rfl
    iterate 5
      · obtain ⟨rfl, hc⟩ := decodeContext_eq_ok h
        exact decide_eq_true hc
    · cases h

theorem wellFormed_of_commandOf {p : Params} {w : Word} {i : Instr} (h : commandOf p w = .legal i) :
    i.wellFormed p = true := by
  unfold commandOf at h
  split at h
  · next j hd =>
    cases h
    exact wellFormed_of_decode hd
  · cases h

theorem keyParams_nr_ne_empty {keybits : Word} {kp : KeyParams} (h : keyParams keybits = some kp) : kp.nr ≠ .empty := by
  unfold keyParams at h
  split_ifs at h <;> cases h <;> decide

/-! ### What a step does to the core -/

/-- What the end of an execution does to the core before it completes (R252): nothing, or the command's own effect. -/
inductive Effect (s : State) : State → Prop where
  | none : Effect s s
  | build : Effect s s.ensureTables
  | setkey (c : CtxIdx) (kp : KeyParams) (rk k : Schedule) (hc : c.val < s.params.nCtx) (hk : keyParams s.keybits = some kp)
      (hrk : rk = expandEnc s.ensureTables.tables s.key kp ∨
        rk = expandDec s.ensureTables.tables (expandEnc s.ensureTables.tables s.key kp) kp.nr.toNat)
      (ht : k = s.tmpk ∨ k = zeroSchedule) :
      Effect s { s.ensureTables.setCtx c { nr := kp.nr, rk := rk } with tmpk := k }
  | ecb (output : Quad) : Effect s { s with dout := output, x := Quad.zero, y := Quad.zero }
  | cbc (m : Memory) (iv : Quad) (hm : s.MemoryCanonical → ({ s with mem := m } : State).MemoryCanonical) :
      Effect s { s with mem := m, iv := iv, x := Quad.zero, y := Quad.zero, chain := zeroBytes, save := zeroBytes }
  | wipe (c : CtxIdx) (hc : c.val < s.params.nCtx) : Effect s (s.wipeContext c)

/-- One step of the core, apart from the lines of the port; head is the event it answers. -/
inductive Move (s : State) (head : Option Event) : State → Prop where
  | stay : Move s head s
  | write (r : Reg) (v : Word) (hs : s.seq = .idle) (hr : s.rst = false)
      (hm : ∀ w, r = .dataMem w → 4 * w + 4 ≤ s.params.bufBytes) : Move s head (s.writeReg r v)
  | hazard (o : BitVec 13) (v : Word) (hh : head = some (writeEvent o v)) (ho : o.toNat % 4 = 0) (hb : s.isBusy = true)
      (hr : s.rst = false) : Move s head { s with haz := true }
  | enterLoop (i : Instr) (hs : s.seq = .busy (.legal i) .start) (hb : s.buildsTables i = true) :
      Move s head
        { s with seq := .busy (.legal i) .sboxLoop, maskLatch := s.fmask, trLatch := s.trigEn, trig := s.trigEn }
  | leaveLoop (i : Instr) (hs : s.seq = .busy (.legal i) .sboxLoop) : Move s head (s.leaveSboxLoop i)
  | finish (u : State) (e : StatusCode) (hb : s.isBusy = true) (hp : s.edgePending = false) (hu : Effect s u) :
      Move s head (u.complete e)
  | assertReset (hh : head = some (.reset true)) : Move s head s.assertReset
  | release : Move s head { s with rst := false }

/-- What CRYPT_CBC leaves in DATA_MEM is canonical again, where its output lies below BUF_BYTES (R66, R221). -/
theorem memoryCanonical_cryptChain {s : State} (h : s.MemoryCanonical) (d : Direction) (c : CtxIdx) {n src dst : Nat}
    (hd : dst + 16 * n ≤ s.params.bufBytes) :
    ({ s with mem := (({ s with chain := storeBlock s.iv } : State).cbcLoop d c n src dst).mem } : State).MemoryCanonical := by
  have hs : ({ s with chain := storeBlock s.iv } : State).MemoryCanonical := h
  have hl := memoryCanonical_cbcLoop hs d c n src dst hd
  rw [State.MemoryCanonical, cbcLoop_params] at hl
  exact hl

/-- The meaning of a command is an effect and a completion. -/
theorem exec_effect {i : Instr} {s t : State} (h : exec i s = .next t) : ∃ u e, Effect s u ∧ t = u.complete e := by
  rcases exec_cases i s with ⟨e, he⟩ | ⟨-, he⟩ | ⟨c, kp, -, hc, hk, -, he⟩ | ⟨c, kp, -, hc, hk, -, he⟩ | ⟨c, d, -, -, -, -, he⟩ |
    ⟨c, d, -, -, -, h16, hp, -, -, hd, he⟩ | ⟨c, -, hc, he⟩ <;> rw [he] at h <;> cases h
  · exact ⟨_, _, .none, rfl⟩
  · exact ⟨_, _, .build, rfl⟩
  · exact ⟨_, _, .setkey c kp _ _ hc hk (.inl rfl) (.inl (ensureTables_tmpk s)), keyEncrypt_eq s c kp⟩
  · exact ⟨_, _, .setkey c kp _ _ hc hk (.inr rfl) (.inr rfl), keyDecrypt_eq s c kp⟩
  · exact ⟨_, _, .ecb _, cryptBlock_eq s c d⟩
  · exact ⟨_, _, .cbc _ _ fun hm => memoryCanonical_cryptChain hm d c (by omega), cryptChain_eq s c d hp h16 _ rfl⟩
  · exact ⟨_, _, .wipe c hc, rfl⟩

theorem move_of_finish {s t : State} {head : Option Event} (hp : s.edgePending = false) (h : s.finish = .next t) :
    Move s head t := by
  rcases finish_cases s with ⟨-, hf⟩ | ⟨phase, hs, hf⟩ | ⟨i, phase, hs, hf⟩ <;> rw [hf] at h
  · cases h
    exact .stay
  · cases h
    exact .finish s _ (isBusy_of_busy hs) hp .none
  · obtain ⟨u, e, hu, rfl⟩ := exec_effect h
    exact .finish u e (isBusy_of_busy hs) hp hu

theorem move_of_advance (s : State) (head : Option Event) : Move s head s.advance := by
  rcases advance_cases s with h | ⟨i, hs, hb, h⟩ | ⟨i, hs, h⟩ <;> rw [h]
  · exact .stay
  · rw [enterSboxLoop_of_start hs]
    exact .enterLoop i hs hb
  · exact .leaveLoop i hs

theorem move_of_setResetLine (s : State) (level : Bool) : Move s (some (.reset level)) (s.setResetLine level) := by
  cases level
  · exact .release
  · exact .assertReset rfl

/-- An access while `rst` is released is a move, up to the answer and the counter of free values. -/
theorem move_of_access {s : State} (a : BusAccess) (hr : s.rst = false) :
    ∃ u r f, Move s (some (.access a)) u ∧ s.access a = { u with reply := r, freeIdx := f } := by
  rcases access_cases s a with ⟨-, -, h⟩ | ⟨v, ha, hk, h⟩ | ⟨-, h⟩
  · exact ⟨s, _, _, .stay, h.trans (admittedRead_eq s _)⟩
  · obtain ⟨o, size, kind⟩ := a
    obtain ⟨rfl, ho⟩ : size = .bits32 ∧ o.toNat % 4 = 0 := by simpa [BusAccess.admitted] using ha
    obtain rfl : kind = .write v := hk
    cases hb : s.isBusy
    · exact ⟨_, _, _, .write _ v (seq_eq_idle_of_not_busy hb) hr fun w hw => ofOffset_eq_dataMem hw,
        h.trans (admittedWrite_of_idle hb _ v)⟩
    · exact ⟨_, _, _, .hazard o v rfl ho hb hr, h.trans (admittedWrite_of_busy hb _ v)⟩
  · exact ⟨s, _, _, .stay, h⟩

/-- Every step is a move of the core, up to the inbox, the answer on the port and the counter of free values. -/
theorem step_move {s t : State} (h : step s = .next t) :
    ∃ l u r f, Move { s with inbox := l } s.inbox.head? u ∧ t = { u with reply := r, freeIdx := f } := by
  rcases step_cases s with ⟨-, hp, he⟩ | ⟨-, -, he⟩ | ⟨e, rest, hi, hr, hf, he⟩ | ⟨e, rest, hi, -, he⟩ <;> rw [he] at h
  · exact ⟨s.inbox, t, _, _, move_of_finish hp h, rfl⟩
  · cases h
    exact ⟨s.inbox, _, _, _, move_of_advance s _, rfl⟩
  · rw [hi]
    cases e with
    | access a =>
      obtain ⟨u, r, f, hm, hu⟩ := move_of_access (s := { s with inbox := rest }) a hr
      cases h
      exact ⟨rest, u, r, f, hm, hu⟩
    | advance =>
      cases h
      exact ⟨rest, _, _, _, move_of_advance _ _, rfl⟩
    | finish => exact ⟨rest, t, _, _, move_of_finish (hf.resolve_left (· rfl)) h, rfl⟩
    | reset level =>
      cases h
      exact ⟨rest, _, _, _, move_of_setResetLine _ level, rfl⟩
  · rw [hi]
    cases e with
    | access a =>
      refine ⟨rest, _, t.reply, t.freeIdx, .stay, ?_⟩
      cases h
      unfold State.accessInReset
      split <;> rfl
    | advance =>
      cases h
      exact ⟨rest, _, _, _, .stay, rfl⟩
    | finish =>
      cases h
      exact ⟨rest, _, _, _, .stay, rfl⟩
    | reset level =>
      cases h
      exact ⟨rest, _, _, _, move_of_setResetLine _ level, rfl⟩

/-! ### What every move keeps -/

section Moves

variable {s t u : State} {head : Option Event}

theorem Effect.params_eq (hu : Effect s u) : u.params = s.params := by
  cases hu with
  | build | setkey => exact ensureTables_params s
  | none | ecb | cbc | wipe => rfl

theorem Move.params_eq (hm : Move s head t) : t.params = s.params := by
  cases hm with
  | write r v => rw [writeReg_frame]
  | finish u e _ _ hu => exact hu.params_eq
  | stay | hazard | enterLoop | leaveLoop | assertReset | release => rfl

/-! DATA_MEM (R61, R66). -/

theorem memoryCanonical_writeReg (h : s.MemoryCanonical) (r : Reg) (v : Word)
    (hr : ∀ w, r = .dataMem w → 4 * w + 4 ≤ s.params.bufBytes) : (s.writeReg r v).MemoryCanonical := by
  cases r with
  | dataMem w => exact memoryCanonical_memPutWord h _ v (hr w rfl)
  | _ => exact h

theorem Effect.memoryCanonical (hu : Effect s u) (h : s.MemoryCanonical) : u.MemoryCanonical := by
  cases hu with
  | build => exact memoryCanonical_congr h (ensureTables_mem s) (ensureTables_params s)
  | setkey => exact memoryCanonical_congr h (ensureTables_mem s) (ensureTables_params s)
  | cbc m iv hc => exact hc h
  | none | ecb | wipe => exact h

theorem Move.memoryCanonical (hm : Move s head t) (h : s.MemoryCanonical) : t.MemoryCanonical := by
  cases hm with
  | write r v _ _ hr => exact memoryCanonical_writeReg h r v hr
  | finish u e _ _ hu => exact hu.memoryCanonical h
  | assertReset => exact ⟨rfl, nofun⟩
  | stay | hazard | enterLoop | leaveLoop | release => exact h

/-! The contexts and their schedules (R40, R41, R56). -/

@[simp] theorem assertReset_ctxAt (s : State) (c : CtxIdx) : s.assertReset.ctxAt c = Context.blank := by
  simp [State.ctxAt, State.assertReset, State.resetWith]

theorem emptyContextsBlank_setCtx (h : s.EmptyContextsBlank) {c : CtxIdx} {v : Context} (hc : c.val < s.params.nCtx)
    (hv : v.nr = .empty → v.rk = zeroSchedule) : (s.setCtx c v).EmptyContextsBlank := by
  intro c'
  by_cases e : c' = c
  · subst e
    rw [ctxAt_setCtx_self]
    exact ⟨hv, fun hn => absurd hc (Nat.not_lt.mpr hn)⟩
  · rw [ctxAt_setCtx_of_ne s c c' v e]
    exact h c'

theorem emptyContextsBlank_ensureTables (h : s.EmptyContextsBlank) : s.ensureTables.EmptyContextsBlank := by
  rw [ensureTables_frame]
  exact h

theorem Effect.emptyContextsBlank (hu : Effect s u) (h : s.EmptyContextsBlank) : u.EmptyContextsBlank := by
  cases hu with
  | build => exact emptyContextsBlank_ensureTables h
  | setkey c kp rk k hc hk =>
    exact emptyContextsBlank_setCtx (emptyContextsBlank_ensureTables h) (by simpa using hc)
      fun hn => absurd hn (keyParams_nr_ne_empty hk)
  | wipe c hc => exact emptyContextsBlank_setCtx h hc fun _ => rfl
  | none | ecb | cbc => exact h

theorem Move.emptyContextsBlank (hm : Move s head t) (h : s.EmptyContextsBlank) : t.EmptyContextsBlank := by
  cases hm with
  | write r v => rw [writeReg_frame]; exact h
  | finish u e _ _ hu => exact hu.emptyContextsBlank h
  | assertReset => exact fun c => by rw [assertReset_ctxAt]; exact ⟨fun _ => rfl, fun _ => rfl⟩
  | stay | hazard | enterLoop | leaveLoop | release => exact h

theorem Effect.keyedHasTables (hu : Effect s u) (h : s.KeyedHasTables) : u.KeyedHasTables := by
  cases hu with
  | build | setkey => exact fun _ _ => ensureTables_tblDone s
  | wipe c =>
    intro c' hn
    by_cases e : c' = c
    · subst e
      exact absurd (congrArg Context.nr (ctxAt_setCtx_self s c' _)) hn
    · exact h c' ((ctxAt_setCtx_of_ne s c c' _ e) ▸ hn)
  | none | ecb | cbc => exact h

/-- A key is only ever written once the tables are built, and they stay built until a reset, which empties every context (R56). -/
theorem Move.keyedHasTables (hm : Move s head t) (h : s.KeyedHasTables) : t.KeyedHasTables := by
  cases hm with
  | write r v => rw [writeReg_frame]; exact h
  | finish u e _ _ hu => exact hu.keyedHasTables h
  | assertReset => exact fun c hn => absurd (congrArg Context.nr (assertReset_ctxAt s c)) hn
  | stay | hazard | enterLoop | leaveLoop | release => exact h

/-- A build comes before every key, so it takes no schedule's tables away (R56). -/
theorem keyedHasSchedule_ensureTables (ht : s.KeyedHasTables) (h : s.KeyedHasSchedule) : s.ensureTables.KeyedHasSchedule := by
  intro c hn
  rw [ensureTables_ctxAt] at hn ⊢
  rw [ensureTables_of_built s (ht c hn)]
  exact h c hn

theorem keyedHasSchedule_setCtx (h : s.KeyedHasSchedule) {c : CtxIdx} {v : Context}
    (hv : v.nr ≠ .empty → ∃ (key : Vector Word 8) (keybits : Word) (kp : KeyParams), keyParams keybits = some kp ∧ v.nr = kp.nr ∧
      (v.rk = expandEnc s.tables key kp ∨ v.rk = expandDec s.tables (expandEnc s.tables key kp) kp.nr.toNat)) :
    (s.setCtx c v).KeyedHasSchedule := by
  intro c'
  by_cases e : c' = c
  · subst e
    rw [ctxAt_setCtx_self]
    exact hv
  · rw [ctxAt_setCtx_of_ne s c c' v e]
    exact h c'

theorem Effect.keyedHasSchedule (hu : Effect s u) (ht : s.KeyedHasTables) (h : s.KeyedHasSchedule) : u.KeyedHasSchedule := by
  cases hu with
  | build => exact keyedHasSchedule_ensureTables ht h
  | setkey c kp rk k _ hk hrk =>
    exact keyedHasSchedule_setCtx (keyedHasSchedule_ensureTables ht h) fun _ => ⟨s.key, s.keybits, kp, hk, rfl, hrk⟩
  | wipe c => exact keyedHasSchedule_setCtx h fun hn => absurd rfl hn
  | none | ecb | cbc => exact h

theorem Move.keyedHasSchedule (hm : Move s head t) (ht : s.KeyedHasTables) (h : s.KeyedHasSchedule) : t.KeyedHasSchedule := by
  cases hm with
  | write r v => rw [writeReg_frame]; exact h
  | finish u e _ _ hu => exact hu.keyedHasSchedule ht h
  | assertReset => exact fun c hn => absurd (congrArg Context.nr (assertReset_ctxAt s c)) hn
  | stay | hazard | enterLoop | leaveLoop | release => exact h

/-! The table set (R46, R48, R125, R132). -/

theorem blankUntilBuilt_of_built (h : t.tblDone = true) : t.BlankUntilBuilt := fun hf => absurd (h.symm.trans hf) nofun

theorem tablesAsBuilt_of_unbuilt (h : t.tblDone = false) : t.TablesAsBuilt := fun hd => absurd (h.symm.trans hd) nofun

theorem Effect.blankUntilBuilt (hu : Effect s u) (h : s.BlankUntilBuilt) : u.BlankUntilBuilt := by
  cases hu with
  | build | setkey => exact blankUntilBuilt_of_built (ensureTables_tblDone s)
  | none | ecb | cbc | wipe => exact h

theorem Move.blankUntilBuilt (hm : Move s head t) (h : s.BlankUntilBuilt) : t.BlankUntilBuilt := by
  cases hm with
  | write r v => rw [writeReg_frame]; exact h
  | finish u e _ _ hu => exact hu.blankUntilBuilt h
  | assertReset => exact fun _ => ⟨rfl, rfl, rfl⟩
  | stay | hazard | enterLoop | leaveLoop | release => exact h

/-- A build finds the table RAMs blank, so what it leaves depends on the latched mask alone (R125). -/
theorem tablesAsBuilt_ensureTables (hb : s.BlankUntilBuilt) (h : s.TablesAsBuilt) : s.ensureTables.TablesAsBuilt := by
  cases hd : s.tblDone
  · obtain ⟨htab, -, hlog⟩ := hb hd
    rw [ensureTables_of_unbuilt s hd]
    refine fun _ => ⟨build_pow s, by rw [build_log, hlog], ?_⟩
    rw [build_tables, build_maskLatch, build_params, hlog, htab]
  · rw [ensureTables_of_built s hd]
    exact h

theorem Effect.tablesAsBuilt (hu : Effect s u) (hb : s.BlankUntilBuilt) (h : s.TablesAsBuilt) : u.TablesAsBuilt := by
  cases hu with
  | build | setkey => exact tablesAsBuilt_ensureTables hb h
  | none | ecb | cbc | wipe => exact h

theorem Move.tablesAsBuilt (hm : Move s head t) (hb : s.BlankUntilBuilt) (h : s.TablesAsBuilt) : t.TablesAsBuilt := by
  cases hm with
  | write r v => rw [writeReg_frame]; exact h
  | enterLoop i _ hi => exact tablesAsBuilt_of_unbuilt (tblDone_of_builds hi)
  | finish u e _ _ hu => exact hu.tablesAsBuilt hb h
  | assertReset => exact tablesAsBuilt_of_unbuilt rfl
  | stay | hazard | leaveLoop | release => exact h

/-! The scratch registers (R49, R50, R51, R198). -/

theorem scratchWiped_ensureTables (h : s.ScratchWiped) : s.ensureTables.ScratchWiped := by
  rw [ensureTables_frame]
  exact h

theorem Effect.scratchWiped (hu : Effect s u) (h : s.ScratchWiped) : u.ScratchWiped := by
  obtain ⟨hx, hy, htmp, hchain, hsave⟩ := id h
  cases hu with
  | build => exact scratchWiped_ensureTables h
  | setkey c kp rk k _ _ _ hk =>
    obtain ⟨hx', hy', -, hchain', hsave'⟩ := scratchWiped_ensureTables h
    exact ⟨hx', hy', hk.elim (·.trans htmp) id, hchain', hsave'⟩
  | ecb => exact ⟨rfl, rfl, htmp, hchain, hsave⟩
  | cbc => exact ⟨rfl, rfl, htmp, rfl, rfl⟩
  | none | wipe => exact h

theorem Move.scratchWiped (hm : Move s head t) (h : s.ScratchWiped) : t.ScratchWiped := by
  cases hm with
  | write r v => rw [writeReg_frame]; exact h
  | finish u e _ _ hu => exact hu.scratchWiped h
  | assertReset => exact ⟨rfl, rfl, rfl, rfl, rfl⟩
  | stay | hazard | enterLoop | leaveLoop | release => exact h

/-! The trigger (R52, R131). -/

/-- Outside the S-box loop, the trigger invariant says `trig` is 0. -/
theorem trigBracket_iff_of_outside (hs : ∀ cmd, s.seq ≠ .busy cmd .sboxLoop) : s.TrigBracket ↔ s.trig = false := by
  unfold State.TrigBracket
  simp [hs]

theorem Effect.trig_eq_false (hu : Effect s u) (h : s.trig = false) : u.trig = false := by
  have he : s.ensureTables.trig = false := by
    unfold State.ensureTables
    split
    · exact h
    · rfl
  cases hu with
  | build | setkey => exact he
  | none | ecb | cbc | wipe => exact h

/-- A command whose execution can end is outside the S-box loop: inside, a latched build has an edge still to pass (R131). -/
theorem outside_of_not_pending (hl : s.BuildLatched) (hp : s.edgePending = false) (cmd : Command) :
    s.seq ≠ .busy cmd .sboxLoop := by
  intro hs
  obtain ⟨⟨i, rfl, -⟩, -⟩ := hl cmd .sboxLoop hs nofun
  simp [State.edgePending, hs] at hp

theorem Move.trigBracket (hm : Move s head t) (hl : s.BuildLatched) (h : s.TrigBracket) : t.TrigBracket := by
  cases hm with
  | write r v hs =>
    have ht : s.trig = false := (trigBracket_iff_of_outside (by simp [hs])).mp h
    refine (trigBracket_iff_of_outside fun cmd => ?_).mpr (by rw [writeReg_frame]; exact ht)
    rcases writeReg_cases s r v with hw | ⟨hw, -⟩
    · simp [hw]
    · simp [hw, hs]
  | enterLoop i => exact ⟨fun ht => ⟨⟨_, rfl⟩, ht⟩, fun ht => ht.2⟩
  | leaveLoop i => exact (trigBracket_iff_of_outside (by rintro _ ⟨⟩)).mpr rfl
  | finish u e _ hp hu =>
    have ht := (trigBracket_iff_of_outside (outside_of_not_pending hl hp)).mp h
    exact (trigBracket_iff_of_outside (by rintro _ ⟨⟩)).mpr (hu.trig_eq_false ht)
  | assertReset => exact (trigBracket_iff_of_outside (by rintro _ ⟨⟩)).mpr rfl
  | stay | hazard | release => exact h

theorem Move.buildLatched (hm : Move s head t) (h : s.BuildLatched) : t.BuildLatched := by
  cases hm with
  | write r v hs =>
    intro cmd phase hseq hphase
    rcases writeReg_cases s r v with hw | ⟨hw, -⟩
    · rw [hw] at hseq
      cases hseq
      exact absurd rfl hphase
    · rw [hw, hs] at hseq
      cases hseq
  | enterLoop i hs hb =>
    rintro _ _ ⟨⟩ -
    exact ⟨⟨i, rfl, hb⟩, rfl, rfl⟩
  | leaveLoop i hs =>
    rintro _ _ ⟨⟩ -
    exact h _ _ hs nofun
  | finish | assertReset => exact nofun
  | stay | hazard | release => exact h

/-! The flags and the latched command (R31, R91, R251). -/

theorem Move.busyFlags (hm : Move s head t) (h : s.BusyFlags) : t.BusyFlags := by
  cases hm with
  | write r v hs =>
    intro hb
    rcases writeReg_cases s r v with hw | ⟨hw, -⟩
    · rw [hw]
      exact ⟨rfl, rfl⟩
    · simp [State.isBusy, hw, hs] at hb
  | enterLoop i hs => exact fun _ => h (isBusy_of_busy hs)
  | leaveLoop i hs => exact fun _ => h (isBusy_of_busy hs)
  | finish | assertReset => exact nofun
  | stay | hazard | release => exact h

theorem Move.latchedWellFormed (hm : Move s head t) (h : s.LatchedWellFormed) : t.LatchedWellFormed := by
  cases hm with
  | write r v hs =>
    intro i phase hseq
    rcases writeReg_cases s r v with hw | ⟨hw, -⟩
    · rw [hw] at hseq ⊢
      exact wellFormed_of_commandOf (Seq.busy.inj hseq).1
    · rw [hw, hs] at hseq
      cases hseq
  | enterLoop i hs => rintro _ _ ⟨⟩; exact h i _ hs
  | leaveLoop i hs => rintro _ _ ⟨⟩; exact h i _ hs
  | finish | assertReset => exact nofun
  | stay | hazard | release => exact h

theorem Move.undefRecorded (hm : Move s head t) (h : s.UndefRecorded) : t.UndefRecorded := by
  cases hm with
  | write r v =>
    intro he
    rcases writeReg_cases s r v with hw | ⟨-, hw⟩
    · rw [hw] at he
      cases he
    · rw [writeReg_frame]
      exact h (hw ▸ he)
  | finish u e => exact fun he => by simp [show e = .undefinedUse from he]
  | assertReset => exact nofun
  | stay | hazard | enterLoop | leaveLoop | release => exact h

/-! Reset (R310). -/

theorem heldInReset_of_released (h : t.rst = false) : t.HeldInReset := fun hr => absurd (h.symm.trans hr) nofun

/-- While `rst` is asserted nothing runs (R310). -/
theorem released_of_busy {cmd : Command} {phase : Phase} (h : s.HeldInReset) (hs : s.seq = .busy cmd phase) : s.rst = false := by
  cases hr : s.rst
  · rfl
  · have hi : s.seq = .idle := congrArg State.seq (h hr)
    rw [hs] at hi
    cases hi

theorem Effect.rst_eq (hu : Effect s u) : u.rst = s.rst := by
  cases hu with
  | build | setkey => exact ensureTables_rst s
  | none | ecb | cbc | wipe => rfl

theorem Move.heldInReset (hm : Move s head t) (h : s.HeldInReset) : t.HeldInReset := by
  cases hm with
  | stay => exact h
  | write r v _ hr => exact heldInReset_of_released (by rw [writeReg_frame]; exact hr)
  | hazard _ _ _ _ _ hr => exact heldInReset_of_released hr
  | enterLoop i hs =>
    have hr : s.rst = false := released_of_busy h hs
    exact heldInReset_of_released hr
  | leaveLoop i hs =>
    have hr : s.rst = false := released_of_busy h hs
    exact heldInReset_of_released hr
  | finish u e hb _ hu =>
    obtain ⟨cmd, phase, hs⟩ := (isBusy_iff s).mp hb
    exact heldInReset_of_released (hu.rst_eq.trans (released_of_busy h hs))
  | assertReset => exact fun _ => rfl
  | release => exact heldInReset_of_released rfl

/-! All of them. -/

/-- The inbox and the lines of the port are no part of a safe state. -/
theorem State.Safe.withPort (h : s.Safe) (l : List Event) (r : Option BusReply) (f : Nat) :
    ({ s with inbox := l, reply := r, freeIdx := f } : State).Safe where
  paramsLegal := h.paramsLegal
  memoryCanonical := h.memoryCanonical
  emptyContextsBlank := h.emptyContextsBlank
  keyedHasTables := h.keyedHasTables
  keyedHasSchedule := h.keyedHasSchedule
  blankUntilBuilt := h.blankUntilBuilt
  tablesAsBuilt := h.tablesAsBuilt
  scratchWiped := h.scratchWiped
  trigBracket := h.trigBracket
  busyFlags := h.busyFlags
  latchedWellFormed := h.latchedWellFormed
  buildLatched := h.buildLatched
  undefRecorded := h.undefRecorded
  heldInReset := fun hr =>
    congrArg (fun v : State => { v with inbox := l, reply := r, freeIdx := f }) (h.heldInReset hr)

theorem Move.safe (hm : Move s head t) (h : s.Safe) : t.Safe where
  paramsLegal := (congrArg Params.legal hm.params_eq).trans h.paramsLegal
  memoryCanonical := hm.memoryCanonical h.memoryCanonical
  emptyContextsBlank := hm.emptyContextsBlank h.emptyContextsBlank
  keyedHasTables := hm.keyedHasTables h.keyedHasTables
  keyedHasSchedule := hm.keyedHasSchedule h.keyedHasTables h.keyedHasSchedule
  blankUntilBuilt := hm.blankUntilBuilt h.blankUntilBuilt
  tablesAsBuilt := hm.tablesAsBuilt h.blankUntilBuilt h.tablesAsBuilt
  scratchWiped := hm.scratchWiped h.scratchWiped
  trigBracket := hm.trigBracket h.buildLatched h.trigBracket
  busyFlags := hm.busyFlags h.busyFlags
  latchedWellFormed := hm.latchedWellFormed h.latchedWellFormed
  buildLatched := hm.buildLatched h.buildLatched
  undefRecorded := hm.undefRecorded h.undefRecorded
  heldInReset := hm.heldInReset h.heldInReset

end Moves

/-! ### The invariants of the family -/

/-- Settles O59: every move keeps each invariant, and none of them speaks of the inbox or the port's lines. -/
theorem safeKept : Obligations.SafeKept := by
  intro s t h hstep
  obtain ⟨l, u, r, f, hm, rfl⟩ := step_move hstep
  exact (hm.safe (h.withPort l s.reply s.freeIdx)).withPort u.inbox r f

/-- Settles O54: a command inside the S-box loop is a latched build, so it cannot end there with `trig` still 1. -/
theorem triggerBracketKept : Obligations.TriggerBracketKept := by
  intro s t htrig hlatched hstep
  obtain ⟨l, u, r, f, hm, rfl⟩ := step_move hstep
  exact ⟨hm.trigBracket hlatched htrig, hm.buildLatched hlatched⟩

/-- Settles O57, by what each move does to the contexts and to TBL_DONE. -/
theorem keyedHasTablesKept : Obligations.KeyedHasTablesKept := by
  intro s t h hstep
  obtain ⟨l, u, r, f, hm, rfl⟩ := step_move hstep
  exact hm.keyedHasTables h

/-! ### The sticky flags (R30, R31) -/

section StickyFlags

variable {s t u : State} {head : Option Event}

theorem Effect.haz_eq (hu : Effect s u) : u.haz = s.haz := by
  cases hu with
  | build | setkey => exact ensureTables_haz s
  | none | ecb | cbc | wipe => rfl

theorem Effect.undef_eq (hu : Effect s u) : u.undef = s.undef := by
  cases hu with
  | build | setkey => exact ensureTables_undef s
  | none | ecb | cbc | wipe => rfl

/-- HAZ stays, or an admitted write while BUSY sets it; only the assertion of reset can do anything else. -/
theorem Move.haz_cases (hm : Move s head t) (hh : head ≠ some (.reset true)) :
    t.haz = s.haz ∨
      (t.haz = true ∧ s.isBusy = true ∧ s.rst = false ∧ ∃ o v, head = some (writeEvent o v) ∧ o.toNat % 4 = 0) := by
  cases hm with
  | write r v => exact .inl (by rw [writeReg_frame])
  | hazard o v he ho hb hr => exact .inr ⟨rfl, hb, hr, o, v, he, ho⟩
  | finish u e _ _ hu => exact .inl hu.haz_eq
  | assertReset he => exact absurd he hh
  | stay | enterLoop | leaveLoop | release => exact .inl rfl

/-- A step that keeps UNDEF and does not end a command. -/
theorem undef_iff_of_running (hu : t.undef = s.undef) (hb : s.isBusy = true → t.isBusy = true) :
    t.undef = true ↔ s.undef = true ∨ (s.isBusy = true ∧ t.isBusy = false ∧ t.err = .undefinedUse) := by
  rw [hu]
  exact ⟨.inl, fun h => h.resolve_right fun ⟨hs, ht, _⟩ => absurd (ht.symm.trans (hb hs)) nofun⟩

theorem Move.undef_iff (hm : Move s head t) (hh : head ≠ some (.reset true)) :
    t.undef = true ↔ s.undef = true ∨ (s.isBusy = true ∧ t.isBusy = false ∧ t.err = .undefinedUse) := by
  cases hm with
  | write r v hs => exact undef_iff_of_running (by rw [writeReg_frame]) fun hb => by simp [State.isBusy, hs] at hb
  | finish u e hb _ hu => simp [hu.undef_eq, hb]
  | assertReset he => exact absurd he hh
  | enterLoop | leaveLoop => exact undef_iff_of_running rfl fun _ => rfl
  | stay | hazard | release => exact undef_iff_of_running rfl id

end StickyFlags

/-- Settles O52: HAZ by the event a step answers, UNDEF by whether the step ends a command. -/
theorem stickyFlags : Obligations.StickyFlags := by
  intro s t hstep hh
  obtain ⟨l, u, r, f, hm, rfl⟩ := step_move hstep
  refine ⟨⟨fun ht => ?_, ?_⟩, hm.undef_iff hh⟩
  · rcases hm.haz_cases hh with he | ⟨-, hb, hr, o, v, he, ho⟩
    · exact .inl (he ▸ ht)
    · obtain ⟨rest, hi⟩ := List.head?_eq_some_iff.mp he
      exact .inr ⟨hb, hr, o, v, rest, hi, ho⟩
  · rintro (hs | ⟨hb, hr, o, v, rest, hi, ho⟩)
    · rcases hm.haz_cases hh with he | ⟨ht, -⟩
      · exact he.trans hs
      · exact ht
    · rw [step_writeEvent_busy hr ho hb hi] at hstep
      exact congrArg State.haz (Host.Outcome.next.inj hstep).symm

/-! ### STATUS and CTXINFO (R26, R38) -/

/-- The code field of STATUS (R29). -/
theorem extractLsb'_statusWord (s : State) : s.statusWord.extractLsb' 4 4 = s.err.toBits := by
  apply BitVec.eq_of_getLsbD_eq
  intro i hi
  have hne : ∀ k : Nat, k < 4 ∨ 8 ≤ k → (4 + i = k) = False := fun k hk => eq_false (by omega)
  simp [getLsbD_statusWord, hi, hne]

theorem toNat_toBits (e : StatusCode) : e.toBits.toNat = codeNumber e := by cases e <;> rfl

theorem toNat_toByte (n : RoundCount) : n.toByte.toNat = roundsOf n := by cases n <;> rfl

/-- A bit of STATUS outside the code field. -/
theorem getLsbD_statusWord_flag (s : State) {i : Nat} (h : i < 4 ∨ 8 ≤ i) :
    s.statusWord.getLsbD i =
      ((s.isBusy && decide (i = 0)) || (s.done && decide (i = 1)) || (s.haz && decide (i = 8)) ||
        (s.undef && decide (i = 9)) || (s.tblDone && decide (i = 12)) || (s.trig && decide (i = 13))) := by
  have code : (decide (4 ≤ i) && s.err.toBits.getLsbD (i - 4)) = false := by
    rcases h with h | h
    · simp [show ¬ 4 ≤ i by omega]
    · simp [BitVec.getLsbD_of_ge s.err.toBits (i - 4) (by omega)]
  rw [getLsbD_statusWord, code, Bool.or_false]

/-- Settles O49, from the bits of STATUS in and outside the code field. -/
theorem statusFields : Obligations.StatusFields := by
  intro s
  have flag := fun (i : Nat) (h : i < 4 ∨ 8 ≤ i) => getLsbD_statusWord_flag s h
  refine ⟨?_, (flag 1 (by decide)).trans (by simp), by rw [extractLsb'_statusWord, toNat_toBits],
    (flag 8 (by decide)).trans (by simp), (flag 9 (by decide)).trans (by simp), (flag 12 (by decide)).trans (by simp),
    (flag 13 (by decide)).trans (by simp), fun i hi => ?_⟩
  · rw [← isBusy_iff, flag 0 (by decide)]
    simp
  · have hne : ∀ k : Nat, k = 0 ∨ k = 1 ∨ k = 8 ∨ k = 9 ∨ k = 12 ∨ k = 13 → (i = k) = False := fun k hk => eq_false (by omega)
    rw [flag i (by omega)]
    simp [hne]

/-- Settles O50, by the byte of CTXINFO that shows the context. -/
theorem ctxInfoFields : Obligations.CtxInfoFields := by
  intro s c
  rw [byteLane_ctxInfoWord, State.ctxInfoByte]
  refine ⟨fun hc => ?_, fun hc => if_neg (Nat.not_lt.mpr hc)⟩
  rw [if_pos hc, toNat_toByte]
  rfl

/-! ### The register map while IDLE (R22, R23, R63, R64) -/

/-- Offset o is word-aligned and names the location r (R22, R61, R64). -/
def Located (bufBytes : Nat) (o : BitVec 13) (r : Reg) : Prop := o.toNat % 4 = 0 ∧ Reg.ofOffset bufBytes o = r

theorem located_of_index {o : BitVec 13} {r : Reg} (bufBytes : Nat)
    (h : o.toNat % 4 = 0 ∧ o.toNat < 0x1000 ∧ Reg.ofRegisterIndex (o.toNat / 4) = r) : Located bufBytes o r := by
  obtain ⟨ha, hlt, hr⟩ := h
  exact ⟨ha, (ofOffset_register bufBytes o hlt).trans hr⟩

theorem located_key (b : Nat) (n : Fin 8) : Located b (offsetAt 0x040 n.val) (.key n) :=
  located_of_index b (by revert n; decide)

theorem located_din (b : Nat) (n : Fin 4) : Located b (offsetAt 0x060 n.val) (.din n) :=
  located_of_index b (by revert n; decide)

theorem located_dout (b : Nat) (n : Fin 4) : Located b (offsetAt 0x070 n.val) (.dout n) :=
  located_of_index b (by revert n; decide)

theorem located_iv (b : Nat) (n : Fin 4) : Located b (offsetAt 0x080 n.val) (.iv n) :=
  located_of_index b (by revert n; decide)

theorem located_fmask (b : Nat) (n : Fin 8) : Located b (offsetAt 0x0A0 n.val) (.fmask n) :=
  located_of_index b (by revert n; decide)

theorem toNat_offsetAt_dataMem {w : Nat} (h : 4 * w + 4 ≤ 4096) : (offsetAt 0x1000 w).toNat = 0x1000 + 4 * w := by
  rw [offsetAt, BitVec.toNat_ofNat]
  omega

theorem located_dataMem {b w : Nat} (hb : b ≤ 4096) (h : 4 * w + 4 ≤ b) : Located b (offsetAt 0x1000 w) (.dataMem w) := by
  have ho := toNat_offsetAt_dataMem (h.trans hb)
  exact ⟨by omega, ofOffset_dataMem b w _ ho h⟩

theorem located_aboveDataMem {b w : Nat} (h : b < 4 * w + 4) (hw : 4 * w + 4 ≤ 4096) :
    Located b (offsetAt 0x1000 w) .reserved := by
  have ho := toNat_offsetAt_dataMem hw
  exact ⟨by omega, ofOffset_aboveDataMem b _ (by omega) (by omega)⟩

theorem ofRegisterIndex_reserved {i : Nat} (h : (0x0A ≤ i ∧ i < 0x10) ∨ (0x24 ≤ i ∧ i < 0x28) ∨ 0x30 ≤ i) :
    Reg.ofRegisterIndex i = .reserved := by
  unfold Reg.ofRegisterIndex
  iterate 10 rw [if_neg (by omega)]
  iterate 5 rw [dif_neg (by omega)]

theorem located_reserved (b : Nat) {o : BitVec 13} (h : IsReservedOffset o.toNat) : Located b o .reserved := by
  obtain ⟨ha, hr⟩ := h
  exact located_of_index b ⟨ha, by omega, ofRegisterIndex_reserved (by omega)⟩

/-- While IDLE a read of a location shows what it holds, and changes nothing (R69). -/
theorem readsAs_of_located {s : State} (hs : s.seq = .idle) (hr : s.rst = false) {o : BitVec 13} {r : Reg}
    (ho : Located s.params.bufBytes o r) : ReadsAs s o (s.readReg r) := by
  obtain ⟨ha, rfl⟩ := ho
  intro rest
  have hb := openBits_of_idle ({ s with inbox := readEvent o :: rest } : State) (Reg.ofOffset s.params.bufBytes o) hs
  rw [step_readEvent (s := { s with inbox := readEvent o :: rest }) hr ha rfl, if_pos hb,
    readData_of_openBits_eq_zero _ _ hb, readReg_inbox]

theorem writeReg_inbox (s : State) (l : List Event) (r : Reg) (v : Word) :
    ({ s with inbox := l } : State).writeReg r v = { s.writeReg r v with inbox := l } := by cases r <;> rfl

/-- While IDLE a write has the effect of its location (R23). -/
theorem writesAs_of_located {s : State} (hs : s.seq = .idle) (hr : s.rst = false) (v : Word) {o : BitVec 13} {r : Reg}
    (ho : Located s.params.bufBytes o r) : WritesAs s o v (s.writeReg r v) := by
  obtain ⟨ha, rfl⟩ := ho
  intro rest
  rw [step_writeEvent_idle (s := { s with inbox := writeEvent o v :: rest }) hr ha hs rfl, writeReg_inbox, writeReg_inbox]

/-- The bits of CONFIG (R34). -/
theorem getLsbD_configWord (s : State) (i : Nat) :
    s.configWord.getLsbD i = ((s.irqEn && decide (i = 0)) || (s.trigEn && decide (i = 1))) := by
  rw [State.configWord, BitVec.getLsbD_or, getLsbD_bitAt _ _ _ (by decide), getLsbD_bitAt _ _ _ (by decide)]

/-- Settles O46: each offset names its location, whose value an IDLE read shows. -/
theorem idleReadMap : Obligations.IdleReadMap := by
  intro s hs hr hb
  have reg : ∀ {o : BitVec 13} {r : Reg}, (o.toNat % 4 = 0 ∧ o.toNat < 0x1000 ∧ Reg.ofRegisterIndex (o.toNat / 4) = r) →
      ReadsAs s o (s.readReg r) := fun h => readsAs_of_located hs hr (located_of_index _ h)
  have config : s.configWord.getLsbD 0 = s.irqEn ∧ s.configWord.getLsbD 1 = s.trigEn ∧
      ∀ i : Nat, 2 ≤ i → s.configWord.getLsbD i = false := by
    refine ⟨?_, ?_, fun i hi => ?_⟩ <;> rw [getLsbD_configWord]
    · simp
    · simp
    · simp [show i ≠ 0 by omega, show i ≠ 1 by omega]
  refine ⟨reg (r := .id) (by decide), reg (r := .cmd) (by decide), reg (r := .status) (by decide), reg (r := .config) (by decide),
    config, reg (r := .mode) (by decide), reg (r := .keybits) (by decide), reg (r := .length) (by decide),
    reg (r := .src) (by decide), reg (r := .dst) (by decide), reg (r := .ctxinfo) (by decide), ?_⟩
  exact ⟨fun n => readsAs_of_located hs hr (located_key _ n), fun n => readsAs_of_located hs hr (located_din _ n),
    fun n => readsAs_of_located hs hr (located_dout _ n), fun n => readsAs_of_located hs hr (located_iv _ n),
    fun n => readsAs_of_located hs hr (located_fmask _ n), fun w hw => readsAs_of_located hs hr (located_dataMem hb hw),
    fun w hw hw' => readsAs_of_located hs hr (located_aboveDataMem hw hw'),
    fun o ho => readsAs_of_located hs hr (located_reserved _ ho)⟩

/-- Settles O47: each offset names its location, whose write rule is the effect. -/
theorem idleWriteMap : Obligations.IdleWriteMap := by
  intro s v hs hr hb
  have loc : ∀ {o : BitVec 13} {r : Reg}, Located s.params.bufBytes o r → WritesAs s o v (s.writeReg r v) :=
    writesAs_of_located hs hr v
  have reg : ∀ {o : BitVec 13} {r : Reg}, (o.toNat % 4 = 0 ∧ o.toNat < 0x1000 ∧ Reg.ofRegisterIndex (o.toNat / 4) = r) →
      WritesAs s o v (s.writeReg r v) := fun h => loc (located_of_index _ h)
  have status : s.writeReg .status v = { s with done := if v.getLsbD 1 then false else s.done } := by
    cases hv : v.getLsbD 1 <;> simp [State.writeReg, hv, -BitVec.getLsbD_eq_getElem]
  refine ⟨reg (r := .id) (by decide), status ▸ reg (r := .status) (by decide), reg (r := .config) (by decide),
    reg (r := .mode) (by decide), reg (r := .keybits) (by decide), reg (r := .length) (by decide),
    reg (r := .src) (by decide), reg (r := .dst) (by decide), reg (r := .ctxinfo) (by decide), ?_⟩
  refine ⟨fun n => loc (located_key _ n), fun n => loc (located_din _ n), fun n => loc (located_dout _ n),
    fun n => loc (located_iv _ n), fun n => loc (located_fmask _ n), fun w hw => ?_,
    fun w hw hw' => loc (located_aboveDataMem hw hw'), fun o ho => loc (located_reserved _ ho)⟩
  exact ⟨s.memPutWord (4 * w) v, rfl, loc (located_dataMem hb hw), memPutWord_memByte_at s (4 * w) v,
    fun a ha => memPutWord_memByte_of_ne s (4 * w) a v ha⟩

end Sys2Proof.Machine

/-! SUPPORT. Proofs of the statements of 20_memory.md: what DATA_MEM keeps through a step, and which bus accesses are admitted. -/

namespace Sys2Proof.Machine

/-- Settles O58: every move keeps DATA_MEM canonical, and the inbox and the port's lines are no part of it. -/
theorem memoryCanonicalKept : Obligations.MemoryCanonicalKept := by
  intro s t h hstep
  obtain ⟨l, u, r, f, hm, rfl⟩ := step_move hstep
  exact hm.memoryCanonical h

/-! ### Admission (R62) -/

theorem admitted_iff (a : BusAccess) : a.admitted = true ↔ a.size = .bits32 ∧ a.offset.toNat % 4 = 0 := by
  simp [BusAccess.admitted]

/-- A refused access changes nothing but the answer on the port. -/
theorem access_of_refused (s : State) {a : BusAccess} (h : ¬ a.admitted = true) :
    s.access a = { s with reply := some a.refusedReply } :=
  if_neg h

/-- An admitted access gets OKAY, IDLE or BUSY. -/
theorem access_reply_of_admitted (s : State) {a : BusAccess} (h : a.admitted = true) :
    (a.kind = .read → ∃ v, (s.access a).reply = some (.read .okay v)) ∧
      (∀ v, a.kind = .write v → (s.access a).reply = some (.write .okay)) := by
  rcases access_cases s a with ⟨-, hk, he⟩ | ⟨v, -, hk, he⟩ | ⟨hn, -⟩
  · rw [he, hk]
    exact ⟨fun _ => ⟨_, rfl⟩, nofun⟩
  · rw [he, hk]
    exact ⟨nofun, fun _ _ => rfl⟩
  · exact absurd h (by simp [hn])

/-- Settles O43, by whether the access is admitted. -/
theorem accessAdmission : Obligations.AccessAdmission := by
  intro s a rest hr hi
  have hstep : step s = .next (({ s with inbox := rest } : State).access a) := step_of_cons hi hr (.inl nofun)
  refine ⟨fun hbad => ?_, fun hsize halign => ?_⟩
  · have hn : ¬ a.admitted = true := by rwa [admitted_iff, not_and_or]
    rw [hstep, access_of_refused _ hn]
    refine ⟨fun hk => ?_, fun v hk => ?_⟩ <;> rw [BusAccess.refusedReply, hk]
  · exact ⟨_, hstep, access_reply_of_admitted _ ((admitted_iff a).mpr ⟨hsize, halign⟩)⟩

end Sys2Proof.Machine

/-! SUPPORT. Proofs of the statements of 30_encoding.md: the fields of a command word, the decoder and the encoder, and what the
issue and the end of a command do. -/

namespace Sys2Proof

open Laws

/-! ### The fields of a word (R90) -/

/-- The encoder writes the fields of its command (R90, R92). -/
theorem fields_encode (i : Instr) : EncodedFields.Statement i := by
  cases i with
  | nop => exact EncodedFields.nop
  | buildTables => exact EncodedFields.buildTables
  | setkeyEnc c => exact EncodedFields.setkeyEnc c
  | setkeyDec c => exact EncodedFields.setkeyDec c
  | cryptEcb c => exact EncodedFields.cryptEcb c
  | cryptCbc c => exact EncodedFields.cryptCbc c
  | wipe c => exact EncodedFields.wipe c

theorem toNat_opcodeField (w : Word) : (opcodeField w).toNat = w.toNat % 16 := by
  simp [opcodeField]

theorem val_ctxField (w : Word) : (ctxField w).val = w.toNat / 16 % 4 := by
  simp [ctxField, Nat.shiftRight_eq_div_pow]

theorem toNat_resField (w : Word) : (resField w).toNat = w.toNat / 64 := by
  have := w.isLt
  rw [resField, BitVec.extractLsb'_toNat, Nat.shiftRight_eq_div_pow]
  omega

theorem resField_eq_zero_iff (w : Word) : resField w = 0 ↔ w.toNat / 64 = 0 := by
  rw [← toNat_resField]
  exact BitVec.toNat_inj.symm

/-- RES, CTX and OPCODE together are the whole word: no bit is ignored (R90). -/
theorem word_ext_fields {v w : Word} (hr : resField v = resField w) (ho : opcodeField v = opcodeField w)
    (hc : ctxField v = ctxField w) : v = w := by
  have hr := congrArg BitVec.toNat hr
  have ho := congrArg BitVec.toNat ho
  have hc := congrArg Fin.val hc
  rw [toNat_resField, toNat_resField] at hr
  rw [toNat_opcodeField, toNat_opcodeField] at ho
  rw [val_ctxField, val_ctxField] at hc
  exact BitVec.eq_of_toNat_eq (by omega)

/-! ### The decoder by fields (R91, R92) -/

theorem decode_of_resField_eq_zero (p : Params) {w : Word} (h : resField w = 0) :
    decode p w = decodeOpcode p (opcodeField w) (ctxField w) :=
  if_neg (not_not.mpr h)

theorem decode_of_resField_ne_zero (p : Params) {w : Word} (h : resField w ≠ 0) : decode p w = .error .reservedBits :=
  if_pos h

/-- The opcode map takes the fields of a well-formed command to that command. -/
theorem decodeOpcode_fields {p : Params} {i : Instr} (h : i.wellFormed p = true) :
    decodeOpcode p (EncodedFields.opcode i) (EncodedFields.ctx i) = .ok i := by
  cases i with
  | nop | buildTables => rfl
  | setkeyEnc c | setkeyDec c | cryptEcb c | cryptCbc c | wipe c => exact if_pos (of_decide_eq_true h)

/-- The opcode map gives a command from its own fields only. -/
theorem fields_of_decodeOpcode {p : Params} {op : BitVec 4} {c : CtxIdx} {i : Instr} (h : decodeOpcode p op c = .ok i) :
    op = EncodedFields.opcode i ∧ c = EncodedFields.ctx i := by
  unfold decodeOpcode at h
  split at h
  iterate 2
    · next hop =>
      obtain ⟨rfl, hc⟩ := Machine.decodeGlobal_eq_ok h
      exact ⟨BitVec.eq_of_toNat_eq hop, Fin.ext hc⟩
  iterate 5
    · next hop =>
      obtain ⟨rfl, -⟩ := Machine.decodeContext_eq_ok h
      exact ⟨BitVec.eq_of_toNat_eq hop, rfl⟩
  · cases h

theorem fields_of_decode {p : Params} {w : Word} {i : Instr} (h : decode p w = .ok i) :
    resField w = 0 ∧ opcodeField w = EncodedFields.opcode i ∧ ctxField w = EncodedFields.ctx i := by
  by_cases hr : resField w = 0
  · rw [decode_of_resField_eq_zero p hr] at h
    exact ⟨hr, fields_of_decodeOpcode h⟩
  · rw [decode_of_resField_ne_zero p hr] at h
    cases h

theorem decodeGlobal_rejects_iff (c : CtxIdx) (i : Instr) : (∃ e, decodeGlobal c i = .error e) ↔ c.val ≠ 0 := by
  unfold decodeGlobal
  split <;> simp [*]

theorem decodeContext_rejects_iff (p : Params) (c : CtxIdx) (i : Instr) :
    (∃ e, decodeContext p c i = .error e) ↔ p.nCtx ≤ c.val := by
  unfold decodeContext
  split
  · next h => simp [h]
  · next h => simpa using h

/-- The causes of R99 below RES. -/
theorem decodeOpcode_rejects_iff (p : Params) (op : BitVec 4) (c : CtxIdx) :
    (∃ e, decodeOpcode p op c = .error e) ↔
      7 ≤ op.toNat ∨ (op.toNat ≤ 1 ∧ c.val ≠ 0) ∨ (2 ≤ op.toNat ∧ p.nCtx ≤ c.val) := by
  unfold decodeOpcode
  split
  iterate 2
    · next hop =>
      rw [decodeGlobal_rejects_iff]
      omega
  iterate 5
    · next hop =>
      rw [decodeContext_rejects_iff]
      omega
  · simp only [imp_false] at *
    exact iff_of_true ⟨_, rfl⟩ (.inl (by omega))

/-! ### The statements about the encoding -/

/-- Settles O1: the encoder writes RES = 0 and the command's own OPCODE and CTX, which the opcode map takes back. -/
theorem decodeInvertsEncode : Obligations.DecodeInvertsEncode := by
  intro p i h
  obtain ⟨hr, ho, hc⟩ := fields_encode i
  rw [decode_of_resField_eq_zero p hr, ho, hc, decodeOpcode_fields h]

/-- Settles O2: the word and the encoding of its command have the same three fields. -/
theorem encodeInvertsDecode : Obligations.EncodeInvertsDecode := by
  intro p w i h
  obtain ⟨hr, ho, hc⟩ := fields_of_decode h
  obtain ⟨hr', ho', hc'⟩ := fields_encode i
  exact ⟨word_ext_fields (hr'.trans hr.symm) (ho'.trans ho.symm) (hc'.trans hc.symm), Machine.wellFormed_of_decode h⟩

/-- Settles O3, by whether RES is 0, and then by the causes below it. -/
theorem decoderRejectsExactlyIllegalWords : Obligations.DecoderRejectsExactlyIllegalWords := by
  intro p w
  unfold Statements.IsIllegalWord
  by_cases hr : resField w = 0
  · rw [decode_of_resField_eq_zero p hr, decodeOpcode_rejects_iff, toNat_opcodeField, val_ctxField]
    simp [(resField_eq_zero_iff w).mp hr]
  · exact iff_of_true ⟨_, decode_of_resField_ne_zero p hr⟩ (.inl (mt (resField_eq_zero_iff w).mpr hr))

/-- Settles O4: each word is the encoding of its command, so it decodes to it. -/
theorem writtenWordsDecode : Obligations.WrittenWordsDecode :=
  have decodes (i : Instr) (h : i.wellFormed Params.reference = true) := decodeInvertsEncode Params.reference i h
  ⟨decodes .nop rfl, decodes .buildTables rfl, decodes (.setkeyEnc 1) rfl, decodes (.setkeyDec 1) rfl,
    decodes (.cryptEcb 0) rfl, decodes (.cryptCbc 1) rfl, decodes (.wipe 0) rfl⟩

end Sys2Proof

namespace Sys2Proof.Machine

open Sys2Proof.Statements

/-! ### A write to CMD and the end of the execution (R251, R252) -/

theorem commandOf_of_decode {p : Params} {w : Word} {i : Instr} (h : decode p w = .ok i) : commandOf p w = .legal i := by
  rw [commandOf, h]

theorem commandOf_of_illegal {p : Params} {w : Word} (h : IsIllegalWord p w) : commandOf p w = .illegal := by
  obtain ⟨e, he⟩ := (decoderRejectsExactlyIllegalWords p w).mpr h
  rw [commandOf, he]

/-- What an issue through the bus leaves, with the events l to come: the command latched, DONE and ERR clear (R251). -/
def State.issuedThen (s : State) (cmd : Command) (l : List Event) : State :=
  { s with done := false, err := .ok, seq := .busy cmd .start, inbox := l, reply := some (.write .okay) }

/-- While IDLE a write to CMD issues the command of its word (R251). -/
theorem step_writeCmd {s : State} {w : Word} {l : List Event} (h : IdleThen s (writeEvent 0x004 w :: l)) :
    step s = .next (s.issuedThen (commandOf s.params w) l) := by
  obtain ⟨hs, hr, hi⟩ := h
  rw [step_writeEvent_idle hr (by decide) hs hi, ofOffset_register _ _ (by decide)]
  rfl

/-- The end of the execution of a legal command with no edge of an S-box loop left to pass is its meaning (R252). -/
theorem step_finish_of_legal {s : State} {i : Instr} {phase : Phase} {rest : List Event} (hr : s.rst = false)
    (hs : s.seq = .busy (.legal i) phase) (hp : s.edgePending = false) (hi : s.inbox = .finish :: rest) :
    step s = exec i { s with inbox := rest } := by
  rw [step_of_cons hi hr (.inr hp), State.onEvent, State.finish, hs]

/-- The end of the execution of an illegal command (R274). -/
theorem step_finish_of_illegal {s : State} {phase : Phase} {rest : List Event} (hr : s.rst = false)
    (hs : s.seq = .busy .illegal phase) (hi : s.inbox = .finish :: rest) :
    step s = .next (({ s with inbox := rest } : State).complete .illegalCommand) := by
  have hp : s.edgePending = false := by rw [State.edgePending, hs]
  rw [step_of_cons hi hr (.inr hp), State.onEvent, State.finish, hs, State.raise]

/-- Settles O8: an illegal word latches ILLEGAL, which passes no S-box loop and completes with ILLEGAL_COMMAND. -/
theorem illegalWordCompletesIllegal : Obligations.IllegalWordCompletesIllegal := by
  intro s w rest hidle hw
  refine ⟨s.issuedThen .illegal (.finish :: rest), commandOf_of_illegal hw ▸ step_writeCmd hidle, rfl, ?_⟩
  obtain ⟨hs, hr, -⟩ := hidle
  rw [step_finish_of_illegal (s := s.issuedThen .illegal (.finish :: rest)) hr rfl rfl]
  simp [State.complete, State.issuedThen, hs]

/-! ### The edges a build passes before it ends (R125, R131) -/

/-- The model's test for a build is the statements' condition (R134, R140, R161). -/
theorem buildsTables_iff (s : State) (i : Instr) : s.buildsTables i = true ↔ BuildsTables s i := by
  cases i <;> simp [State.buildsTables, State.setkeyPasses, keyParams_isSome_iff, BuildsTables, CtxExists, and_assoc]

theorem edgePending_of_start {s : State} {i : Instr} (h : s.seq = .busy (.legal i) .start) :
    s.edgePending = s.buildsTables i := by
  rw [State.edgePending, h]

/-- A build past both edges of its S-box loop. -/
def State.pastSboxLoop (s : State) (i : Instr) : State :=
  { s with seq := .busy (.legal i) .tail, maskLatch := s.fmask, trLatch := s.trigEn, trig := false }

theorem advance_advance_of_start {s : State} {i : Instr} (h : s.seq = .busy (.legal i) .start) :
    s.advance.advance = if s.buildsTables i then s.pastSboxLoop i else s := by
  rw [advance_of_start h]
  split
  · rw [advance_of_sboxLoop rfl, enterSboxLoop_of_start h]
    rfl
  · next hb => rw [advance_of_start h, if_neg hb]

/-- The edges change nothing of what a build does. -/
theorem exec_pastSboxLoop {s : State} {i : Instr} (h : s.seq = .busy (.legal i) .start) (hb : s.buildsTables i = true) :
    exec i (s.pastSboxLoop i) = exec i s := by
  have hp : (s.enterSboxLoop i).leaveSboxLoop i = s.pastSboxLoop i := by
    rw [enterSboxLoop_of_start h]
    rfl
  have hb' : (s.enterSboxLoop i).buildsTables i = true := by
    rw [enterSboxLoop_of_start h]
    exact hb
  rw [← hp, exec_leaveSboxLoop rfl hb', exec_enterSboxLoop h hb]

theorem run_one (s : State) : core.run 1 s = step s := by
  simp only [Host.Core.run, core]
  split <;> next h => exact h.symm

theorem run_succ_of_step {s t : State} (n : Nat) (h : step s = .next t) : core.run (n + 1) s = core.run n t := by
  simp only [Host.Core.run, show core.step s = .next t from h]

/-- With its end as the next event, a build enters its S-box loop, leaves it, and ends. -/
theorem run_build {s : State} {i : Instr} {rest : List Event} (hr : s.rst = false) (h : s.seq = .busy (.legal i) .start)
    (hb : s.buildsTables i = true) (hi : s.inbox = .finish :: rest) : core.run 3 s = exec i { s with inbox := rest } := by
  have enter : step s = .next s.advance := step_of_finish_pending hi hr ((edgePending_of_start h).trans hb)
  have leave : step s.advance = .next s.advance.advance := by
    rw [advance_of_start h, if_pos hb, enterSboxLoop_of_start h]
    exact step_of_finish_pending hi hr rfl
  have past : s.advance.advance = s.pastSboxLoop i := by rw [advance_advance_of_start h, if_pos hb]
  have run : core.run 3 s = step (s.pastSboxLoop i) := by
    rw [run_succ_of_step 2 enter, run_succ_of_step 1 leave, past, run_one]
  have ends : step (s.pastSboxLoop i) = exec i (({ s with inbox := rest } : State).pastSboxLoop i) :=
    step_finish_of_legal hr rfl rfl hi
  exact run.trans (ends.trans (exec_pastSboxLoop h hb))

/-- What withFetchWord leaves to run has the meaning of the issued command (log 10). -/
theorem step_latchWord {s : State} {w : Word} {i : Instr} (h : decode s.params w = .ok i) :
    step (s.latchWord w) = exec i { s.issue w with rst := false } := by
  have hs : (s.issue w).seq = .busy (.legal i) .start := congrArg (Seq.busy · .start) (commandOf_of_decode h)
  rw [State.latchWord, advance_advance_of_start hs]
  split
  · next hb =>
    exact (step_finish_of_legal rfl rfl rfl rfl).trans (exec_pastSboxLoop (s := { s.issue w with rst := false }) hs hb)
  · next hb =>
    exact step_finish_of_legal rfl hs ((edgePending_of_start hs).trans (Bool.eq_false_iff.mpr hb)) rfl

/-- Settles O7: the issue latches the command, whose end comes after the edges of its S-box loop, if it builds. -/
theorem commandWordRuns : Obligations.CommandWordRuns := by
  refine ⟨fun s w i rest hidle hd => ?_, fun s nbits w i hd => ?_⟩
  · obtain ⟨-, hr, -⟩ := id hidle
    refine ⟨s.issuedThen (.legal i) (.finish :: rest), commandOf_of_decode hd ▸ step_writeCmd hidle, rfl, fun hb => ?_, fun hb => ?_⟩
    · have noEdge := (edgePending_of_start rfl).trans (Bool.eq_false_iff.mpr (mt (buildsTables_iff _ i).mp hb))
      exact step_finish_of_legal hr rfl noEdge rfl
    · exact run_build hr rfl ((buildsTables_iff _ i).mpr hb) rfl
  · rw [State.withFetchWord, step_latchWord hd, State.issue, commandOf_of_decode hd]

/-! ### What a command leaves unchanged (R93) -/

/-- A command writes its results, its context, DATA_MEM, the table set and scratch, before it completes. -/
theorem Effect.frame {s u : State} (hu : Effect s u) :
    u =
      { s with
        dout := u.dout
        iv := u.iv
        ctx := u.ctx
        tables := u.tables
        tblDone := u.tblDone
        pow := u.pow
        log := u.log
        maskLatch := u.maskLatch
        trLatch := u.trLatch
        x := u.x
        y := u.y
        tmpk := u.tmpk
        chain := u.chain
        save := u.save
        trig := u.trig
        mem := u.mem } := by
  cases hu with
  | build => rw [ensureTables_frame]
  | setkey =>
    rw [ensureTables_frame]
    rfl
  | none | ecb | cbc | wipe => rfl

/-- Only CRYPT_ECB writes DOUT, only CRYPT_CBC the IV and DATA_MEM, only SETKEY and WIPE a context, their own. -/
theorem exec_writes_own {i : Instr} {s t : State} (h : exec i s = .next t) :
    ((∀ c, i ≠ .cryptEcb c) → t.dout = s.dout) ∧
    ((∀ c, i ≠ .cryptCbc c) → t.iv = s.iv ∧ t.mem = s.mem) ∧
    (∀ c, i ≠ .setkeyEnc c → i ≠ .setkeyDec c → i ≠ .wipe c → t.ctxAt c = s.ctxAt c) := by
  have other {c c' : CtxIdx} (v : Context) (hc : c' ≠ c) : (s.ensureTables.setCtx c v).ctxAt c' = s.ctxAt c' :=
    (ctxAt_setCtx_of_ne _ c c' v hc).trans (ensureTables_ctxAt s c')
  rcases exec_cases i s with ⟨e, he⟩ | ⟨-, he⟩ | ⟨c, kp, rfl, -, -, -, he⟩ | ⟨c, kp, rfl, -, -, -, he⟩ | ⟨c, d, rfl, -, -, -, he⟩ |
    ⟨c, d, rfl, -, -, h16, hp, -, -, -, he⟩ | ⟨c, rfl, -, he⟩ <;> rw [he] at h <;> cases h
  · exact ⟨fun _ => rfl, fun _ => ⟨rfl, rfl⟩, fun _ _ _ _ => rfl⟩
  · exact ⟨fun _ => ensureTables_dout s, fun _ => ⟨ensureTables_iv s, ensureTables_mem s⟩, fun c _ _ _ => ensureTables_ctxAt s c⟩
  · rw [keyEncrypt_eq]
    exact ⟨fun _ => ensureTables_dout s, fun _ => ⟨ensureTables_iv s, ensureTables_mem s⟩,
      fun c' hc _ _ => other _ fun e => hc (e ▸ rfl)⟩
  · rw [keyDecrypt_eq]
    exact ⟨fun _ => ensureTables_dout s, fun _ => ⟨ensureTables_iv s, ensureTables_mem s⟩,
      fun c' _ hc _ => other _ fun e => hc (e ▸ rfl)⟩
  · exact ⟨fun hi => absurd rfl (hi c), fun _ => ⟨rfl, rfl⟩, fun _ _ _ _ => rfl⟩
  · rw [cryptChain_eq s c d hp h16 _ rfl]
    exact ⟨fun _ => rfl, fun hi => absurd rfl (hi c), fun _ _ _ _ => rfl⟩
  · exact ⟨fun _ => rfl, fun _ => ⟨rfl, rfl⟩, fun c' _ _ hc => ctxAt_setCtx_of_ne s c c' _ fun e => hc (e ▸ rfl)⟩

/-- Settles O14, by the frame every command's effect shares and by what each command writes of its own. -/
theorem commandsKeepWhatTheyDoNotWrite : Obligations.CommandsKeepWhatTheyDoNotWrite := by
  intro i s t h
  obtain ⟨hdout, hcbc, hctx⟩ := exec_writes_own h
  obtain ⟨u, e, hu, rfl⟩ := exec_effect h
  have hepoch : u.epoch = s.epoch := by rw [hu.frame]
  refine ⟨?_, hdout, fun hi => ?_, hctx⟩
  · rw [hu.frame]
    and_intros <;> rfl
  · obtain ⟨hiv, hmem⟩ := hcbc hi
    exact ⟨hiv, memByte_congr hmem hepoch⟩

end Sys2Proof.Machine

/-! SUPPORT. Proofs of the statements of 40_tables.md: the fields BUILD_TABLES leaves, the S-boxes it makes of them with and without a
skipped index, and what the steps of the core do to the table set and to `trig`. -/

namespace Sys2Proof.Machine

open Sys2Proof.Statements

/-! ### BUILD_TABLES (R125, R134) -/

/-- A build that has not entered its S-box loop latches FMASK and TRIG_EN (R125 step 1). -/
theorem latchBuild_of_notYetLatched {s : State} (h : NotYetLatched s) :
    s.latchBuild = { s with maskLatch := s.fmask, trLatch := s.trigEn } := by
  rcases latchBuild_cases s with ⟨-, cmd, phase, hs, hp⟩ | ⟨hl, -⟩
  · exact absurd (h cmd phase hs) hp
  · exact hl

/-- A build past that point has latched them. -/
theorem latchBuild_of_latched {s : State} (h : ¬ NotYetLatched s) : s.latchBuild = s := by
  rcases latchBuild_cases s with ⟨hl, -⟩ | ⟨-, hs⟩
  · exact hl
  · exact absurd hs h

/-- Where the table set is not built, BUILD_TABLES is the build and a completion (R134). -/
theorem exec_buildTables_of_unbuilt {s : State} (hd : s.tblDone = false) :
    exec .buildTables s = .next (s.build.complete .ok) := by
  rw [exec_buildTables, ensureTables_of_unbuilt s hd]

/-- Settles O18: the build writes the builder's fields, and its latch is FMASK and TRIG_EN, or what stands there. -/
theorem buildTablesCompletes : Obligations.BuildTablesCompletes := by
  refine fun s => ⟨fun hd => ?_, fun hd => ?_⟩
  · rw [exec_buildTables, ensureTables_of_built s hd]
    rfl
  · have hframe := ensureTables_frame s
    rw [ensureTables_of_unbuilt s hd] at hframe
    refine ⟨_, exec_buildTables_of_unbuilt hd, fun hn => ?_, fun hn => ?_, memByte_congr (build_mem s) (build_epoch s), ?_⟩
    · rw [State.build, latchBuild_of_notYetLatched hn]
      exact ⟨rfl, rfl⟩
    · rw [State.build, latchBuild_of_latched hn]
      exact ⟨rfl, rfl⟩
    · conv_lhs => rw [hframe]
      rfl

/-! ### The S-box without its tables (R127-R129) -/

/-- The inverse the S-box is made of (R127, R128), with 0 for 0, whose affine transform is the 0x63 of FSB[0]. What the LOG RAM held
before the build does not matter to it, so it is read over a blank RAM. -/
def fieldInverse (i : Byte) : Byte :=
  if i = 0 then 0 else tableAt powTable (255 - tableAt (logTable (Vector.replicate 256 0)) i)

theorem fieldInverse_zero : fieldInverse 0 = 0 := if_pos rfl

theorem affine_fieldInverse_zero : affine (fieldInverse 0) = 0x63 := by
  rw [fieldInverse_zero]
  rfl

theorem fieldInverse_of_ne_zero (log : ByteTable) {i : Byte} (hi : i ≠ 0) :
    fieldInverse i = tableAt powTable (255 - tableAt (logTable log) i) := by
  rw [fieldInverse, if_neg hi, logTable_of_ne_zero log i hi]

theorem fieldInverse_ne_zero {i : Byte} (hi : i ≠ 0) : fieldInverse i ≠ 0 := by
  rw [fieldInverse, if_neg hi]
  exact powTable_ne_zero _

theorem gmul_fieldInverse {i : Byte} (hi : i ≠ 0) : gmul i (fieldInverse i) = 1 := by
  rw [fieldInverse, if_neg hi]
  exact gmul_inverse _ i hi

/-- Two nonzero bytes with one inverse have one logarithm. -/
theorem fieldInverse_injective : Function.Injective fieldInverse := by
  intro i j h
  by_cases hi : i = 0
  · by_contra hj
    rw [hi, fieldInverse_zero] at h
    exact fieldInverse_ne_zero (fun hj0 => hj (hi.trans hj0.symm)) h.symm
  by_cases hj : j = 0
  · rw [hj, fieldInverse_zero] at h
    exact absurd h (fieldInverse_ne_zero hi)
  have exponent_ne_last {l : Byte} (hl : l ≠ 0) : 255 - l ≠ 255 := by
    revert l
    decide
  rw [fieldInverse, fieldInverse, if_neg hi, if_neg hj] at h
  have hsub := powTable_injective (exponent_ne_last (logTable_ne_zero _ i hi)) (exponent_ne_last (logTable_ne_zero _ j hj)) h
  have hlog := (BitVec.sub_right_inj _).mp hsub
  rw [← powTable_logTable (Vector.replicate 256 0) i hi, hlog, powTable_logTable _ j hj]

/-- The rotate-XOR combination is 1 + r + r² + r³ + r⁴ of the rotation r, whose fourth power is 1. -/
theorem rotateXor_iterate_four : ∀ x : Byte, rotateXor (rotateXor (rotateXor (rotateXor x))) = x := by decide +kernel

theorem affine_injective : Function.Injective affine := by
  intro x y h
  have h : rotateXor x = rotateXor y := (BitVec.xor_left_inj 0x63).mp h
  rw [← rotateXor_iterate_four x, h, rotateXor_iterate_four]

theorem affine_ne_self : ∀ x : Byte, affine x ≠ x := by decide +kernel

/-- In both fault forms a skipped index gets another value than the affine transform (R129). -/
theorem affineOrFault_true_ne (form : FaultForm) (x : Byte) : affineOrFault form x true ≠ affine x := by
  cases form with
  | noConst =>
    intro h
    have h : rotateXor x ^^^ 0 = rotateXor x ^^^ 0x63 := (BitVec.xor_zero).trans h
    exact absurd ((BitVec.xor_right_inj _).mp h) (by decide)
  | preAffine => exact (affine_ne_self x).symm

theorem affineOrFault_eq_sboxValue (form : FaultForm) (x : Byte) (skip : Bool) :
    affineOrFault form x skip = sboxValue form x skip := by
  cases skip <;> cases form <;> simp [affineOrFault, affine, sboxValue, rotateXor_eq]

theorem maskBit_eq_getD (mask : Vector Word 8) (i : Byte) :
    maskBit mask i = (mask.toList.getD (i.toNat / 32) 0).getLsbD (i.toNat % 32) := by
  have := i.isLt
  rw [maskBit, List.getD_eq_getElem _ _ (by rw [Vector.length_toList]; omega), Vector.getElem_toList]

theorem maskBit_replicate_zero (i : Byte) : maskBit (Vector.replicate 8 0) i = false := by simp [maskBit]

/-! ### The tables a build leaves -/

section Built

variable {s t : State} (hd : s.tblDone = false) (h : exec .buildTables s = .next t)
include hd h

theorem eq_build_of_exec : t = s.build.complete .ok :=
  (Host.Outcome.next.inj ((exec_buildTables_of_unbuilt hd).symm.trans h)).symm

theorem built_pow : t.pow = powTable := by
  rw [eq_build_of_exec hd h]
  rfl

theorem built_log : t.log = logTable s.log := by simp [eq_build_of_exec hd h]

theorem built_tables :
    t.tables = buildTableSet s.params.faultForm t.maskLatch powTable (logTable s.log) s.tables.rsb := by
  simp [eq_build_of_exec hd h, build_tables, build_maskLatch]

theorem built_rcon : t.tables.rcon = rconTable := by rw [built_tables hd h, buildTableSet_rcon]

theorem built_rsb : t.tables.rsb = reverseSbox s.tables.rsb t.tables.fsb := by
  rw [built_tables hd h, buildTableSet_rsb]

/-- FSB[i] is the affine transform of the inverse, or the faulted value where i is skipped; index 0 never is (R127). -/
theorem built_fsb (i : Byte) :
    tableAt t.tables.fsb i =
      affineOrFault s.params.faultForm (fieldInverse i) (decide (i ≠ 0) && maskBit t.maskLatch i) := by
  rw [built_tables hd h, tableAt_buildTableSet_fsb]
  split
  · next hi =>
    rw [hi]
    exact affine_fieldInverse_zero.symm
  · next hi => rw [fieldInverse_of_ne_zero s.log hi, decide_eq_true hi, Bool.true_and]

theorem built_fsb_of_not_skipped {i : Byte} (hi : i ≠ 0 → maskBit t.maskLatch i = false) :
    tableAt t.tables.fsb i = affine (fieldInverse i) := by
  have hskip : (decide (i ≠ 0) && maskBit t.maskLatch i) = false := by
    by_cases hz : i = 0
    · rw [hz]
      rfl
    · rw [hi hz, Bool.and_false]
  rw [built_fsb hd h, hskip]
  rfl

theorem built_fsb_of_skipped {i : Byte} (hz : i ≠ 0) (hi : maskBit t.maskLatch i = true) :
    tableAt t.tables.fsb i = affineOrFault s.params.faultForm (fieldInverse i) true := by
  rw [built_fsb hd h, hi, decide_eq_true hz]
  rfl

/-- A build that starts the S-box loop latches FMASK (R126). -/
theorem built_maskLatch (hn : NotYetLatched s) : t.maskLatch = s.fmask := by
  rw [eq_build_of_exec hd h, State.build, latchBuild_of_notYetLatched hn]
  rfl

end Built

/-- Settles O19, by the laws of POW and LOG as powers and logarithms of 3. -/
theorem buildPowLogRcon : Obligations.BuildPowLogRcon := by
  intro s t hd h
  rw [built_pow hd h, built_log hd h, built_rcon hd h]
  refine ⟨⟨powTable_zero, powTable_last⟩, powTable_succ, fun y hy => ?_,
    fun y hy hy1 => ⟨logTable_ne_zero _ y hy, logTable_ne_255 _ y hy hy1, powTable_logTable _ y hy⟩,
    logTable_one _, logTable_zero _, rconTable_toList⟩
  obtain ⟨e, he, hpow⟩ : ∃ e : Byte, e ≠ 255 ∧ tableAt powTable e = y := by
    by_cases hy1 : y = 1
    · exact ⟨0, by decide, powTable_zero.trans hy1.symm⟩
    · exact ⟨_, logTable_ne_255 s.log y hy hy1, powTable_logTable s.log y hy⟩
  exact ⟨e, he, hpow, fun e' he' hpow' => powTable_injective he' he (hpow'.trans hpow.symm)⟩

/-- Settles O20: MUL through POW and LOG adds exponents of 3. -/
theorem tableProductIsFieldProduct : Obligations.TableProductIsFieldProduct := by
  intro s t hd h a b
  rw [built_pow hd h, built_log hd h, tableMul_eq_gmul]

/-- Settles O21: the value the S-box loop looks up is the inverse, and the hook does not cover index 0. -/
theorem buildForwardSbox : Obligations.BuildForwardSbox := by
  refine fun s t hd h => ⟨?_, fun i hi => ⟨fieldInverse i, gmul_fieldInverse hi, ?_⟩⟩
  · exact (built_fsb_of_not_skipped hd h (absurd rfl)).trans affine_fieldInverse_zero
  · rw [built_fsb hd h, affineOrFault_eq_sboxValue, maskBit_eq_getD, decide_eq_true hi, Bool.true_and]

/-- Settles O22: the loop runs upwards, so the last write of an entry is that of the largest index. -/
theorem buildReverseSbox : Obligations.BuildReverseSbox := by
  intro s t hd h x
  rw [built_rsb hd h]
  exact ⟨reverseSbox_of_unmapped _ _ x, fun i => reverseSbox_of_largest _ _ i x⟩

/-! ### The T-tables (R135, R136) -/

theorem rotlTimes_eq_iterate (k : Nat) (w : Word) : rotlTimes k w = rotlWord8^[k] w := by
  induction k with
  | zero => rfl
  | succ k ih => rw [rotlTimes, ih, Function.iterate_succ_apply']

/-- Settles O23: table k is k rotations of table 0, whose entries are the products of one S-box entry. -/
theorem buildTTables : Obligations.BuildTTables := by
  intro s t hd h k i
  rw [rotlTimes_eq_iterate, rotlTimes_eq_iterate, built_tables hd h]
  exact ⟨tableAt_buildTableSet_ft _ _ _ _ _ k i, tableAt_buildTableSet_rt _ _ _ _ k i⟩

/-! ### A fault-free build (R137) -/

/-- An entry one index maps to holds that index. -/
theorem reverseSbox_of_unique (rsb : ByteTable) {fsb : ByteTable} {i x : Byte} (h : tableAt fsb i = x)
    (hu : ∀ j, tableAt fsb j = x → j = i) : tableAt (reverseSbox rsb fsb) x = i :=
  reverseSbox_of_largest rsb fsb i x h fun j hj hx => absurd (hu j hx) (BitVec.ne_of_lt hj).symm

/-- The AES S-box, value by value (R128, R137). -/
theorem map_affine_fieldInverse : allBytes.map (fun i => affine (fieldInverse i)) = sboxTable := by decide +kernel

section FaultFree

variable {s t : State} (hd : s.tblDone = false) (hn : NotYetLatched s) (hm : s.fmask = Vector.replicate 8 0)
  (h : exec .buildTables s = .next t)
include hd hn hm h

theorem faultFree_fsb (i : Byte) : tableAt t.tables.fsb i = affine (fieldInverse i) :=
  built_fsb_of_not_skipped hd h fun _ => by rw [built_maskLatch hd h hn, hm, maskBit_replicate_zero]

theorem faultFree_fsb_injective : Function.Injective (tableAt t.tables.fsb) := by
  rw [funext (faultFree_fsb hd hn hm h)]
  exact affine_injective.comp fieldInverse_injective

theorem faultFree_fsb_toList : t.tables.fsb.toList = sboxTable := by
  have hfsb : t.tables.fsb = tableOf fun i => affine (fieldInverse i) :=
    table_ext fun i => (faultFree_fsb hd hn hm h i).trans (tableAt_tableOf (fun i => affine (fieldInverse i)) i).symm
  rw [hfsb, ← map_affine_fieldInverse]
  rfl

/-- A fault-free build leaves a fault-free table set: RSB inverts FSB, since no two indices collide. -/
theorem faultFree_tables : t.tables.FaultFree where
  rsb_fsb i := by
    rw [built_rsb hd h]
    exact reverseSbox_of_unique _ rfl fun j hj => faultFree_fsb_injective hd hn hm h hj
  ft_entry k i := rotlTimes_eq_iterate k.val _ ▸ (buildTTables s t hd h k i).1
  rt_entry k i := rotlTimes_eq_iterate k.val _ ▸ (buildTTables s t hd h k i).2

end FaultFree

/-- Settles O24: the inverse and the affine transform are injective, so FSB is a permutation, and RSB its inverse. -/
theorem faultFreeTables : Obligations.FaultFreeTables := by
  intro s t hd hn hm h
  have hinj := faultFree_fsb_injective hd hn hm h
  have hsurj := Finite.surjective_of_injective hinj
  have hrsb := (faultFree_tables hd hn hm h).rsb_fsb
  refine ⟨faultFree_fsb_toList hd hn hm h, fun x y hxy => hinj hxy, hsurj, fun x => ⟨?_, hrsb x⟩, buildTTables s t hd h⟩
  obtain ⟨i, rfl⟩ := hsurj x
  rw [hrsb]

/-! ### A skipped index (R130, R138) -/

section SkippedIndex

variable {fsb₀ fsb₁ : ByteTable} {i₀ : Byte} (rsb : ByteTable) (hinj : Function.Injective (tableAt fsb₀))
  (hsame : ∀ i, i ≠ i₀ → tableAt fsb₁ i = tableAt fsb₀ i)
include hinj hsame

/-- Only the skipped index can reach an S-box value by the fault; every other index reaches what it did. -/
theorem index_of_faulted {i j : Byte} (h : tableAt fsb₁ j = tableAt fsb₀ i) : j = i₀ ∨ j = i := by
  by_cases hj : j = i₀
  · exact .inl hj
  · exact .inr (hinj ((hsame j hj).symm.trans h))

/-- The value the skipped index gives up is left unmapped: its RSB entry keeps what it held. -/
theorem reverseSbox_faulted_at_old (hne : tableAt fsb₁ i₀ ≠ tableAt fsb₀ i₀) :
    tableAt (reverseSbox rsb fsb₁) (tableAt fsb₀ i₀) = tableAt rsb (tableAt fsb₀ i₀) := by
  refine reverseSbox_of_unmapped _ _ _ fun i hi => ?_
  obtain rfl | rfl := index_of_faulted hinj hsame hi <;> exact hne hi

/-- A value that the skipped index neither gives up nor takes keeps its RSB entry. -/
theorem reverseSbox_faulted_of_ne {x : Byte} (h₀ : x ≠ tableAt fsb₀ i₀) (h₁ : x ≠ tableAt fsb₁ i₀) :
    tableAt (reverseSbox rsb fsb₁) x = tableAt (reverseSbox rsb fsb₀) x := by
  obtain ⟨i, rfl⟩ := Finite.surjective_of_injective hinj x
  have hi : i ≠ i₀ := fun e => h₀ (congrArg _ e)
  rw [reverseSbox_of_unique rsb (hsame i hi) fun j hj => ?_, reverseSbox_of_unique rsb rfl fun j hj => hinj hj]
  refine (index_of_faulted hinj hsame hj).resolve_left fun e => h₁ ?_
  rw [← hj, e]

/-- The value the skipped index takes has two indices, and the larger wins (R130). -/
theorem reverseSbox_faulted_at_new (hne : tableAt fsb₁ i₀ ≠ tableAt fsb₀ i₀) {i₁ : Byte}
    (h : tableAt fsb₀ i₁ = tableAt fsb₁ i₀) :
    tableAt (reverseSbox rsb fsb₁) (tableAt fsb₁ i₀) = if i₀ < i₁ then i₁ else i₀ := by
  have hi : i₁ ≠ i₀ := fun e => hne (h.symm.trans (congrArg _ e))
  have index {j : Byte} (hj : tableAt fsb₁ j = tableAt fsb₁ i₀) : j = i₀ ∨ j = i₁ :=
    index_of_faulted hinj hsame (hj.trans h.symm)
  split
  · next hlt =>
    refine reverseSbox_of_largest _ _ _ _ ((hsame i₁ hi).trans h) fun j hj hx => ?_
    obtain rfl | rfl := index hx
    · exact BitVec.lt_asymm hj hlt
    · exact BitVec.lt_irrefl _ hj
  · next hlt =>
    refine reverseSbox_of_largest _ _ _ _ rfl fun j hj hx => ?_
    obtain rfl | rfl := index hx
    · exact BitVec.lt_irrefl _ hj
    · exact hlt hj

end SkippedIndex

theorem rotlWord8_injective : Function.Injective rotlWord8 := fun v w h =>
  word_ext_lanes fun k => by
    have hk := congrArg (byteLane · (k + 1)) h
    simpa [byteLane_rotlWord8] using hk

/-- Each FT entry shows its S-box entry in a lane of its own, so different entries of FSB have different ones in FT[k]. -/
theorem rotlTimes_forwardEntry_injective (k : Nat) :
    Function.Injective fun b => rotlTimes k (wordOf (gmul 0x02 b) b b (gmul 0x03 b)) := by
  intro a b h
  simp only [rotlTimes_eq_iterate] at h
  have hw := rotlWord8_injective.iterate k h
  simpa using congrArg (byteLane · 1) hw

/-- The word of products of 0 is 0, in every rotation: the RT entries of an unmapped value. -/
theorem rotlTimes_reverseEntry_zero (k : Nat) :
    rotlTimes k (wordOf (gmul 0x0E 0) (gmul 0x09 0) (gmul 0x0D 0) (gmul 0x0B 0)) = 0 := by
  induction k with
  | zero => decide
  | succ k ih =>
    rw [rotlTimes, ih]
    rfl

/-- Settles O25: the fault moves one index from x0 to x1; FT follows FSB and RT follows RSB entry by entry. -/
theorem faultReach : Obligations.FaultReach := by
  intro s t₀ t₁ mask i₀ hd hblank hn hm hi₀ hmask h₀ h₁ x₀ x₁
  have hd₁ : ({ s with fmask := mask } : State).tblDone = false := hd
  have hfsb₀ := faultFree_fsb hd hn hm h₀
  have hinj := faultFree_fsb_injective hd hn hm h₀
  have hskip (i : Byte) (hi : i ≠ 0) : maskBit t₁.maskLatch i = true ↔ i = i₀ := by
    rw [built_maskLatch hd₁ h₁ hn, maskBit_eq_getD]
    exact hmask i hi
  have hsame (i : Byte) (hi : i ≠ i₀) : tableAt t₁.tables.fsb i = tableAt t₀.tables.fsb i := by
    rw [built_fsb_of_not_skipped hd₁ h₁ fun hz => Bool.eq_false_iff.mpr (mt (hskip i hz).mp hi)]
    exact (hfsb₀ i).symm
  have hne : x₁ ≠ x₀ := by
    rw [show x₀ = affine (fieldInverse i₀) from hfsb₀ i₀,
      show x₁ = affineOrFault s.params.faultForm (fieldInverse i₀) true from
        built_fsb_of_skipped hd₁ h₁ hi₀ ((hskip i₀ hi₀).mpr rfl)]
    exact affineOrFault_true_ne _ _
  have hft (k : Fin 4) (i : Byte) := (buildTTables s t₀ hd h₀ k i).1
  have hft₁ (k : Fin 4) (i : Byte) := (buildTTables _ t₁ hd₁ h₁ k i).1
  have hrt (k : Fin 4) (i : Byte) := (buildTTables s t₀ hd h₀ k i).2
  have hrt₁ (k : Fin 4) (i : Byte) := (buildTTables _ t₁ hd₁ h₁ k i).2
  have hrsb₀ := built_rsb hd h₀
  have hrsb₁ : t₁.tables.rsb = reverseSbox s.tables.rsb t₁.tables.fsb := built_rsb (s := { s with fmask := mask }) hd h₁
  have hold : tableAt t₁.tables.rsb x₀ = 0 := by
    rw [hrsb₁, reverseSbox_faulted_at_old _ hinj hsame hne, (hblank hd).1]
    exact tableAt_replicate _ _
  have hother (x : Byte) (hx₀ : x ≠ x₀) (hx₁ : x ≠ x₁) : tableAt t₁.tables.rsb x = tableAt t₀.tables.rsb x := by
    rw [hrsb₀, hrsb₁]
    exact reverseSbox_faulted_of_ne _ hinj hsame hx₀ hx₁
  refine ⟨hne, fun k he => ?_, fun i hi => ⟨hsame i hi, fun k => ?_⟩, ⟨hold, fun k => ?_⟩,
    fun x hx₀ hx₁ => ⟨hother x hx₀ hx₁, fun k => ?_⟩, fun i₁ hi₁ => ?_, ?_, ?_, ?_⟩
  · rw [hft, hft₁] at he
    exact hne (rotlTimes_forwardEntry_injective k he)
  · rw [hft, hft₁, hsame i hi]
  · rw [hrt₁, hold, rotlTimes_reverseEntry_zero]
  · rw [hrt, hrt₁, hother x hx₀ hx₁]
  · rw [hrsb₁]
    exact reverseSbox_faulted_at_new _ hinj hsame hne hi₁
  · rw [built_rcon hd h₀, built_rcon hd₁ h₁]
  · rw [built_pow hd h₀, built_pow hd₁ h₁]
  · rw [built_log hd h₀, built_log hd₁ h₁]

/-! ### What the steps do to the table set and to `trig` (R131, R132) -/

section Moves

variable {s t u : State} {head : Option Event}

theorem Effect.tables_eq_of_built (hu : Effect s u) (hd : s.tblDone = true) :
    u.tables = s.tables ∧ u.pow = s.pow ∧ u.log = s.log ∧ u.maskLatch = s.maskLatch ∧ u.tblDone = true := by
  cases hu with
  | build | setkey =>
    rw [ensureTables_of_built s hd]
    exact ⟨rfl, rfl, rfl, rfl, hd⟩
  | none | ecb | cbc | wipe => exact ⟨rfl, rfl, rfl, rfl, hd⟩

/-- A built table set has no way to change but reset: no command builds any more (R132). -/
theorem Move.tables_eq_of_built (hm : Move s head t) (hd : s.tblDone = true) (hh : head ≠ some (.reset true)) :
    t.tables = s.tables ∧ t.pow = s.pow ∧ t.log = s.log ∧ t.maskLatch = s.maskLatch ∧ t.tblDone = true := by
  cases hm with
  | write r v => rw [writeReg_frame]; exact ⟨rfl, rfl, rfl, rfl, hd⟩
  | enterLoop i _ hb => exact absurd (hd.symm.trans (tblDone_of_builds hb)) nofun
  | finish u e _ _ hu => exact hu.tables_eq_of_built hd
  | assertReset he => exact absurd he hh
  | stay | hazard | leaveLoop | release => exact ⟨rfl, rfl, rfl, rfl, hd⟩

/-- `trig` is 0 where the table set is built: a command inside the S-box loop builds (R74, R131). -/
theorem trig_eq_false_of_built (ht : s.TrigBracket) (hl : s.BuildLatched) (hd : s.tblDone = true) : s.trig = false := by
  refine (trigBracket_iff_of_outside fun cmd hs => ?_).mp ht
  obtain ⟨⟨i, -, hb⟩, -⟩ := hl cmd .sboxLoop hs nofun
  exact absurd (hd.symm.trans (tblDone_of_builds hb)) nofun

/-- Only the entry into an S-box loop raises `trig` (R131). -/
theorem Move.trig_eq_false (hm : Move s head t) (h : s.trig = false)
    (hb : ∀ i, s.seq = .busy (.legal i) .start → ¬ s.buildsTables i = true) : t.trig = false := by
  cases hm with
  | write r v => rw [writeReg_frame]; exact h
  | enterLoop i hs hi => exact absurd hi (hb i hs)
  | finish u e _ _ hu => exact hu.trig_eq_false h
  | leaveLoop | assertReset => rfl
  | stay | hazard | release => exact h

/-- A running build ends only past its S-box loop, and is past it only from inside it (R131). -/
theorem Move.phase_of_build {i : Instr} {phase : Phase} (hm : Move s head t) (hs : s.seq = .busy (.legal i) phase)
    (hb : s.buildsTables i = true) (hh : head ≠ some (.reset true)) :
    (t.seq = .idle → phase = .tail) ∧ (t.seq = .busy (.legal i) .tail → phase ≠ .start) := by
  have stays (ht : t.seq = s.seq) :
      (t.seq = .idle → phase = .tail) ∧ (t.seq = .busy (.legal i) .tail → phase ≠ .start) := by
    rw [ht, hs]
    exact ⟨nofun, fun h => by cases h; nofun⟩
  cases hm with
  | stay | hazard | release => exact stays rfl
  | write r v hi => exact absurd (hi.symm.trans hs) nofun
  | enterLoop j => exact ⟨nofun, nofun⟩
  | leaveLoop j hj =>
    cases hs.symm.trans hj
    exact ⟨nofun, nofun⟩
  | finish u e _ hp =>
    refine ⟨fun _ => ?_, nofun⟩
    cases phase with
    | start => exact absurd (((edgePending_of_start hs).trans hb).symm.trans hp) nofun
    | sboxLoop => simp [State.edgePending, hs] at hp
    | tail => rfl
  | assertReset he => exact absurd he hh

end Moves

/-- Settles O26: no move but reset writes a built table set, and the trigger invariants, which the step keeps, make `trig` 0. -/
theorem tablesWriteOnce : Obligations.TablesWriteOnce := by
  intro s t hd hh hstep
  have hkept := triggerBracketKept s t
  obtain ⟨l, u, r, f, hm, rfl⟩ := step_move hstep
  obtain ⟨htab, hpow, hlog, hmask, hdone⟩ := hm.tables_eq_of_built hd hh
  refine ⟨htab, hpow, hlog, hmask, hdone, fun ht hl => ?_⟩
  obtain ⟨ht', hl'⟩ := hkept ht hl hstep
  exact trig_eq_false_of_built ht' hl' hdone

/-! ### The edges of `trig` (R131) -/

section Edges

variable {s t : State} {i : Instr} {l : List Event}

/-- The outside world lets the running command go on, and l is what is to come after the next edge: an `advance` event is used up by
it, the end of the execution waits (log 7). -/
def State.GoesOn (s : State) (l : List Event) : Prop :=
  s.inbox = .advance :: l ∨ (l = s.inbox ∧ (s.inbox = [] ∨ ∃ rest, s.inbox = .finish :: rest))

theorem step_of_goesOn (h : s.GoesOn l) (hr : s.rst = false) (hp : s.edgePending = true) :
    step s = .next ({ s with inbox := l } : State).advance := by
  rcases h with hi | ⟨rfl, hi | ⟨rest, hi⟩⟩
  · exact step_of_cons hi hr (.inl nofun)
  · exact step_of_nil_pending hi hp
  · exact step_of_finish_pending hi hr hp

/-- The first edge of a build: `trig` takes TRIG_EN (R131). -/
theorem sboxLoop_of_step (h : s.GoesOn l) (hr : s.rst = false) (hs : s.seq = .busy (.legal i) .start)
    (hb : s.buildsTables i = true) (hstep : step s = .next t) :
    t.seq = .busy (.legal i) .sboxLoop ∧ t.trig = s.trigEn ∧ t.rst = false ∧ t.inbox = l := by
  have hadv : ({ s with inbox := l } : State).advance = ({ s with inbox := l } : State).enterSboxLoop i :=
    (advance_of_start (s := { s with inbox := l }) hs).trans (if_pos hb)
  rw [step_of_goesOn h hr ((edgePending_of_start hs).trans hb), hadv, enterSboxLoop_of_start (s := { s with inbox := l }) hs] at hstep
  cases hstep
  exact ⟨rfl, rfl, hr, rfl⟩

/-- The second edge of a build: `trig` is 0 again (R131). -/
theorem tail_of_step (h : s.GoesOn l) (hr : s.rst = false) (hs : s.seq = .busy (.legal i) .sboxLoop)
    (hstep : step s = .next t) : t.seq = .busy (.legal i) .tail ∧ t.trig = false := by
  have hp : s.edgePending = true := by rw [State.edgePending, hs]
  rw [step_of_goesOn h hr hp, advance_of_sboxLoop (s := { s with inbox := l }) hs] at hstep
  cases hstep
  exact ⟨rfl, rfl⟩

/-- A command with no edge to pass ends, or stays as it is. -/
theorem idle_or_eq_of_goesOn (h : s.GoesOn l) (hr : s.rst = false) (hs : s.seq = .busy (.legal i) .start)
    (hb : ¬ s.buildsTables i = true) (hstep : step s = .next t) : t.seq = .idle ∨ t = { s with inbox := l } := by
  have hp : s.edgePending = false := (edgePending_of_start hs).trans (Bool.eq_false_iff.mpr hb)
  have idle {v : State} (he : exec i v = .next t) : t.seq = .idle := by
    obtain ⟨u, e, -, rfl⟩ := exec_effect he
    rfl
  rcases h with hi | ⟨rfl, hi | ⟨rest, hi⟩⟩
  · have hadv : ({ s with inbox := l } : State).advance = { s with inbox := l } := 
      (advance_of_start (s := { s with inbox := l }) hs).trans (if_neg hb)
    rw [step_of_cons hi hr (.inl nofun), State.onEvent, hadv] at hstep
    exact .inr (Host.Outcome.next.inj hstep).symm
  · rw [step_of_nil hi hp, State.finish, hs] at hstep
    exact .inl (idle hstep)
  · rw [step_finish_of_legal hr hs hp hi] at hstep
    exact .inl (idle hstep)

/-- Only a step out of the start of a build raises `trig` (R131). -/
theorem trig_eq_false_of_step (h : s.trig = false) (hb : ∀ j, s.seq = .busy (.legal j) .start → ¬ s.buildsTables j = true)
    (hstep : step s = .next t) : t.trig = false := by
  obtain ⟨l, u, r, f, hm, rfl⟩ := step_move hstep
  exact hm.trig_eq_false h hb

end Edges

/-- Settles O53: a build passes one edge in each of the two steps; no other step but reset leads past an edge. -/
theorem triggerEdges : Obligations.TriggerEdges := by
  refine ⟨fun s t u i hr hs htrig hinbox hst htu => ?_, fun s t i phase hr hs hb hh hstep => ?_⟩
  · obtain ⟨l, l', hl, hl'⟩ : ∃ l l', s.GoesOn l ∧ ∀ v : State, v.inbox = l → v.GoesOn l' := by
      rcases hinbox with hi | hi | ⟨rest, hi⟩
      · exact ⟨_, _, .inr ⟨rfl, .inl hi⟩, fun v hv => .inr ⟨hv.symm, .inl (hv.trans hi)⟩⟩
      · exact ⟨_, _, .inr ⟨rfl, .inr hi⟩, fun v hv => .inr ⟨hv.symm, .inr (hv ▸ hi)⟩⟩
      · exact ⟨_, rest, .inl hi, fun v hv => .inl hv⟩
    rw [← buildsTables_iff]
    refine ⟨fun hb => ?_, fun hb => ?_⟩
    · obtain ⟨hs', htrig', hr', hi'⟩ := sboxLoop_of_step hl hr hs hb hst
      obtain ⟨hs'', htrig''⟩ := tail_of_step (hl' t hi') hr' hs' htu
      exact ⟨hs', htrig', hs'', htrig''⟩
    · have noBuild {v : State} (hv : v.seq = s.seq) (hbv : v.buildsTables i = s.buildsTables i) (j : Instr)
          (hj : v.seq = .busy (.legal j) .start) : ¬ v.buildsTables j = true := by
        cases hs.symm.trans (hv.symm.trans hj)
        rwa [hbv]
      have ht := trig_eq_false_of_step htrig (noBuild rfl rfl) hst
      refine ⟨ht, trig_eq_false_of_step ht (fun j hj => ?_) htu⟩
      rcases idle_or_eq_of_goesOn hl hr hs hb hst with hi | rfl
      · exact absurd (hi.symm.trans hj) nofun
      · exact noBuild rfl rfl j hj
  · obtain ⟨l, u, r, f, hm, rfl⟩ := step_move hstep
    exact hm.phase_of_build hs ((buildsTables_iff s i).mpr hb) hh

end Sys2Proof.Machine

/-! SUPPORT. Proofs of the statements of 41_key_schedule.md: the cases of a SETKEY, the expansion as a recurrence on the schedule
words, the decryption schedule as the reversed groups, and the block transform that undoes the other one. -/

namespace Sys2Proof.Machine

open Sys2Proof.Statements

/-! ### The checks of SETKEY (R160, R161, R165, R169) -/

/-- A SETKEY that completes OK has passed its checks and done its own work k; any other completes with its code and no other
effect. -/
theorem setkey_cases (s : State) (c : CtxIdx) (k : State → KeyParams → State) :
    (∃ e, e ≠ .ok ∧ s.withContext c (fun s => s.withKeyParams c (k s)) = s.complete e) ∨
      (∃ kp, keyParams s.keybits = some kp ∧ s.withContext c (fun s => s.withKeyParams c (k s)) = k s kp) := by
  rcases withContext_cases s c fun s => s.withKeyParams c (k s) with ⟨-, h⟩ | ⟨-, h⟩
  · exact .inl ⟨.illegalCommand, nofun, h⟩
  · rw [h]
    rcases withKeyParams_cases s c (k s) with ⟨-, e⟩ | ⟨kp, -, -, e⟩ | ⟨kp, hk, -, e⟩
    · exact .inl ⟨.invalidKeyLength, nofun, e⟩
    · exact .inl ⟨.undefinedUse, nofun, e⟩
    · exact .inr ⟨kp, hk, e⟩

theorem exec_setkeyEnc_cases (s : State) (c : CtxIdx) :
    (∃ e, e ≠ .ok ∧ exec (.setkeyEnc c) s = .next (s.complete e)) ∨
      (∃ kp, keyParams s.keybits = some kp ∧ exec (.setkeyEnc c) s = .next (s.keyEncrypt c kp)) :=
  (setkey_cases s c fun s => s.keyEncrypt c).imp (fun ⟨e, he, h⟩ => ⟨e, he, congrArg Host.Outcome.next h⟩)
    fun ⟨kp, hk, h⟩ => ⟨kp, hk, congrArg Host.Outcome.next h⟩

theorem exec_setkeyDec_cases (s : State) (c : CtxIdx) :
    (∃ e, e ≠ .ok ∧ exec (.setkeyDec c) s = .next (s.complete e)) ∨
      (∃ kp, keyParams s.keybits = some kp ∧ exec (.setkeyDec c) s = .next (s.keyDecrypt c kp)) :=
  (setkey_cases s c fun s => s.keyDecrypt c).imp (fun ⟨e, he, h⟩ => ⟨e, he, congrArg Host.Outcome.next h⟩)
    fun ⟨kp, hk, h⟩ => ⟨kp, hk, congrArg Host.Outcome.next h⟩

/-- Settles O31: the work after the checks begins with `ensure_tables`, and before it nothing is built. -/
theorem setkeyLeavesTablesBuilt : Obligations.SetkeyLeavesTablesBuilt := by
  have failed {s : State} {e : StatusCode} (he : e ≠ .ok) :
      ((s.complete e).err = .ok → (s.complete e).tblDone = true) ∧
        ((s.complete e).err ≠ .ok → (s.complete e).tblDone = s.tblDone ∧ (s.complete e).tables = s.tables) :=
    ⟨fun h => absurd h he, fun _ => ⟨rfl, rfl⟩⟩
  rintro i c s t (rfl | rfl) h
  · rcases exec_setkeyEnc_cases s c with ⟨e, he, hx⟩ | ⟨kp, -, hx⟩ <;> cases hx.symm.trans h
    · exact failed he
    · exact ⟨fun _ => by simp [keyEncrypt_eq], fun hn => absurd rfl hn⟩
  · rcases exec_setkeyDec_cases s c with ⟨e, he, hx⟩ | ⟨kp, -, hx⟩ <;> cases hx.symm.trans h
    · exact failed he
    · exact ⟨fun _ => by simp [keyDecrypt_eq], fun hn => absurd rfl hn⟩

/-- On a keyed context the check after KEYBITS fails (R169, R278). -/
theorem withKeyParams_of_keyed {s : State} {c : CtxIdx} (hk : (keyParams s.keybits).isSome = true)
    (hn : (s.ctxAt c).nr ≠ .empty) (k : KeyParams → State) : s.withKeyParams c k = s.complete .undefinedUse := by
  obtain ⟨kp, hkp⟩ := Option.isSome_iff_exists.mp hk
  simp only [State.withKeyParams, hkp, if_pos hn, raise_eq_complete]

/-- The assertion of `rst` empties every context, whatever level `rst` had (R310). -/
theorem ctxAt_of_step_reset {s t : State} {rest : List Event} (hi : s.inbox = .reset true :: rest) (h : step s = .next t)
    (c : CtxIdx) : t.ctxAt c = Context.blank := by
  have hstep : step s = .next ({ s with inbox := rest } : State).assertReset := by
    cases hr : s.rst
    · rw [step_of_cons hi hr (.inl nofun)]
      rfl
    · rw [step_of_cons_in_reset hi hr]
      rfl
  cases hstep.symm.trans h
  exact assertReset_ctxAt _ c

/-- Settles O30: both SETKEY commands share the check of NR, which WIPE and reset set to 0. -/
theorem rekeyRefused : Obligations.RekeyRefused := by
  intro s c hc hk hn
  have hc : c.val < s.params.nCtx := hc
  have refused (k : KeyParams → State) : s.withKeyParams c k = completed s .undefinedUse :=
    withKeyParams_of_keyed ((keyParams_isSome_iff _).mpr hk) hn k
  refine ⟨?_, ?_, by simp [completed], fun t ht => ?_, fun t rest hi ht => ?_⟩
  · rw [exec, execSetkeyEnc, State.withContext, if_pos hc, refused]
  · rw [exec, execSetkeyDec, State.withContext, if_pos hc, refused]
  · rcases exec_wipe_cases s c with ⟨hge, -⟩ | ⟨-, hw⟩
    · exact absurd hc (Nat.not_lt.mpr hge)
    · cases hw.symm.trans ht
      exact congrArg Context.nr (ctxAt_setCtx_self s c _)
  · rw [ctxAt_of_step_reset hi ht]
    rfl

/-! ### The words of a schedule -/

theorem scheduleAt_eq_rkWord (rk : Schedule) (i : Nat) : scheduleAt rk i = rkWord rk i := by
  simp [scheduleAt, rkWord, List.getD_eq_getElem?_getD]

theorem rkWord_zeroSchedule (i : Nat) : rkWord zeroSchedule i = 0 := by
  rw [← scheduleAt_eq_rkWord, scheduleAt, zeroSchedule, Vector.getElem?_replicate]
  split <;> rfl

theorem rkWord_schedulePut {i : Nat} (hi : i < 64) (rk : Schedule) (v : Word) (m : Nat) :
    rkWord (schedulePut rk i v) m = if m = i then v else rkWord rk m := by
  rw [← scheduleAt_eq_rkWord, ← scheduleAt_eq_rkWord, scheduleAt, scheduleAt, schedulePut, Vector.getElem?_setIfInBounds]
  by_cases h : m = i
  · simp [h, hi]
  · simp [h, Ne.symm h]

/-! ### The encryption schedule (R162) -/

/-- Word i of the key, in the byte order of the KEY registers (R39). -/
theorem wordOf_keyByte (key : Vector Word 8) (i : Nat) :
    wordOf (keyByte key (4 * i)) (keyByte key (4 * i + 1)) (keyByte key (4 * i + 2)) (keyByte key (4 * i + 3)) =
      key[i]?.getD 0 := by
  have lane (k : Fin 4) : keyByte key (4 * i + k.val) = byteLane (key[i]?.getD 0) k := by
    have hk := k.isLt
    simp only [keyByte, show (4 * i + k.val) / 4 = i by omega, show (4 * i + k.val) % 4 = k.val by omega]
  rw [← wordOf_byteLane (key[i]?.getD 0), ← lane 0, ← lane 1, ← lane 2, ← lane 3]
  rfl

/-- The schedule head: the first Nk words are the key, the others 0. -/
theorem rkWord_scheduleHead (key : Vector Word 8) {nk : Nat} (hnk : nk ≤ 64) (m : Nat) :
    rkWord (scheduleHead key nk) m = if m < nk then key[m]?.getD 0 else 0 := by
  induction nk with
  | zero => exact rkWord_zeroSchedule m
  | succ nk ih =>
    have hput : scheduleHead key (nk + 1) = schedulePut (scheduleHead key nk) nk (key[nk]?.getD 0) := by
      rw [← wordOf_keyByte, scheduleHead, List.range_succ, List.foldl_append]
      rfl
    rw [hput, rkWord_schedulePut (by omega), ih (by omega)]
    by_cases h : m = nk
    · rw [if_pos h, if_pos (by omega), h]
    · rw [if_neg h]
      exact if_congr (by omega) rfl rfl

/-- What word m of the expansion adds to word m - Nk, from the word w before it (R162): at the head of a key-length group the
substituted rotation and the round constant, at the midpoint of a 256-bit group the substitution, else w itself. -/
def expansionTerm (t : TableSet) (nk m : Nat) (w : Word) : Word :=
  if m % nk = 0 then t.rcon.toList.getD (m / nk - 1) 0 ^^^ subRotWord t.fsb w
  else if nk = 8 ∧ m % 8 = 4 then subWord t.fsb w
  else w

/-- The expansion has come as far as word m: the words below it are the key and the recurrence, the others still 0. -/
structure ExpandedTo (t : TableSet) (key : Vector Word 8) (nk m : Nat) (rk : Schedule) : Prop where
  head : ∀ i : Fin 8, i.val < nk → rkWord rk i.val = key[i.val]
  word : ∀ i, nk ≤ i → i < m → rkWord rk i = rkWord rk (i - nk) ^^^ expansionTerm t nk i (rkWord rk (i - 1))
  rest : ∀ i, m ≤ i → rkWord rk i = 0

section Expansion

variable {t : TableSet} {key : Vector Word 8} {nk m : Nat} {rk : Schedule}

theorem expandedTo_scheduleHead (hnk : nk ≤ 8) : ExpandedTo t key nk nk (scheduleHead key nk) where
  head i hi := by
    rw [rkWord_scheduleHead key (by omega), if_pos hi]
    simp
  word i h1 h2 := absurd h1 (by omega)
  rest i hi := by rw [rkWord_scheduleHead key (by omega), if_neg (by omega)]

/-- Writing the next word of the recurrence takes the expansion one word further: it reads words below the one it writes. -/
theorem ExpandedTo.put (h : ExpandedTo t key nk m rk) (hpos : 0 < nk) (hm : nk ≤ m) (hlt : m < 64) {v : Word}
    (hv : v = rkWord rk (m - nk) ^^^ expansionTerm t nk m (rkWord rk (m - 1))) :
    ExpandedTo t key nk (m + 1) (schedulePut rk m v) where
  head i hi := by rw [rkWord_schedulePut hlt, if_neg (by omega), h.head i hi]
  word i h1 h2 := by
    rw [rkWord_schedulePut hlt, rkWord_schedulePut hlt, rkWord_schedulePut hlt, if_neg (show i - nk ≠ m by omega),
      if_neg (show i - 1 ≠ m by omega)]
    split
    · next hi => rw [hv, hi]
    · next hi => exact h.word i h1 (by omega)
  rest i hi := by rw [rkWord_schedulePut hlt, if_neg (by omega), h.rest i (by omega)]

/-- Iteration j ≥ 1 of repetition n writes word Nk·(n + 1) + j of the recurrence. -/
theorem ExpandedTo.after_expandWord {n j : Nat} (h : ExpandedTo t key nk (nk * n + nk + j) rk) (hpos : 0 < j) (hj : j < nk)
    (hlt : nk * n + nk + j < 64) : ExpandedTo t key nk (nk * n + nk + j + 1) (expandWord t nk (nk * n) rk j) := by
  have hmod : (nk * n + nk + j) % nk = j := by
    rw [← Nat.mul_succ, Nat.mul_add_mod, Nat.mod_eq_of_lt hj]
  have hhead : ¬ (nk * n + nk + j) % nk = 0 := by omega
  unfold expandWord
  simp only [scheduleAt_eq_rkWord]
  split
  · next hmid =>
    obtain ⟨rfl, rfl⟩ := hmid
    refine h.put (by omega) (by omega) hlt ?_
    rw [expansionTerm, if_neg hhead, if_pos ⟨rfl, hmod⟩]
    rfl
  · next hmid =>
    have hmid' : ¬ (nk = 8 ∧ (nk * n + nk + j) % 8 = 4) := fun ⟨h8, h4⟩ =>
      hmid ⟨h8, by subst h8; exact hmod.symm.trans h4⟩
    refine h.put (by omega) (by omega) hlt ?_
    rw [expansionTerm, if_neg hhead, if_neg hmid', show nk * n + nk + j - nk = nk * n + j by omega]

theorem ExpandedTo.after_foldl_expandWord {n j : Nat} (k : Nat) (h : ExpandedTo t key nk (nk * n + nk + j) rk) (hpos : 0 < j)
    (hj : j + k ≤ nk) (hlt : nk * n + nk + nk ≤ 64) :
    ExpandedTo t key nk (nk * n + nk + j + k) ((List.range' j k).foldl (expandWord t nk (nk * n)) rk) := by
  induction k generalizing j rk with
  | zero => exact h
  | succ k ih =>
    have hnext := ih (j := j + 1) (h.after_expandWord hpos (by omega) (by omega)) (by omega) (by omega)
    rwa [show nk * n + nk + (j + 1) + k = nk * n + nk + j + (k + 1) by omega] at hnext

/-- Repetition n writes the Nk words of one key-length group. -/
theorem ExpandedTo.after_expandRepetition {n : Nat} (h : ExpandedTo t key nk (nk * (n + 1)) rk) (hpos : 0 < nk)
    (hlt : nk * (n + 2) ≤ 64) : ExpandedTo t key nk (nk * (n + 2)) (expandRepetition t nk rk n) := by
  rw [Nat.mul_succ] at h
  rw [Nat.mul_succ, Nat.mul_succ] at hlt ⊢
  have hhead : ExpandedTo t key nk (nk * n + nk + 1)
      (schedulePut rk (nk * n + nk)
        (scheduleAt rk (nk * n) ^^^ rconAt t n ^^^ subRotWord t.fsb (scheduleAt rk (nk * n + nk - 1)))) := by
    refine h.put hpos (by omega) (by omega) ?_
    rw [expansionTerm, ← Nat.mul_succ, if_pos (Nat.mul_mod_right _ _), Nat.mul_div_cancel_left _ hpos, BitVec.xor_assoc]
    simp [scheduleAt_eq_rkWord, rconAt, List.getD_eq_getElem?_getD, Nat.mul_succ]
  have hall := hhead.after_foldl_expandWord (nk - 1) one_pos (by omega) hlt
  rwa [show nk * n + nk + 1 + (nk - 1) = nk * n + nk + nk by omega] at hall

theorem expandedTo_foldl_expandRepetition (hpos : 0 < nk) (hnk : nk ≤ 8) (n : Nat) (hlt : nk * (n + 1) ≤ 64) :
    ExpandedTo t key nk (nk * (n + 1)) ((List.range n).foldl (expandRepetition t nk) (scheduleHead key nk)) := by
  induction n with
  | zero => simpa using expandedTo_scheduleHead hnk
  | succ n ih =>
    rw [List.range_succ, List.foldl_append]
    exact (ih (by rw [Nat.mul_succ] at hlt; omega)).after_expandRepetition hpos hlt

end Expansion

theorem keyParams_bounds {keybits : Word} {kp : KeyParams} (h : keyParams keybits = some kp) :
    0 < kp.nk ∧ kp.nk ≤ 8 ∧ kp.nk * (kp.nit + 1) ≤ 64 := by
  unfold keyParams at h
  split_ifs at h <;> cases h <;> decide

/-- `expand_enc` is the recurrence on the schedule words. -/
theorem isEncSchedule_expandEnc (t : TableSet) (key : Vector Word 8) {keybits : Word} {kp : KeyParams}
    (h : keyParams keybits = some kp) : IsEncSchedule t key kp.nk kp.nit (expandEnc t key kp) := by
  obtain ⟨hpos, hnk, hlt⟩ := keyParams_bounds h
  obtain ⟨hhead, hword, hrest⟩ := expandedTo_foldl_expandRepetition (t := t) (key := key) hpos hnk kp.nit hlt
  exact ⟨hhead, hword, fun m hm _ => hrest m hm⟩

/-- A row of the table of R96 is what `keyparams` gives. -/
theorem keyParams_of_mem_keyTable {keybits : Word} {nk nit : Nat} {nr : RoundCount} (h : (keybits, nk, nr, nit) ∈ keyTable) :
    keyParams keybits = some ⟨nk, nr, nit⟩ := by
  simp only [keyTable, List.mem_cons, List.not_mem_nil, or_false, Prod.mk.injEq] at h
  obtain ⟨rfl, rfl, rfl, rfl⟩ | ⟨rfl, rfl, rfl, rfl⟩ | ⟨rfl, rfl, rfl, rfl⟩ := h <;> rfl

/-- Settles O27: past its checks SETKEY_ENC is the build and the expansion, which is the recurrence. -/
theorem setkeyEncCompletes : Obligations.SetkeyEncCompletes := by
  intro s c keybits nk nr nit hc hrow hk hn
  have hkp := keyParams_of_mem_keyTable hrow
  refine ⟨_, _, exec_buildTables s, isEncSchedule_expandEnc _ s.key hkp, ?_⟩
  rw [exec_setkeyEnc hc (hk ▸ hkp) hn, keyEncrypt_eq, ← ensureTables_ctx s]
  rfl

/-! ### The decryption schedule (R166) -/

theorem rkWord_expandDec (t : TableSet) (e : Schedule) (nr : Nat) {i : Nat} (hi : i < 64) :
    rkWord (expandDec t e nr) i = decWord t e nr i := by
  rw [← scheduleAt_eq_rkWord, scheduleAt, expandDec]
  simp [hi]

/-- `expand_dec` is the reversed schedule with its inner groups transformed. -/
theorem isDecSchedule_expandDec (t : TableSet) (e : Schedule) (nr : Nat) : IsDecSchedule t nr e (expandDec t e nr) := by
  intro g j hj hlt
  rw [rkWord_expandDec t e nr hlt, decWord, show (4 * g + j) / 4 = g by omega, show (4 * g + j) % 4 = j by omega,
    scheduleAt_eq_rkWord]
  dsimp only
  rcases Nat.lt_trichotomy nr g with h | rfl | h
  · rw [if_neg (by omega), if_neg (by omega), if_neg (by omega), if_pos h]
  · rw [if_neg (Nat.lt_irrefl nr), if_neg (Nat.lt_irrefl nr), if_pos rfl, if_pos (Or.inr rfl), ite_self]
  · rw [if_neg (show ¬ nr < g by omega)]
    by_cases h0 : g = 0
    · rw [if_pos h0, if_pos (.inl h0)]
    · rw [if_neg h0, if_pos h, if_neg (show ¬ (g = 0 ∨ g = nr) by omega)]
      rfl

theorem toNat_eq_roundsOf (n : RoundCount) : n.toNat = roundsOf n := by cases n <;> rfl

/-- Settles O28: past its checks SETKEY_DEC is the build and the two expansions, and it leaves TMPK wiped. -/
theorem setkeyDecCompletes : Obligations.SetkeyDecCompletes := by
  intro s c keybits nk nr nit hc hrow hk hn
  have hkp := keyParams_of_mem_keyTable hrow
  refine ⟨_, _, _, exec_buildTables s, isEncSchedule_expandEnc _ s.key hkp, isDecSchedule_expandDec _ _ _, ?_⟩
  rw [exec_setkeyDec hc (hk ▸ hkp) hn, keyDecrypt_eq, ← toNat_eq_roundsOf, ← ensureTables_ctx s]
  rfl

/-! ### The block transform, round by round (R191, R192, R197) -/

/-- The words of a schedule that round g reads are round-key group g (R192). -/
theorem words_eq_group (ctx : Context) (g : Nat) : ctx.words (4 * g) = group ctx g := by
  simp [Context.words, Context.rkOff, Quad.ofFn, group, scheduleAt_eq_rkWord]

theorem afterRounds_succ (d : Direction) (t : TableSet) (ctx : Context) (b : Quad) (r : Nat) :
    afterRounds d t ctx b (r + 1) = fullRound d t (afterRounds d t ctx b r) (group ctx (r + 1)) := by
  cases d <;> rfl

theorem blockOf_eq_finalRound (d : Direction) (t : TableSet) (ctx : Context) (b : Quad) :
    blockOf d t ctx b =
      finalRound d t (afterRounds d t ctx b (roundsOf ctx.nr - 1)) (group ctx (roundsOf ctx.nr)) := by
  cases d <;> rfl

/-- A double-round is two rounds, so n of them from group r + 1 on are the next 2n rounds. -/
theorem doubleRounds_afterRounds (d : Direction) (t : TableSet) (ctx : Context) (b : Quad) (n r : Nat) :
    doubleRounds d t ctx n (4 * (r + 1)) (afterRounds d t ctx b r) = afterRounds d t ctx b (r + 2 * n) := by
  induction n generalizing r with
  | zero => rfl
  | succ n ih =>
    have hrounds : fullRound d t (fullRound d t (afterRounds d t ctx b r) (ctx.words (4 * (r + 1))))
        (ctx.words (4 * (r + 1) + 4)) = afterRounds d t ctx b (r + 2) := by
      rw [← Nat.mul_succ, words_eq_group, words_eq_group, ← afterRounds_succ, ← afterRounds_succ]
    rw [doubleRounds, hrounds, show 4 * (r + 1) + 8 = 4 * (r + 2 + 1) by omega, ih]
    congr 1
    omega

/-- The block transform on a keyed context, by double-rounds in two register sets, is the NR-round one in one set (R191, R197). -/
theorem cipherBlock_eq_blockOf (d : Direction) (t : TableSet) {ctx : Context} (h : ctx.nr ≠ .empty) (b : Quad) :
    cipherBlock d t ctx b = blockOf d t ctx b := by
  obtain ⟨n, hn⟩ : ∃ n, roundsOf ctx.nr = 2 * n + 2 := by
    cases hnr : ctx.nr with
    | empty => exact absurd hnr h
    | ten => exact ⟨4, rfl⟩
    | twelve => exact ⟨5, rfl⟩
    | fourteen => exact ⟨6, rfl⟩
  have hrounds : doubleRounds d t ctx n 4 (b.xor (ctx.words 0)) = afterRounds d t ctx b (2 * n) := by
    have := doubleRounds_afterRounds d t ctx b n 0
    rwa [Nat.zero_add, Nat.zero_add, afterRounds, ← words_eq_group] at this
  rw [cipherBlock, toNat_eq_roundsOf, hn, show (2 * n + 2) / 2 - 1 = n by omega, hrounds,
    show 4 + 8 * n = 4 * (2 * n + 1) by omega, ← Nat.mul_succ, words_eq_group, words_eq_group, ← afterRounds_succ,
    blockOf_eq_finalRound, hn]
  rfl

/-! ### Decryption undoes encryption (R171) -/

section RoundTrip

variable {t : TableSet} {e d : Schedule} {n : RoundCount} (b : Quad)

theorem get_group (ctx : Context) (g : Nat) (j : Fin 4) : (group ctx g).get j = rkWord ctx.rk (4 * g + j.val) := by
  fin_cases j <;> rfl

theorem roundsOf_le (n : RoundCount) : roundsOf n ≤ 14 := by cases n <;> decide

theorem roundsOf_pos {n : RoundCount} (h : n ≠ .empty) : 0 < roundsOf n := by
  cases n with
  | empty => exact absurd rfl h
  | ten | twelve | fourteen => decide

theorem xor_quad_comm (x y : Quad) : x.xor y = y.xor x := Quad.ext_get fun j => by simp [BitVec.xor_comm]

theorem blockOf_encrypt (t : TableSet) (ctx : Context) (b : Quad) :
    blockOf .encrypt t ctx b =
      (group ctx (roundsOf ctx.nr)).xor (subShift t (afterRounds .encrypt t ctx b (roundsOf ctx.nr - 1))) :=
  ffinal_eq _ _ _

theorem blockOf_decrypt (t : TableSet) (ctx : Context) (b : Quad) :
    blockOf .decrypt t ctx b =
      rfinal t (afterRounds .decrypt t ctx b (roundsOf ctx.nr - 1)) (group ctx (roundsOf ctx.nr)) := rfl

/-- The first and the last group of a decryption schedule are the last and the first encryption group (R166). -/
theorem group_dec_plain (hd : IsDecSchedule t (roundsOf n) e d) {g : Nat} (hg : g = 0 ∨ g = roundsOf n) :
    group ⟨n, d⟩ g = group ⟨n, e⟩ (roundsOf n - g) := by
  have hle := roundsOf_le n
  refine Quad.ext_get fun j => ?_
  rw [get_group, get_group]
  refine (hd g j.val j.isLt (by omega)).trans ?_
  dsimp only
  rw [if_neg (by omega), if_pos hg]

/-- An inner group is the reverse column map of the encryption group it stands for (R166). -/
theorem group_dec_inner (ht : t.FaultFree) (hd : IsDecSchedule t (roundsOf n) e d) {g : Nat} (h0 : 0 < g)
    (hg : g < roundsOf n) :
    group ⟨n, d⟩ g = Quad.ofFn fun j => unmixWord ((group ⟨n, e⟩ (roundsOf n - g)).get j) := by
  have hle := roundsOf_le n
  refine Quad.ext_get fun j => ?_
  rw [get_group, Quad.get_ofFn, get_group, ← inverseRoundWord_eq ht]
  refine (hd g j.val j.isLt (by omega)).trans ?_
  dsimp only
  rw [if_neg (by omega), if_neg (by omega)]
  rfl

/-- After r reverse rounds on the ciphertext, the words are the substituted and shifted ones of the forward round as far from
the end. -/
theorem afterRounds_decrypt (ht : t.FaultFree) (hd : IsDecSchedule t (roundsOf n) e d) {r : Nat} (hr : r < roundsOf n) :
    afterRounds .decrypt t ⟨n, d⟩ (blockOf .encrypt t ⟨n, e⟩ b) r =
      subShift t (afterRounds .encrypt t ⟨n, e⟩ b (roundsOf n - 1 - r)) := by
  induction r with
  | zero =>
    rw [afterRounds, blockOf_encrypt, group_dec_plain hd (.inl rfl), xor_quad_comm (group _ _)]
    exact Quad.xor_xor_cancel _ _
  | succ r ih =>
    obtain ⟨m, hm⟩ : ∃ m, roundsOf n - 1 - r = m + 1 := ⟨roundsOf n - 2 - r, by omega⟩
    rw [afterRounds, ih (by omega), hm, afterRounds, group_dec_inner ht hd (by omega) hr,
      show roundsOf n - (r + 1) = m + 1 by omega, rround_fround ht, show roundsOf n - 1 - (r + 1) = m by omega]

/-- THE BLOCK TRANSFORM ON A DECRYPTION SCHEDULE INVERTS THE ONE ON ITS ENCRYPTION SCHEDULE (R171). -/
theorem blockOf_decrypt_encrypt (ht : t.FaultFree) (hd : IsDecSchedule t (roundsOf n) e d) (hn : 0 < roundsOf n) :
    blockOf .decrypt t ⟨n, d⟩ (blockOf .encrypt t ⟨n, e⟩ b) = b := by
  have hlast : roundsOf n - 1 < roundsOf n := by omega
  rw [blockOf_decrypt, afterRounds_decrypt b ht hd hlast, Nat.sub_self, rfinal_subShift ht, group_dec_plain hd (.inr rfl),
    Nat.sub_self, afterRounds, xor_quad_comm, Quad.xor_xor_cancel]

end RoundTrip

/-! ### The tables and keys of the two contexts (R137, R162) -/

theorem faultFree_of_faultFreeBuild {t : TableSet} (h : FaultFreeBuild t) : t.FaultFree := by
  obtain ⟨s₀, t₀, hd, hn, hm, hx, rfl⟩ := h
  exact faultFree_tables hd hn hm hx

/-- There is one fault-free table set: FSB is the AES S-box, which determines RSB and the T-tables. -/
theorem eq_of_faultFreeBuild {t u : TableSet} (ht : FaultFreeBuild t) (hu : FaultFreeBuild u) : t = u := by
  have fft := faultFree_of_faultFreeBuild ht
  have ffu := faultFree_of_faultFreeBuild hu
  obtain ⟨s₀, t₀, hd, hn, hm, hx, rfl⟩ := ht
  obtain ⟨s₁, u₀, hd', hn', hm', hx', rfl⟩ := hu
  have hfsb (i : Byte) : tableAt t₀.tables.fsb i = tableAt u₀.tables.fsb i := by
    rw [faultFree_fsb hd hn hm hx, faultFree_fsb hd' hn' hm' hx']
  have hrsb (x : Byte) : tableAt t₀.tables.rsb x = tableAt u₀.tables.rsb x := by
    obtain ⟨i, rfl⟩ := Finite.surjective_of_injective (faultFree_fsb_injective hd hn hm hx) x
    rw [fft.rsb_fsb, hfsb, ffu.rsb_fsb]
  have hft (k : Fin 4) (i : Byte) : tableAt t₀.tables.ft[k.val] i = tableAt u₀.tables.ft[k.val] i := by
    rw [fft.ft_entry, ffu.ft_entry, hfsb]
  have hrt (k : Fin 4) (i : Byte) : tableAt t₀.tables.rt[k.val] i = tableAt u₀.tables.rt[k.val] i := by
    rw [fft.rt_entry, ffu.rt_entry, hrsb]
  have hrcon : t₀.tables.rcon = u₀.tables.rcon := by rw [built_rcon hd hx, built_rcon hd' hx']
  exact (TableSet.mk.injEq ..).mpr ⟨table_ext hfsb, table_ext hrsb, Vector.ext fun k hk => table_ext (hft ⟨k, hk⟩),
    Vector.ext fun k hk => table_ext (hrt ⟨k, hk⟩), hrcon⟩

/-- The expansion reads the first Nk KEY registers only (R160). -/
theorem expandEnc_congr_key (t : TableSet) {key key' : Vector Word 8} {kp : KeyParams} (hnk : kp.nk ≤ 8)
    (h : ∀ i : Fin 8, i.val < kp.nk → key[i.val] = key'[i.val]) : expandEnc t key kp = expandEnc t key' kp := by
  have hhead : scheduleHead key kp.nk = scheduleHead key' kp.nk := by
    unfold scheduleHead
    refine List.foldl_ext _ _ _ fun rk i hi => ?_
    have hlt := List.mem_range.mp hi
    rw [wordOf_keyByte, wordOf_keyByte, Vector.getElem?_eq_getElem (by omega), Vector.getElem?_eq_getElem (by omega),
      h ⟨i, by omega⟩ hlt]
  rw [expandEnc, expandEnc, hhead]

theorem toNat_of_keyParams {keybits : Word} {kp : KeyParams} (h : keyParams keybits = some kp) :
    keybits.toNat = 32 * kp.nk := by
  unfold keyParams at h
  split_ifs at h with hk hk hk <;> cases h <;> rw [hk] <;> rfl

/-- CRYPT_ECB on a keyed context gives the NR-round transform of DIN, and completes OK. -/
theorem ecb_of_exec {s t : State} {c : CtxIdx} {d : Direction} (hc : CtxExists s c) (hm : directionOf s.mode = some d)
    (hn : (s.ctxAt c).nr ≠ .empty) (h : exec (.cryptEcb c) s = .next t) :
    t.err = .ok ∧ t.dout = blockOf d s.tables (s.ctxAt c) s.din := by
  cases (exec_cryptEcb hc hm hn).symm.trans h
  rw [cryptBlock_eq, cipherBlock_eq_blockOf d s.tables hn]
  exact ⟨rfl, rfl⟩

/-- A SETKEY_ENC that completed OK left its context with the expansion of the key by the tables it left (R160). -/
theorem keyed_of_exec_setkeyEnc {s t : State} {c : CtxIdx} (h : exec (.setkeyEnc c) s = .next t) (hok : t.err = .ok) :
    ∃ kp, keyParams s.keybits = some kp ∧ t.ctxAt c = ⟨kp.nr, expandEnc t.tables s.key kp⟩ := by
  rcases exec_setkeyEnc_cases s c with ⟨e, he, hx⟩ | ⟨kp, hk, hx⟩ <;> cases hx.symm.trans h
  · exact absurd hok he
  · rw [keyEncrypt_eq]
    exact ⟨kp, hk, ctxAt_setCtx_self _ c _⟩

/-- A SETKEY_DEC that completed OK left its context with the decryption schedule of that expansion (R165). -/
theorem keyed_of_exec_setkeyDec {s t : State} {c : CtxIdx} (h : exec (.setkeyDec c) s = .next t) (hok : t.err = .ok) :
    ∃ kp, keyParams s.keybits = some kp ∧
      t.ctxAt c = ⟨kp.nr, expandDec t.tables (expandEnc t.tables s.key kp) kp.nr.toNat⟩ := by
  rcases exec_setkeyDec_cases s c with ⟨e, he, hx⟩ | ⟨kp, hk, hx⟩ <;> cases hx.symm.trans h
  · exact absurd hok he
  · rw [keyDecrypt_eq]
    exact ⟨kp, hk, ctxAt_setCtx_self _ c _⟩

/-- Settles O36: the tables and the expansions of the two keyings are the same, and a reverse round undoes a forward one. -/
theorem ecbRoundTrip : Obligations.EcbRoundTrip := by
  intro a a' b b' p p' q q' c₁ c₂ ha haok hb hbok hbits hkey hfa hfb hpt hpc hpe hpm hp hqt hqc hqe hqm hqd hq
  obtain ⟨kp, hkp, hca⟩ := keyed_of_exec_setkeyEnc ha haok
  obtain ⟨kp', hkp', hcb⟩ := keyed_of_exec_setkeyDec hb hbok
  cases Option.some.inj (hkp.symm.trans (hbits ▸ hkp'))
  have hnr := keyParams_nr_ne_empty hkp
  obtain ⟨-, hnk, -⟩ := keyParams_bounds hkp
  have htab : b'.tables = a'.tables := eq_of_faultFreeBuild hfb hfa
  have hexp : expandEnc b'.tables b.key kp = expandEnc a'.tables a.key kp := by
    rw [htab]
    exact expandEnc_congr_key _ hnk fun i hi => (hkey i (by rw [toNat_of_keyParams hkp]; omega)).symm
  rw [hexp, htab, toNat_eq_roundsOf] at hcb
  obtain ⟨hpok, hpout⟩ := ecb_of_exec (d := .encrypt) hpe (by rw [hpm]; rfl) (by rw [hpc, hca]; exact hnr) hp
  obtain ⟨hqok, hqout⟩ := ecb_of_exec (d := .decrypt) hqe (by rw [hqm]; rfl) (by rw [hqc, hcb]; exact hnr) hq
  refine ⟨hpok, hqok, ?_⟩
  rw [hqout, hqd, hpout, hqt, hqc, hcb, hpt, hpc, hca, htab]
  exact blockOf_decrypt_encrypt p.din (faultFree_of_faultFreeBuild hfa) (isDecSchedule_expandDec _ _ _) (roundsOf_pos hnr)

end Sys2Proof.Machine

/-! SUPPORT. Proofs of the statements of 42_block.md: the round functions lane by lane, CRYPT_ECB on a keyed context, and the refusal
of a transform on an empty one. -/

namespace Sys2Proof.Machine

open Sys2Proof.Statements

/-! ### The round functions (R193-R196, R199) -/

/-- Settles O32: the lane offsets PF and PR are closed values, so lane k of word j + P[k] computes to the lane written out. -/
theorem roundFormulas : Obligations.RoundFormulas := fun _ _ _ => ⟨rfl, rfl, rfl, rfl⟩

/-! ### CRYPT_ECB on a keyed context (R190-R192, R197, R198) -/

theorem directionOf_of_modeIs {d : Direction} {mode : Word} (h : modeIs d mode) : directionOf mode = some d := by
  cases d <;> cases h <;> rfl

/-- Settles O33: the block transform by double-rounds is the NR-round one. -/
theorem ecbCompletes : Obligations.EcbCompletes := by
  intro s c d hc hm hn
  rw [exec_cryptEcb hc (directionOf_of_modeIs hm) hn, cryptBlock_eq, cipherBlock_eq_blockOf d s.tables hn]
  rfl

/-! ### A transform on an empty context (R202, R221, R278) -/

theorem exists_directionOf_of_valid {mode : Word} (h : mode = 1 ∨ mode = 0) : ∃ d, directionOf mode = some d :=
  h.elim (fun h => ⟨.encrypt, directionOf_of_modeIs h⟩) fun h => ⟨.decrypt, directionOf_of_modeIs h⟩

/-- CRYPT_ECB's check after MODE fails on an empty context (R202, R278). -/
theorem withDirection_of_unkeyed {s : State} {c : CtxIdx} (hm : s.mode = 1 ∨ s.mode = 0) (hn : (s.ctxAt c).nr = .empty)
    (k : Direction → State) : s.withDirection c k = s.complete .undefinedUse := by
  obtain ⟨d, hd⟩ := exists_directionOf_of_valid hm
  simp only [State.withDirection, hd, if_pos hn, raise_eq_complete]

/-- CRYPT_CBC's check after MODE and LENGTH fails on an empty context, whatever SRC and DST are (R202, R221). -/
theorem withCbcOperands_of_unkeyed {s : State} {c : CtxIdx} (hm : s.mode = 1 ∨ s.mode = 0) (hn : (s.ctxAt c).nr = .empty)
    (h16 : s.length.toNat % 16 = 0) (hp : 0 < s.length.toNat) (k : Direction → State) :
    s.withCbcOperands c k = s.complete .undefinedUse := by
  obtain ⟨d, hd⟩ := exists_directionOf_of_valid hm
  simp only [State.withCbcOperands, hd, if_neg (not_not.mpr h16), if_neg hp.ne', if_pos hn, raise_eq_complete]

/-- Settles O35: after MODE, and for CRYPT_CBC after LENGTH, both commands check that the context is keyed. -/
theorem unkeyedContextRefused : Obligations.UnkeyedContextRefused := by
  intro s c hc hm hn
  have hc : c.val < s.params.nCtx := hc
  refine ⟨?_, by simp [completed], fun h16 hp => ?_⟩
  · rw [exec, execCryptEcb, State.withContext, if_pos hc, withDirection_of_unkeyed hm hn]
    rfl
  · rw [exec, execCryptCbc, State.withContext, if_pos hc, withCbcOperands_of_unkeyed hm hn h16 hp]
    rfl

end Sys2Proof.Machine

/-! SUPPORT. Proofs of the statements of 43_cbc.md: a CRYPT_CBC past its checks as the state after its blocks, on any buffers and on
buffers whose input is read before it is overwritten, over the parts of a message, and with no block to process. -/

namespace Sys2Proof.Machine

open Sys2Proof.Statements

/-! ### The state after the first blocks (R220, R222) -/

/-- The state after the first k blocks of a CRYPT_CBC: CHAIN from the IV, then the block loop from SRC and DST (R220). -/
def State.afterBlocks (s : State) (d : Direction) (c : CtxIdx) (k : Nat) : State :=
  ({ s with chain := storeBlock s.iv } : State).cbcLoop d c k s.src.toNat s.dst.toNat

/-- The state a CRYPT_CBC past its checks leaves: DATA_MEM and the IV from its blocks, and wiped scratch (R220, R226). -/
def State.cbcResult (s : State) (d : Direction) (c : CtxIdx) : State :=
  { completed s .ok with
    mem := (s.afterBlocks d c (s.length.toNat / 16)).mem
    iv := loadBlock (s.afterBlocks d c (s.length.toNat / 16)).chain
    x := Quad.zero
    y := Quad.zero
    chain := zeroBytes
    save := zeroBytes }

theorem exec_cryptCbc_eq_cbcResult {s : State} {c : CtxIdx} {d : Direction} (h : CbcReady s c) (hm : modeIs d s.mode) :
    exec (.cryptCbc c) s = .next (s.cbcResult d c) := by
  obtain ⟨hc, h16, hp, hn, hs, ht⟩ := h
  rw [exec_cryptCbc hc (directionOf_of_modeIs hm) h16 hp hn hs ht, cryptChain_eq s c d hp h16 _ rfl]
  rfl

section Blocks

variable (s : State) (d : Direction) (c : CtxIdx) (k : Nat)

theorem afterBlocks_succ : s.afterBlocks d c (k + 1) =
    (s.afterBlocks d c k).cbcBlock d c (s.src.toNat + 16 * k) (s.dst.toNat + 16 * k) :=
  cbcLoop_succ _ d c k _ _

@[simp] theorem afterBlocks_tables : (s.afterBlocks d c k).tables = s.tables := cbcLoop_tables ..

@[simp] theorem afterBlocks_ctxAt (c' : CtxIdx) : (s.afterBlocks d c k).ctxAt c' = s.ctxAt c' := cbcLoop_ctxAt ..

@[simp] theorem afterBlocks_epoch : (s.afterBlocks d c k).epoch = s.epoch := cbcLoop_epoch ..

theorem cbcResult_memByte (a : Nat) :
    (s.cbcResult d c).memByte a = (s.afterBlocks d c (s.length.toNat / 16)).memByte a :=
  memByte_congr (s := s.afterBlocks d c _) (t := s.cbcResult d c) rfl (afterBlocks_epoch s d c _).symm a

/-- Byte i of output block k is what block k wrote. -/
theorem cbcResult_memByte_output {k : Nat} (hk : k < s.length.toNat / 16) (i : Fin 16) :
    (s.cbcResult d c).memByte (s.dst.toNat + 16 * k + i.val) =
      (cbcOutput (s.afterBlocks d c k) d c (s.src.toNat + 16 * k))[i.val] :=
  (cbcResult_memByte s d c _).trans (cbcLoop_memByte_output _ d c _ _ _ k hk i)

/-- A CRYPT_CBC writes no byte outside DST..DST+LENGTH-1 (R228). -/
theorem cbcResult_memByte_outside {a : Nat} (h : ¬ isOutput s a) : (s.cbcResult d c).memByte a = s.memByte a := by
  have hout : a < s.dst.toNat ∨ s.dst.toNat + 16 * (s.length.toNat / 16) ≤ a := by
    unfold isOutput at h
    omega
  exact (cbcResult_memByte s d c a).trans (cbcLoop_memByte_outside _ d c _ _ _ a hout)

/-- In encryption a block hands its output on to the next as the chain value (R223). -/
theorem cbcBlock_encrypt_chain_eq_output (src dst : Nat) :
    (s.cbcBlock .encrypt c src dst).chain = cbcOutput s .encrypt c src := cbcBlock_encrypt_chain s c src dst

/-- The output of an encrypted block, by the NR-round transform on the schedule the command started with (R223). -/
theorem cbcOutput_encrypt_afterBlocks (hn : (s.ctxAt c).nr ≠ .empty) (src : Nat) :
    cbcOutput (s.afterBlocks .encrypt c k) .encrypt c src =
      blockBytes .encrypt s.tables (s.ctxAt c)
        (xorBytes ((s.afterBlocks .encrypt c k).memRead src) (s.afterBlocks .encrypt c k).chain) := by
  simp only [cbcOutput, afterBlocks_tables, afterBlocks_ctxAt, cipherBlock_eq_blockOf _ _ hn, blockBytes]

/-- The output of a decrypted block, by the NR-round transform on the schedule the command started with (R225). -/
theorem cbcOutput_decrypt_afterBlocks (hn : (s.ctxAt c).nr ≠ .empty) (src : Nat) :
    cbcOutput (s.afterBlocks .decrypt c k) .decrypt c src =
      xorBytes (blockBytes .decrypt s.tables (s.ctxAt c) ((s.afterBlocks .decrypt c k).memRead src))
        (s.afterBlocks .decrypt c k).chain := by
  simp only [cbcOutput, afterBlocks_tables, afterBlocks_ctxAt, cipherBlock_eq_blockOf _ _ hn, blockBytes]

end Blocks

/-! ### Any buffers (R228, R230) -/

/-- A byte after a 16-byte write: a written one in its range, the old one outside (R66). -/
theorem memWrite_memByte (s : State) (off a : Nat) (v : Bytes16) :
    (s.memWrite off v).memByte a = if h : off ≤ a ∧ a < off + 16 then v[a - off]'(by omega) else s.memByte a := by
  split
  · next h =>
    have := memWrite_memByte_at s off v ⟨a - off, by omega⟩
    rwa [show off + (a - off) = a by omega] at this
  · next h => exact memWrite_memByte_of_ne s off a v (by omega)

/-- The recurrence on bytes and chain value is what the block loop does (R220, R222). -/
theorem cbcAfter_eq_afterBlocks {s : State} {c : CtxIdx} (hn : (s.ctxAt c).nr ≠ .empty) (d : Direction) (k : Nat) :
    cbcAfter s c d k = ((s.afterBlocks d c k).memByte, (s.afterBlocks d c k).chain) := by
  induction k with
  | zero => rfl
  | succ k ih =>
    have hmem : (s.afterBlocks d c (k + 1)).memByte = fun a =>
        ((s.afterBlocks d c k).memWrite (s.dst.toNat + 16 * k)
          (cbcOutput (s.afterBlocks d c k) d c (s.src.toNat + 16 * k))).memByte a := by
      rw [afterBlocks_succ]
      exact funext (cbcBlock_memByte _ d c _ _)
    rw [hmem, afterBlocks_succ]
    cases d with
    | encrypt =>
      rw [cbcBlock_encrypt_chain_eq_output]
      simp only [cbcAfter, ih, memWrite_memByte, cbcOutput_encrypt_afterBlocks s c k hn]
      rfl
    | decrypt =>
      rw [cbcBlock_decrypt_chain]
      simp only [cbcAfter, ih, memWrite_memByte, cbcOutput_decrypt_afterBlocks s c k hn]
      rfl

/-- Settles O39: the recurrence of the statement is the block loop, and the rest is the frame of CRYPT_CBC. -/
theorem cbcCompletesOnAnyBuffers : Obligations.CbcCompletesOnAnyBuffers := by
  intro s c d h hm
  have ⟨_, _, _, hn, _, _⟩ := h
  refine ⟨_, exec_cryptCbc_eq_cbcResult h hm, ?_, ?_, fun _ => cbcResult_memByte_outside s d c, rfl⟩
  · rw [cbcAfter_eq_afterBlocks hn]
    exact cbcResult_memByte s d c
  · rw [cbcAfter_eq_afterBlocks hn]
    rfl

/-! ### Buffers whose input is read before it is overwritten (R223-R225, R228) -/

section NoLateRead

variable {s : State} {c : CtxIdx} {k : Nat} (hn : (s.ctxAt c).nr ≠ .empty) (h16 : s.length.toNat % 16 = 0) (hl : NoLateRead s)

include h16 hl in
/-- Every block reads its input as it was before the command. -/
theorem afterBlocks_memRead_input (d : Direction) (hk : k < s.length.toNat / 16) :
    (s.afterBlocks d c k).memRead (s.src.toNat + 16 * k) = inputBlock s k := by
  have hlate : s.dst.toNat ≤ s.src.toNat ∨ s.src.toNat + 16 * (s.length.toNat / 16) ≤ s.dst.toNat :=
    hl.imp_right fun h => by omega
  exact cbcLoop_memRead_input _ d c _ _ _ k hk hlate

include hn h16 hl in
/-- In encryption the chain value after k blocks is ciphertext block k - 1 (R223, R224). -/
theorem afterBlocks_encrypt_chain (hk : k ≤ s.length.toNat / 16) :
    (s.afterBlocks .encrypt c k).chain = cipherChain s c k := by
  induction k with
  | zero => rfl
  | succ k ih =>
    rw [afterBlocks_succ, cbcBlock_encrypt_chain_eq_output, cbcOutput_encrypt_afterBlocks s c k hn,
      afterBlocks_memRead_input h16 hl _ hk, ih (by omega), cipherChain]

include hn h16 hl in
theorem cbcOutput_encrypt_eq_cipherChain (hk : k < s.length.toNat / 16) :
    cbcOutput (s.afterBlocks .encrypt c k) .encrypt c (s.src.toNat + 16 * k) = cipherChain s c (k + 1) := by
  rw [← afterBlocks_encrypt_chain hn h16 hl hk, afterBlocks_succ, cbcBlock_encrypt_chain_eq_output]

include h16 hl in
/-- In decryption the chain value after block k is input block k, also in place (R225). -/
theorem afterBlocks_decrypt_chain (hk : k < s.length.toNat / 16) :
    (s.afterBlocks .decrypt c (k + 1)).chain = inputBlock s k := by
  rw [afterBlocks_succ, cbcBlock_decrypt_chain, afterBlocks_memRead_input h16 hl _ hk]

include hn h16 hl in
theorem cbcOutput_decrypt_eq_plainBlock (hk : k < s.length.toNat / 16) :
    cbcOutput (s.afterBlocks .decrypt c k) .decrypt c (s.src.toNat + 16 * k) = plainBlock s c k := by
  rw [cbcOutput_decrypt_afterBlocks s c k hn, afterBlocks_memRead_input h16 hl _ hk]
  cases k with
  | zero => simp only [plainBlock, State.afterBlocks, State.cbcLoop]
  | succ k => simp only [plainBlock, afterBlocks_decrypt_chain h16 hl (Nat.lt_of_succ_lt hk)]

end NoLateRead

/-- Settles O37: the chain value runs through the ciphertext blocks, and each is the output of its block. -/
theorem cbcEncryptCompletes : Obligations.CbcEncryptCompletes := by
  intro s c h hm hl
  have ⟨_, h16, _, hn, _, _⟩ := h
  refine ⟨_, exec_cryptCbc_eq_cbcResult (d := .encrypt) h hm, fun k i hk => ?_, ?_,
    fun _ => cbcResult_memByte_outside s .encrypt c, rfl⟩
  · rw [cbcResult_memByte_output s .encrypt c hk, cbcOutput_encrypt_eq_cipherChain hn h16 hl hk]
  · rw [← afterBlocks_encrypt_chain hn h16 hl le_rfl]
    rfl

/-- Settles O38: each block hands on its input as read, which is the input as it was. -/
theorem cbcDecryptCompletes : Obligations.CbcDecryptCompletes := by
  intro s c h hm hl
  have ⟨_, h16, hp, hn, _, _⟩ := h
  refine ⟨_, exec_cryptCbc_eq_cbcResult (d := .decrypt) h hm, fun k i hk => ?_, ?_,
    fun _ => cbcResult_memByte_outside s .decrypt c, rfl⟩
  · rw [cbcResult_memByte_output s .decrypt c hk, cbcOutput_decrypt_eq_plainBlock hn h16 hl hk]
  · rw [← afterBlocks_decrypt_chain h16 hl (by omega), show s.length.toNat / 16 - 1 + 1 = s.length.toNat / 16 by omega]
    rfl

/-! ### A message in two parts (R229) -/

/-- Under legal parameters every offset of a buffer fits a 32-bit register (R8). -/
theorem bufBytes_le_of_paramsLegal {s : State} (h : s.ParamsLegal) : s.params.bufBytes ≤ 4096 := by
  simp only [State.ParamsLegal, Params.legal, Bool.and_eq_true, decide_eq_true_eq] at h
  exact h.2

/-- n blocks from a state that holds what the first m blocks of s leave end as m + n blocks of s do (R229). -/
theorem afterBlocks_add {s u : State} (d : Direction) (c : CtxIdx) (m n : Nat) (hsrc : u.src.toNat = s.src.toNat + 16 * m)
    (hdst : u.dst.toNat = s.dst.toNat + 16 * m) (hmem : u.mem = (s.afterBlocks d c m).mem)
    (hiv : u.iv = loadBlock (s.afterBlocks d c m).chain) (he : u.epoch = s.epoch) (ht : u.tables = s.tables)
    (hx : u.ctx = s.ctx) :
    (u.afterBlocks d c n).mem = (s.afterBlocks d c (m + n)).mem ∧
      (u.afterBlocks d c n).chain = (s.afterBlocks d c (m + n)).chain := by
  have hadd : s.afterBlocks d c (m + n) = (s.afterBlocks d c m).cbcLoop d c n u.src.toNat u.dst.toNat := by
    rw [hsrc, hdst]
    exact cbcLoop_add _ d c m n _ _
  have hctx : (s.afterBlocks d c m).ctx = s.ctx := by rw [State.afterBlocks, cbcLoop_frame]
  rw [hadd]
  refine cbcLoop_congr d c n _ _ hmem (he.trans (afterBlocks_epoch s d c m).symm) ?_
    (ht.trans (afterBlocks_tables s d c m).symm) (hx.trans hctx.symm)
  exact (congrArg storeBlock hiv).trans (storeBlock_loadBlock _)

/-- The blocks depend on LENGTH by their number alone. -/
theorem afterBlocks_withLength (s : State) (l : Word) (d : Direction) (c : CtxIdx) (k : Nat) :
    (({ s with length := l } : State).afterBlocks d c k).mem = (s.afterBlocks d c k).mem ∧
      (({ s with length := l } : State).afterBlocks d c k).chain = (s.afterBlocks d c k).chain :=
  cbcLoop_congr d c k _ _ rfl rfl rfl rfl rfl

/-- A command over the first part of a message, then one over the rest, leaves what one over the whole does (R229). -/
theorem cbcResult_continued {s : State} {l₁ l₂ src dst : Word} (d : Direction) (c : CtxIdx) (h₁ : l₁.toNat % 16 = 0)
    (hlen : s.length.toNat = l₁.toNat + l₂.toNat) (hsrc : src.toNat = s.src.toNat + l₁.toNat)
    (hdst : dst.toNat = s.dst.toNat + l₁.toNat) :
    { ({ ({ s with length := l₁ } : State).cbcResult d c with
          length := l₂
          src := src
          dst := dst } : State).cbcResult d c with
      length := s.length
      src := s.src
      dst := s.dst } = s.cbcResult d c := by
  obtain ⟨hmem₁, hchain₁⟩ := afterBlocks_withLength s l₁ d c (l₁.toNat / 16)
  obtain ⟨hmem, hchain⟩ := afterBlocks_add (s := s)
    (u := { ({ s with length := l₁ } : State).cbcResult d c with length := l₂, src := src, dst := dst }) d c
    (l₁.toNat / 16) (l₂.toNat / 16) (hsrc.trans (by omega)) (hdst.trans (by omega)) hmem₁ (congrArg loadBlock hchain₁)
    rfl rfl rfl
  rw [show l₁.toNat / 16 + l₂.toNat / 16 = s.length.toNat / 16 by omega] at hmem hchain
  rw [State.cbcResult.eq_def s, ← hmem, ← hchain]
  apply State.ext_fields <;> simp [State.cbcResult, completed]

/-- A command over a part of a message that passed the checks, under the same contexts and parameters, passes them too, and leaves
its own blocks' result. -/
theorem eq_cbcResult_of_part {s u t : State} {c : CtxIdx} {d : Direction} (h : CbcReady s c) (ht : exec (.cryptCbc c) u = .next t)
    (hm : modeIs d u.mode) (hp : u.params = s.params) (hx : u.ctx = s.ctx) (h16 : u.length.toNat % 16 = 0)
    (hpos : 0 < u.length.toNat) (hsrc : u.src.toNat + u.length.toNat ≤ s.src.toNat + s.length.toNat)
    (hdst : u.dst.toNat + u.length.toNat ≤ s.dst.toNat + s.length.toNat) : t = u.cbcResult d c := by
  obtain ⟨hc, -, -, hn, hs, hd⟩ := h
  have hctx : u.ctxAt c = s.ctxAt c := by rw [State.ctxAt, State.ctxAt, hx]
  have hu : CbcReady u c := by
    unfold CbcReady CtxExists
    rw [hp, hctx]
    exact ⟨hc, h16, hpos, hn, hsrc.trans hs, hdst.trans hd⟩
  cases (exec_cryptCbc_eq_cbcResult hu hm).symm.trans ht
  rfl

/-- Settles O40: both parts pass the checks, and the second starts with the memory, the chain value and the offsets that the first
ended with. -/
theorem cbcStreamContinuation : Obligations.CbcStreamContinuation := by
  intro s t t₁ t₂ c d n₁ n₂ hleg h hm h₁ h₂ hp₁ hp₂ hlen ht ht₁ ht₂
  have ⟨_, _, _, _, hs, hd⟩ := h
  have hbuf := bufBytes_le_of_paramsLegal hleg
  have toNat_ofNat (n : Nat) (hlt : n ≤ 4096) : (BitVec.ofNat 32 n).toNat = n :=
    (BitVec.toNat_ofNat n 32).trans (Nat.mod_eq_of_lt (by omega))
  have hlen₁ := toNat_ofNat n₁ (by omega)
  have hlen₂ := toNat_ofNat n₂ (by omega)
  have hsrc := toNat_ofNat (s.src.toNat + n₁) (by omega)
  have hdst := toNat_ofNat (s.dst.toNat + n₁) (by omega)
  cases (exec_cryptCbc_eq_cbcResult h hm).symm.trans ht
  cases eq_cbcResult_of_part h ht₁ hm rfl rfl (by rwa [hlen₁]) (by rwa [hlen₁]) (by simp only [hlen₁]; omega)
    (by simp only [hlen₁]; omega)
  cases eq_cbcResult_of_part h ht₂ hm rfl rfl (by rwa [hlen₂]) (by rwa [hlen₂]) (by simp only [hsrc, hlen₂]; omega)
    (by simp only [hdst, hlen₂]; omega)
  exact cbcResult_continued d c (by rwa [hlen₁]) (by rw [hlen₁, hlen₂, hlen]) (by rw [hsrc, hlen₁]) (by rw [hdst, hlen₁])

/-! ### No block to process (R227) -/

/-- After the MODE check, LENGTH = 0 completes OK, whatever the other operands hold. -/
theorem withCbcOperands_of_length_zero {s : State} {c : CtxIdx} (hm : s.mode = 1 ∨ s.mode = 0) (hl : s.length = 0)
    (k : Direction → State) : s.withCbcOperands c k = s.complete .ok := by
  obtain ⟨d, hd⟩ := exists_directionOf_of_valid hm
  simp [State.withCbcOperands, hd, hl]

theorem withCbcOperands_of_invalid_mode {s : State} {c : CtxIdx} (hm : s.mode ≠ 1 ∧ s.mode ≠ 0) (k : Direction → State) :
    s.withCbcOperands c k = s.complete .invalidMode := by
  simp only [State.withCbcOperands, (directionOf_eq_none_iff s.mode).mpr hm, raise_eq_complete]

/-- Settles O41: MODE is checked first, and LENGTH = 0 answers before the context and the buffers are looked at. -/
theorem cbcZeroLength : Obligations.CbcZeroLength := by
  intro s c hc hl
  have hc : c.val < s.params.nCtx := hc
  rw [exec, execCryptCbc, State.withContext, if_pos hc]
  refine ⟨fun hm => ?_, fun hm => ?_⟩
  · rw [withCbcOperands_of_length_zero hm hl]
    rfl
  · rw [withCbcOperands_of_invalid_mode hm]
    rfl

end Sys2Proof.Machine

/-! SUPPORT. Proofs of the statements of 44_control.md: the issue and the end of a command, that nothing else ends it, that it keeps
away from the contexts it does not name, and the commands NOP and WIPE. -/

namespace Sys2Proof.Machine

open Sys2Proof.Statements

/-! ### The issue and the completion (R251, R252) -/

/-- Settles O10, by the cases of every command. -/
theorem everyCommandCompletes : Obligations.EveryCommandCompletes := by
  intro i s
  obtain ⟨t, h, hseq, hdone, hhaz, hundef, -⟩ := exec_completes i s
  exact ⟨t, h, hseq, hdone, hhaz, hundef⟩

/-- Settles O5: CMD is an ordinary register of the window, whose write issues while IDLE and is dropped like any other while BUSY. -/
theorem cmdWriteIssues : Obligations.CmdWriteIssues := by
  intro s w rest hr hi
  refine ⟨fun hs => ?_, fun cmd phase hs => ?_⟩
  · exact ⟨s.issuedThen (commandOf s.params w) rest, step_writeCmd ⟨hs, hr, hi⟩, rfl, rfl, rfl⟩
  · exact step_writeEvent_busy hr (by decide) (isBusy_of_busy hs) hi

/-! ### A running command stays latched (R256, R257) -/

section Latched

variable {s t : State} {cmd : Command} {phase : Phase} {e : Event}

/-- A read changes only the port's lines, and a write while BUSY is dropped (R69, R330). -/
theorem access_seq_of_busy (hs : s.seq = .busy cmd phase) (a : BusAccess) : (s.access a).seq = s.seq := by
  rcases access_cases s a with ⟨-, -, h⟩ | ⟨v, -, -, h⟩ | ⟨-, h⟩ <;> rw [h]
  · rw [admittedRead_eq]
  · rw [admittedWrite_of_busy (isBusy_of_busy hs)]

theorem accessInReset_seq (s : State) (a : BusAccess) : (s.accessInReset a).seq = s.seq := by
  unfold State.accessInReset
  split <;> rfl

/-- An edge of the S-box loop moves the phase of the running command (R131). -/
theorem advance_seq_of_busy (hs : s.seq = .busy cmd phase) : ∃ phase', s.advance.seq = .busy cmd phase' := by
  rcases advance_cases s with h | ⟨i, hi, -, h⟩ | ⟨i, hi, h⟩ <;> rw [h]
  · exact ⟨phase, hs⟩
  · cases hs.symm.trans hi
    exact ⟨.sboxLoop, rfl⟩
  · cases hs.symm.trans hi
    exact ⟨.tail, rfl⟩

theorem onEvent_seq_of_busy (hs : s.seq = .busy cmd phase) (hf : e ≠ .finish) (hr : e ≠ .reset true)
    (h : s.onEvent e = .next t) : ∃ phase', t.seq = .busy cmd phase' := by
  cases e with
  | access a =>
    cases h
    exact ⟨phase, (access_seq_of_busy hs a).trans hs⟩
  | advance =>
    cases h
    exact advance_seq_of_busy hs
  | finish => exact absurd rfl hf
  | reset level =>
    cases level
    · cases h
      exact ⟨phase, hs⟩
    · exact absurd rfl hr

/-- While `rst` is asserted an event leaves SEQ alone (R310). -/
theorem onEventInReset_seq (hr : e ≠ .reset true) (h : s.onEventInReset e = .next t) : t.seq = s.seq := by
  cases e with
  | access a =>
    cases h
    exact accessInReset_seq s a
  | advance | finish =>
    cases h
    rfl
  | reset level =>
    cases level
    · cases h
      rfl
    · exact absurd rfl hr

end Latched

/-- Settles O13: no event but the end of the execution and the assertion of reset takes the command out of SEQ. -/
theorem noCancellation : Obligations.NoCancellation := by
  intro s t cmd phase e rest hs hi hf hr h
  rcases Bool.eq_false_or_eq_true s.rst with hrst | hrst
  · rw [step_of_cons_in_reset hi hrst] at h
    exact ⟨phase, (onEventInReset_seq hr h).trans hs⟩
  · rw [step_of_cons hi hrst (.inl hf)] at h
    exact onEvent_seq_of_busy (s := { s with inbox := rest }) hs hf hr h

/-! ### Another context (R258) -/

section OtherContext

variable {s : State} {c c' : CtxIdx} {v : Context}

theorem complete_setCtx (s : State) (c : CtxIdx) (v : Context) (e : StatusCode) :
    (s.setCtx c v).complete e = (s.complete e).setCtx c v := rfl

/-- The checks of a context command read the operand registers and its own context. -/
theorem withContext_setCtx {k : State → State} (hk : k (s.setCtx c' v) = (k s).setCtx c' v) :
    (s.setCtx c' v).withContext c k = (s.withContext c k).setCtx c' v := by
  unfold State.withContext
  rw [setCtx_params]
  split
  · exact hk
  · rfl

theorem withKeyParams_setCtx (h : c ≠ c') {k k' : KeyParams → State} (hk : ∀ kp, k' kp = (k kp).setCtx c' v) :
    (s.setCtx c' v).withKeyParams c k' = (s.withKeyParams c k).setCtx c' v := by
  unfold State.withKeyParams
  rw [setCtx_keybits, ctxAt_setCtx_of_ne s c' c v h]
  split
  · rfl
  · split
    · rfl
    · exact hk _

theorem withDirection_setCtx (h : c ≠ c') {k k' : Direction → State} (hk : ∀ d, k' d = (k d).setCtx c' v) :
    (s.setCtx c' v).withDirection c k' = (s.withDirection c k).setCtx c' v := by
  unfold State.withDirection
  rw [setCtx_mode, ctxAt_setCtx_of_ne s c' c v h]
  split
  · rfl
  · split
    · rfl
    · exact hk _

theorem withCbcOperands_setCtx (h : c ≠ c') {k k' : Direction → State} (hk : ∀ d, k' d = (k d).setCtx c' v) :
    (s.setCtx c' v).withCbcOperands c k' = (s.withCbcOperands c k).setCtx c' v := by
  unfold State.withCbcOperands
  rw [setCtx_mode, setCtx_length, setCtx_src, setCtx_dst, setCtx_params, ctxAt_setCtx_of_ne s c' c v h]
  split
  · rfl
  · split_ifs
    iterate 4 rfl
    exact hk _

/-! So do their effects. -/

theorem keyEncrypt_setCtx (h : c ≠ c') (kp : KeyParams) : (s.setCtx c' v).keyEncrypt c kp = (s.keyEncrypt c kp).setCtx c' v := by
  rw [keyEncrypt_eq, keyEncrypt_eq, ensureTables_setCtx, setCtx_comm _ c' c v _ h.symm]
  rfl

theorem keyDecrypt_setCtx (h : c ≠ c') (kp : KeyParams) : (s.setCtx c' v).keyDecrypt c kp = (s.keyDecrypt c kp).setCtx c' v := by
  rw [keyDecrypt_eq, keyDecrypt_eq, ensureTables_setCtx, setCtx_comm _ c' c v _ h.symm]
  rfl

theorem cryptBlock_setCtx (h : c ≠ c') (d : Direction) : (s.setCtx c' v).cryptBlock c d = (s.cryptBlock c d).setCtx c' v := by
  rw [cryptBlock_eq, cryptBlock_eq, ctxAt_setCtx_of_ne s c' c v h]
  rfl

theorem cryptChain_setCtx (h : c ≠ c') (d : Direction) : (s.setCtx c' v).cryptChain c d = (s.cryptChain c d).setCtx c' v := by
  have hl := cbcLoop_setCtx { s with chain := storeBlock s.iv } d c c' v h (s.length.toNat / 16) s.src.toNat s.dst.toNat
  unfold State.cryptChain
  exact congrArg (fun u : State => { u with iv := loadBlock u.chain, chain := zeroBytes, save := zeroBytes }.complete .ok) hl

/-- A command that does not name context c' runs as it did, whatever is written there before. -/
theorem exec_setCtx {i : Instr} {t : State} (h : contextOf i ≠ some c') (ht : exec i s = .next t) :
    exec i (s.setCtx c' v) = .next (t.setCtx c' v) := by
  have other {c : CtxIdx} (hc : some c ≠ some c') : c ≠ c' := fun e => hc (congrArg some e)
  cases i <;> cases ht <;> apply congrArg Host.Outcome.next
  case nop => rfl
  case buildTables => rw [ensureTables_setCtx, complete_setCtx]
  case setkeyEnc c => exact withContext_setCtx (withKeyParams_setCtx (other h) (keyEncrypt_setCtx (other h)))
  case setkeyDec c => exact withContext_setCtx (withKeyParams_setCtx (other h) (keyDecrypt_setCtx (other h)))
  case cryptEcb c => exact withContext_setCtx (withDirection_setCtx (other h) (cryptBlock_setCtx (other h)))
  case cryptCbc c => exact withContext_setCtx (withCbcOperands_setCtx (other h) (cryptChain_setCtx (other h)))
  case wipe c =>
    refine withContext_setCtx ?_
    rw [State.wipeContext, setCtx_comm s c' c v _ (other h).symm]
    rfl

end OtherContext

/-- Settles O15: every check and every effect of a command commutes with a write of another context. -/
theorem contextsIndependent : Obligations.ContextsIndependent := fun _ _ _ _ _ h ht => exec_setCtx h ht

/-! ### The end of the execution (R252, R131) -/

section Ends

variable {s : State} {i : Instr} {phase : Phase}

/-- With no edge left to pass, the end of the execution is one step, and the meaning of the command. -/
theorem endsAfter_zero (hr : s.rst = false) (hs : s.seq = .busy (.legal i) phase) (hp : s.edgePending = false) : EndsAfter s i 0 := by
  refine ⟨fun hi => ?_, fun rest hi => ?_⟩ <;> rw [run_one]
  · rw [step_of_nil hi hp, State.finish, hs]
  · exact step_finish_of_legal hr hs hp hi

/-- An edge that is left costs one step before the end, in which the end waits. -/
theorem endsAfter_succ {u : State} {n : Nat} (hr : s.rst = false) (hp : s.edgePending = true) (hu : s.advance = u)
    (hin : u.inbox = s.inbox) (he : ∀ l, exec i { u with inbox := l } = exec i { s with inbox := l }) (h : EndsAfter u i n) :
    EndsAfter s i (n + 1) := by
  obtain ⟨atNil, atFinish⟩ := h
  refine ⟨fun hi => ?_, fun rest hi => ?_⟩
  · rw [run_succ_of_step _ (step_of_nil_pending hi hp), hu, atNil (hin.trans hi)]
    calc exec i u = exec i { s with inbox := u.inbox } := he u.inbox
      _ = exec i s := by rw [hin]
  · rw [run_succ_of_step _ (step_of_finish_pending hi hr hp), hu, atFinish rest (hin.trans hi)]
    exact he rest

/-- Inside its S-box loop a build has the second edge left. -/
theorem endsAfter_of_sboxLoop (hr : s.rst = false) (hs : s.seq = .busy (.legal i) .sboxLoop) (hb : s.buildsTables i = true) :
    EndsAfter s i 1 :=
  endsAfter_succ hr (by rw [State.edgePending, hs]) (advance_of_sboxLoop hs) rfl
    (fun l => exec_leaveSboxLoop (s := { s with inbox := l }) hs hb) (endsAfter_zero hr rfl rfl)

/-- Before its S-box loop a build has both edges left. -/
theorem endsAfter_of_start (hr : s.rst = false) (hs : s.seq = .busy (.legal i) .start) (hb : s.buildsTables i = true) :
    EndsAfter s i 2 := by
  have enter : s.advance = _ := (advance_of_start hs).trans ((if_pos hb).trans (enterSboxLoop_of_start hs))
  refine endsAfter_succ hr ((edgePending_of_start hs).trans hb) enter rfl (fun l => ?_) (endsAfter_of_sboxLoop hr rfl hb)
  have same := exec_enterSboxLoop (s := { s with inbox := l }) hs hb
  rwa [enterSboxLoop_of_start (s := { s with inbox := l }) hs] at same

end Ends

/-- Settles O6, by the edges that are left in each phase. -/
theorem finishRunsLatchedCommand : Obligations.FinishRunsLatchedCommand := by
  intro s i phase hr hs
  refine ⟨?_, ?_, ?_, ?_⟩ <;> rintro rfl
  · exact endsAfter_zero hr hs (by rw [State.edgePending, hs])
  · intro hb
    exact endsAfter_zero hr hs ((edgePending_of_start hs).trans (Bool.eq_false_iff.mpr (mt (buildsTables_iff s i).mp hb)))
  · exact fun hb => endsAfter_of_sboxLoop hr hs ((buildsTables_iff s i).mpr hb)
  · exact fun hb => endsAfter_of_start hr hs ((buildsTables_iff s i).mpr hb)

/-! ### NOP and WIPE (R254, R255) -/

/-- Settles O16: completion is all that NOP does. -/
theorem nopOnlyCompletes : Obligations.NopOnlyCompletes := fun s => ⟨exec_nop s, fun _ => rfl⟩

/-- Settles O17: the wiped context is the empty one, which CTXINFO shows as 0. -/
theorem wipeClearsContext : Obligations.WipeClearsContext := by
  intro s c hc
  have hex : exec (.wipe c) s = .next ((s.wipeContext c).complete .ok) :=
    (exec_wipe_cases s c).elim (fun h => absurd hc (Nat.not_lt.mpr h.1)) And.right
  have hctx : ((s.wipeContext c).complete .ok).ctxAt c = { nr := .empty, rk := zeroSchedule } := ctxAt_setCtx_self s c _
  refine ⟨_, hex, congrArg Context.nr hctx, fun i => ?_, ?_, fun _ => rfl, ?_⟩
  · rw [hctx, rkWord_zeroSchedule]
  · have hnr : (((s.wipeContext c).complete .ok).ctx[c.val]).nr = .empty := congrArg Context.nr hctx
    rw [State.ctxInfoByte, hnr]
    exact ite_self 0
  · rw [hctx]
    rfl

end Sys2Proof.Machine

/-! SUPPORT. Proofs of the statements of 60_exceptions.md: the status code of a command and that an error has no other effect, DONE and
`irq`, and that no access tells the secrets. -/

namespace Sys2Proof.Machine

open Sys2Proof.Statements

/-! ### No error locks the core (R281, R282) -/

theorem onEventInReset_next (s : State) (e : Event) : ∃ t : State, s.onEventInReset e = .next t := by
  cases e with
  | access | advance | finish | reset => exact ⟨_, rfl⟩

/-- Settles O9: the end of an execution, an edge of the S-box loop and every event, in reset or not, answer a next state. -/
theorem stepNeverStops : Obligations.StepNeverStops := by
  intro s
  rcases step_cases s with ⟨-, -, h⟩ | ⟨-, -, h⟩ | ⟨e, rest, -, -, -, h⟩ | ⟨e, rest, -, -, h⟩ <;> rw [h]
  · exact finish_next s
  · exact ⟨_, rfl⟩
  · exact onEvent_next _ e
  · exact onEventInReset_next _ e

/-! ### The code of a command, and no other effect of an error (R277, R278) -/

/-- A command has an effect of its own only if it completes OK (R277). -/
theorem exec_precise {i : Instr} {s t : State} (h : exec i s = .next t) : t = completed s t.err ∨ t.err = .ok := by
  rcases exec_cases i s with ⟨e, he⟩ | ⟨-, he⟩ | ⟨c, kp, -, -, -, -, he⟩ | ⟨c, kp, -, -, -, -, he⟩ | ⟨c, d, -, -, -, -, he⟩ |
    ⟨c, d, -, -, -, -, -, -, -, -, he⟩ | ⟨c, -, -, he⟩ <;> cases he.symm.trans h
  · exact .inl rfl
  iterate 6 exact .inr rfl

/-- Settles O11, by the cases of every command. -/
theorem errorsArePrecise : Obligations.ErrorsArePrecise := fun _ _ _ h hne => (exec_precise h).resolve_right hne

theorem keyParams_eq_none_iff (w : Word) : keyParams w = none ↔ w ≠ 128 ∧ w ≠ 192 ∧ w ≠ 256 := by
  rw [← Option.not_isSome_iff_eq_none, keyParams_isSome_iff, not_or, not_or]

section Codes

variable {s : State} {c : CtxIdx}

/-- The checks of SETKEY give the code of R278, where what follows them completes OK. -/
theorem withKeyParams_err {k : KeyParams → State} (hk : ∀ kp, (k kp).err = .ok) :
    (s.withKeyParams c k).err = codeOf s (.setkeyEnc c) := by
  simp only [codeOf, ← keyParams_eq_none_iff]
  rcases withKeyParams_cases s c k with ⟨h, e⟩ | ⟨kp, h, hn, e⟩ | ⟨kp, h, hn, e⟩ <;> rw [e]
  · simp [h]
  · simp [h, hn]
  · simp [h, hn, hk]

/-- So do the checks of CRYPT_ECB. -/
theorem withDirection_err {k : Direction → State} (hk : ∀ d, (k d).err = .ok) :
    (s.withDirection c k).err = codeOf s (.cryptEcb c) := by
  simp only [codeOf, ← directionOf_eq_none_iff]
  rcases withDirection_cases s c k with ⟨h, e⟩ | ⟨d, h, hn, e⟩ | ⟨d, h, hn, e⟩ <;> rw [e]
  · simp [h]
  · simp [h, hn]
  · simp [h, hn, hk]

/-- So do the checks of CRYPT_CBC (R221). -/
theorem withCbcOperands_err {k : Direction → State} (hk : ∀ d, (k d).err = .ok) :
    (s.withCbcOperands c k).err = codeOf s (.cryptCbc c) := by
  simp only [codeOf, ← directionOf_eq_none_iff]
  rcases withCbcOperands_cases s c k with ⟨h, e⟩ | ⟨d, h, ⟨h16, e⟩ | ⟨h0, e⟩ | ⟨h16, hp, hn, e⟩ | ⟨h16, hp, hn, hr, e⟩ |
    ⟨h16, hp, hn, hs, ht, e⟩⟩ <;> rw [e]
  · simp [h]
  · simp [h, h16]
  · simp [h, h0]
  · simp [h, h16, hp.ne', hn]
  · simp [h, h16, hp.ne', hn, hr]
  · simp [h, h16, hp.ne', hn, hs.not_gt, ht.not_gt, hk]

/-- A well-formed command completes with the code of R278. -/
theorem exec_err {i : Instr} (h : i.wellFormed s.params = true) : ∃ t : State, exec i s = .next t ∧ t.err = codeOf s i := by
  have named {c : CtxIdx} (hc : decide (c.val < s.params.nCtx) = true) (k : State → State) :
      (.next (s.withContext c k) : Host.Outcome State Fault Refusal) = .next (k s) :=
    congrArg _ (if_pos (of_decide_eq_true hc))
  cases i with
  | nop | buildTables => exact ⟨_, rfl, rfl⟩
  | setkeyEnc c => exact ⟨_, named h _, withKeyParams_err fun _ => rfl⟩
  | setkeyDec c => exact ⟨_, named h _, withKeyParams_err fun _ => rfl⟩
  | cryptEcb c => exact ⟨_, named h _, withDirection_err fun _ => rfl⟩
  | cryptCbc c => exact ⟨_, named h _, withCbcOperands_err fun _ => rfl⟩
  | wipe c => exact ⟨_, named h _, rfl⟩

/-- A well-formed command whose code is an error completes with it and has no other effect. -/
theorem exec_of_error {i : Instr} {e : StatusCode} (h : i.wellFormed s.params = true) (hcode : codeOf s i = e) (he : e ≠ .ok) :
    exec i s = .next (completed s e) := by
  obtain ⟨t, ht, herr⟩ := exec_err h
  obtain rfl : t.err = e := herr.trans hcode
  rw [ht, ← errorsArePrecise i s t ht he]

end Codes

/-- Settles O12: an illegal command completes with ILLEGAL_COMMAND, and the checks of every other command stand in the order of R278. -/
theorem statusCodeByPriority : Obligations.StatusCodeByPriority :=
  ⟨fun _ _ _ hr hs hi => ⟨_, step_finish_of_illegal hr hs hi, rfl⟩, fun _ _ h => exec_err h⟩

/-! ### Each check by its code (R271-R273, R275) -/

/-- Settles O29: KEYBITS is the first check of both commands. -/
theorem invalidKeyLengthRefused : Obligations.InvalidKeyLengthRefused := by
  intro s c hc h128 h192 h256
  have hwf : decide (c.val < s.params.nCtx) = true := decide_eq_true hc
  have hcode : codeOf s (.setkeyEnc c) = .invalidKeyLength := if_pos ⟨h128, h192, h256⟩
  exact ⟨exec_of_error hwf hcode nofun, exec_of_error (i := .setkeyDec c) hwf hcode nofun⟩

/-- Settles O34: MODE is the first check of both commands. -/
theorem invalidModeRefused : Obligations.InvalidModeRefused := by
  intro s c hc h1 h0
  have hwf : decide (c.val < s.params.nCtx) = true := decide_eq_true hc
  exact ⟨exec_of_error hwf (if_pos ⟨h1, h0⟩) nofun, exec_of_error hwf (if_pos ⟨h1, h0⟩) nofun⟩

/-- Settles O42: LENGTH is checked after MODE, and the buffers after LENGTH and the context. -/
theorem cbcBadBuffersRefused : Obligations.CbcBadBuffersRefused := by
  intro s c hc hm
  have hwf : (Instr.cryptCbc c).wellFormed s.params = true := decide_eq_true hc
  have hmode : ¬ (s.mode ≠ 1 ∧ s.mode ≠ 0) := by
    rintro ⟨h1, h0⟩
    exact hm.elim h1 h0
  refine ⟨fun h16 => exec_of_error hwf ?_ nofun, fun h16 hp hn hr => exec_of_error hwf ?_ nofun⟩
  · rw [codeOf, if_neg hmode, if_pos h16]
  · rw [codeOf, if_neg hmode, if_neg (not_not.mpr h16), if_neg hp.ne', if_neg hn, if_pos hr]

/-! ### DONE and `irq` (R284) -/

/-- Every command leaves DONE = 1, and so `irq` at IRQ_EN (R28, R53). -/
theorem exec_irq {i : Instr} {s t : State} (h : exec i s = .next t) : t.done = true ∧ t.irq = s.irqEn := by
  obtain ⟨u, e, hu, rfl⟩ := exec_effect h
  have hirq : u.irqEn = s.irqEn := by rw [hu.frame]
  exact ⟨rfl, hirq⟩

theorem irq_of_not_done {s : State} (h : s.done = false) : s.irq = false := by rw [State.irq, h, Bool.false_and]

/-- A step from IDLE that answers a write of a register has the register's write rule as its effect (R23). -/
theorem step_writeRegister {s : State} {o : BitVec 13} {r : Reg} {v : Word} {rest : List Event} (hs : s.seq = .idle)
    (hr : s.rst = false) (ho : Located s.params.bufBytes o r) (hi : s.inbox = writeEvent o v :: rest) :
    step s = .next { s.writeReg r v with inbox := rest, reply := some (.write .okay) } := by
  have h := writesAs_of_located hs hr v ho rest
  rw [← hi] at h
  exact h

/-- Settles O51: a completion sets DONE, an issue and a write of 1 to its bit clear it, and `irq` is DONE under IRQ_EN. -/
theorem doneDrivesIrq : Obligations.DoneDrivesIrq := by
  refine ⟨fun i s t h => exec_irq h, fun s t v rest hs hr h => ⟨fun hi => ?_, fun hi => ?_, fun hi => ?_⟩⟩
  · cases (step_writeCmd ⟨hs, hr, hi⟩).symm.trans h
    exact ⟨rfl, rfl⟩
  · cases (step_writeRegister (r := .status) hs hr (located_of_index _ (by decide)) hi).symm.trans h
    refine ⟨rfl, fun hv => ?_, fun hv => ?_⟩
    · have hdone : (s.done && !v.getLsbD 1) = false := by rw [hv, Bool.not_true, Bool.and_false]
      exact ⟨hdone, irq_of_not_done hdone⟩
    · show (s.done && !v.getLsbD 1) = s.done
      rw [hv, Bool.not_false, Bool.and_true]
  · cases (step_writeRegister (r := .config) hs hr (located_of_index _ (by decide)) hi).symm.trans h
    rfl

/-! ### The secrets (R290, R39, R40)

Where the equality of AgreeButSecrets rewrites one state to the other with secrets of its own, an operation that does not look at
the secrets computes to the same result. -/

section Secrets

variable {s t : State}

/-- No location shows a secret: CTXINFO shows NR alone (R38), and the KEY registers read 0 (R39). -/
theorem readReg_of_agree (h : AgreeButSecrets s t) (r : Reg) : t.readReg r = s.readReg r := by
  obtain ⟨hnr, ht⟩ := h
  have byte (c : CtxIdx) : t.ctxInfoByte c = s.ctxInfoByte c := by
    have hc : (t.ctx[c.val]).nr = (s.ctx[c.val]).nr := (hnr c).symm
    rw [State.ctxInfoByte, State.ctxInfoByte, hc, ht]
  cases r with
  | ctxinfo => simp only [State.readReg, State.ctxInfoWord, byte]
  | _ =>
    rw [ht]
    rfl

theorem openBits_of_agree (h : AgreeButSecrets s t) (r : Reg) : t.openBits r = s.openBits r := by
  rw [h.2]
  rfl

theorem readData_of_agree (h : AgreeButSecrets s t) (r : Reg) : t.readData r = s.readData r := by
  have hfree : t.freeWord = s.freeWord := by
    rw [h.2]
    rfl
  simp only [State.readData, readReg_of_agree h, openBits_of_agree h, hfree]

theorem agree_admittedRead (h : AgreeButSecrets s t) (r : Reg) : AgreeButSecrets (s.admittedRead r) (t.admittedRead r) := by
  rw [admittedRead_eq, admittedRead_eq, readData_of_agree h, openBits_of_agree h]
  obtain ⟨hnr, ht⟩ := h
  exact ⟨hnr, by rw [ht]⟩

theorem writeReg_ctxAt (s : State) (r : Reg) (v : Word) (c : CtxIdx) : (s.writeReg r v).ctxAt c = s.ctxAt c := by
  rw [writeReg_frame]
  rfl

/-- A write rule looks at no secret, and KEYn alone writes one (R39). -/
theorem agree_writeReg (h : AgreeButSecrets s t) (r : Reg) (v : Word) : AgreeButSecrets (s.writeReg r v) (t.writeReg r v) := by
  obtain ⟨hnr, ht⟩ := h
  refine ⟨fun c => by rw [writeReg_ctxAt, writeReg_ctxAt, hnr c], ?_⟩
  rw [ht]
  cases r <;> rfl

theorem agree_admittedWrite (h : AgreeButSecrets s t) (r : Reg) (v : Word) :
    AgreeButSecrets (s.admittedWrite r v) (t.admittedWrite r v) := by
  have hbusy : t.isBusy = s.isBusy := by
    rw [h.2]
    rfl
  cases hb : s.isBusy
  · rw [admittedWrite_of_idle hb, admittedWrite_of_idle (hbusy.trans hb)]
    obtain ⟨hnr, ht⟩ := agree_writeReg h r v
    exact ⟨hnr, by rw [ht]⟩
  · rw [admittedWrite_of_busy hb, admittedWrite_of_busy (hbusy.trans hb)]
    obtain ⟨hnr, ht⟩ := h
    exact ⟨hnr, by rw [ht]⟩

theorem agree_access (h : AgreeButSecrets s t) (a : BusAccess) : AgreeButSecrets (s.access a) (t.access a) := by
  have hloc : t.locate a = s.locate a := by
    rw [h.2]
    rfl
  unfold State.access
  rw [hloc]
  split
  · split
    · exact agree_admittedRead h _
    · exact agree_admittedWrite h _ _
  · obtain ⟨hnr, ht⟩ := h
    exact ⟨hnr, by rw [ht]⟩

/-- The free answers of an access while `rst` is asserted depend on the counter alone (log 6). -/
theorem agree_accessInReset (h : AgreeButSecrets s t) (a : BusAccess) :
    AgreeButSecrets (s.accessInReset a) (t.accessInReset a) := by
  obtain ⟨hnr, ht⟩ := h
  unfold State.accessInReset
  split
  · exact ⟨hnr, by rw [ht]; rfl⟩
  · exact ⟨hnr, by rw [ht]; rfl⟩

end Secrets

/-- Settles O48: no read shows a secret, no write rule looks at one, and the answer is among the fields that agree. -/
theorem secretsNotReadable : Obligations.SecretsNotReadable := by
  intro s t s' t' a rest h hi hs ht
  have agree : AgreeButSecrets { s with inbox := rest } { t with inbox := rest } := by
    obtain ⟨hnr, hfields⟩ := h
    exact ⟨hnr, by rw [hfields]⟩
  have hi' : t.inbox = .access a :: rest := by rw [h.2, hi]
  have hrst : t.rst = s.rst := by rw [h.2]
  have hagree : AgreeButSecrets s' t' := by
    cases hr : s.rst
    · cases (step_of_cons hi hr (.inl nofun)).symm.trans hs
      cases (step_of_cons hi' (hrst.trans hr) (.inl nofun)).symm.trans ht
      exact agree_access agree a
    · cases (step_of_cons_in_reset hi hr).symm.trans hs
      cases (step_of_cons_in_reset hi' (hrst.trans hr)).symm.trans ht
      exact agree_accessInReset agree a
  exact ⟨by rw [hagree.2], hagree⟩

end Sys2Proof.Machine

/-! SUPPORT. Proofs of the statements of 70_reset_and_hazards.md: what reset leaves and that nothing moves the core while it is held,
and what a bus access finds while a command runs. -/

namespace Sys2Proof.Machine

open Sys2Proof.Statements

/-! ### Reset (R310, R286) -/

/-- The `rst` line takes its level in the next step, whether it was asserted before or not (R310). -/
theorem step_of_reset {s : State} {level : Bool} {rest : List Event} (hi : s.inbox = .reset level :: rest) :
    step s = .next (({ s with inbox := rest } : State).setResetLine level) := by
  cases hr : s.rst
  · exact step_of_cons hi hr (.inl nofun)
  · exact step_of_cons_in_reset hi hr

section ResetValues

variable (p : Params) (n m : Nat)

@[simp] theorem resetWith_ctxAt (c : CtxIdx) : (State.resetWith p n m).ctxAt c = Context.blank := by
  simp [State.ctxAt, State.resetWith]

theorem resetWith_statusWord : (State.resetWith p n m).statusWord = 0 := by
  simp [State.statusWord, State.isBusy, State.resetWith, bitAt, StatusCode.toBits]

theorem resetWith_configWord : (State.resetWith p n m).configWord = 0 := by
  simp [State.configWord, State.resetWith, bitAt]

/-- Every context is empty after reset, and one that does not exist reads 0 as well (R38). -/
theorem resetWith_ctxInfoByte (c : CtxIdx) : (State.resetWith p n m).ctxInfoByte c = 0 := by
  have hnr : ((State.resetWith p n m).ctx[c.val]).nr.toByte = 0 :=
    congrArg (fun v : Context => v.nr.toByte) (resetWith_ctxAt p n m c)
  rw [State.ctxInfoByte, hnr, ite_self]

theorem resetWith_ctxInfoWord : (State.resetWith p n m).ctxInfoWord = 0 :=
  word_ext_lanes fun c => by rw [byteLane_ctxInfoWord, resetWith_ctxInfoByte, byteLane_zero]

/-- The reset values meet every invariant, under any legal parameters: nothing runs, nothing is keyed and nothing is built. -/
theorem resetWith_safe (hp : p.legal = true) : (State.resetWith p n m).Safe where
  paramsLegal := hp
  memoryCanonical := ⟨rfl, nofun⟩
  emptyContextsBlank c := by rw [resetWith_ctxAt]; exact ⟨fun _ => rfl, fun _ => rfl⟩
  keyedHasTables c hn := absurd (congrArg Context.nr (resetWith_ctxAt p n m c)) hn
  keyedHasSchedule c hn := absurd (congrArg Context.nr (resetWith_ctxAt p n m c)) hn
  blankUntilBuilt _ := ⟨rfl, rfl, rfl⟩
  tablesAsBuilt := tablesAsBuilt_of_unbuilt rfl
  scratchWiped := ⟨rfl, rfl, rfl, rfl, rfl⟩
  trigBracket := (trigBracket_iff_of_outside (by rintro _ ⟨⟩)).mpr rfl
  busyFlags := nofun
  latchedWellFormed := nofun
  buildLatched := nofun
  undefRecorded := nofun
  heldInReset := heldInReset_of_released rfl

end ResetValues

theorem tableSet_blank_entries (b : Byte) :
    tableAt TableSet.blank.fsb b = 0 ∧ tableAt TableSet.blank.rsb b = 0 ∧
      ∀ k : Fin 4, tableAt TableSet.blank.ft[k.val] b = 0 ∧ tableAt TableSet.blank.rt[k.val] b = 0 := by
  simp [TableSet.blank]

/-- Settles O55: the step that answers the assertion is the reset table, whose values that are not read off a field are the
flag words, the contexts and the entries of the tables. -/
theorem resetState : Obligations.ResetState := by
  refine ⟨fun s rest hi => ⟨_, step_of_reset hi, rfl, rfl⟩, fun p n m => ?_, rfl⟩
  have ctx (c : CtxIdx) :
      ((State.resetWith p n m).ctxAt c).nr = .empty ∧ ((State.resetWith p n m).ctxAt c).rk = Vector.replicate 64 0 := by
    rw [resetWith_ctxAt]
    exact ⟨rfl, rfl⟩
  exact ⟨rfl, resetWith_statusWord p n m, resetWith_configWord p n m, resetWith_ctxInfoWord p n m, rfl, rfl, rfl, rfl, rfl, rfl,
    rfl, rfl, rfl, rfl, ctx, tableSet_blank_entries, rfl, rfl, rfl, rfl, rfl, rfl, rfl, rfl, rfl, rfl, rfl⟩

/-- Settles O56: an access draws free values for its answer, and no other event but a level of `rst` does anything. -/
theorem heldInResetIgnoresBus : Obligations.HeldInResetIgnoresBus := by
  intro s t e rest hr hi hstep hlevel
  rw [step_of_cons_in_reset hi hr] at hstep
  cases e with
  | access a =>
    cases hstep
    unfold State.accessInReset
    split <;> rfl
  | advance | finish =>
    cases hstep
    rfl
  | reset level => exact absurd rfl (hlevel level)

/-- Settles O60: the reference parameters are legal. -/
theorem resetIsSafe : Obligations.ResetIsSafe := resetWith_safe Params.reference 0 0 rfl

/-! ### A write while BUSY (R330) -/

/-- Settles O44: an admitted write finds the core BUSY. -/
theorem busyWriteDropped : Obligations.BusyWriteDropped := by
  intro s cmd phase o v rest hr hs ho hi
  exact step_writeEvent_busy hr ho (isBusy_of_busy hs) hi

/-! ### What is unspecified while BUSY, location by location (R331) -/

section OpenBits

variable {s : State} {cmd : Command} {phase : Phase}

/-- The bits of a location that cannot be relied on while cmd runs: the list of R331 by location. -/
def State.openAt (s : State) (cmd : Command) : Reg → Word
  | .status => bitAt (mayBuild cmd) 12
  | .ctxinfo => if mayWriteCtxInfo cmd then allBits else 0
  | .dout _ => if isEcb cmd then allBits else 0
  | .iv _ => if isCbc cmd then allBits else 0
  | .dataMem w => if isCbc cmd then s.cbcOpenLanes (4 * w) else 0
  | _ => 0

/-- The model's list by command and the list by location are the same. -/
theorem openBits_of_busy (hs : s.seq = .busy cmd phase) (r : Reg) : s.openBits r = s.openAt cmd r := by
  rw [State.openBits, hs]
  cases cmd with
  | illegal => cases r <;> rfl
  | legal i =>
    cases i with
    | setkeyEnc | setkeyDec =>
      cases r with
      | status | ctxinfo => rfl
      | _ => exact BitVec.or_self
    | nop | buildTables | cryptEcb | cryptCbc | wipe => cases r <;> rfl

/-- A location reads its present value where cmd may not write it. -/
theorem readData_of_closed (hs : s.seq = .busy cmd phase) {r : Reg} (h : s.openAt cmd r = 0) : s.readData r = s.readReg r :=
  readData_of_openBits_eq_zero s r ((openBits_of_busy hs r).trans h)

/-- No command writes the location, and it does not show whether one runs. -/
def Reg.untouched : Reg → Bool
  | .status | .ctxinfo | .dout _ | .iv _ | .dataMem _ => false
  | _ => true

theorem openAt_of_untouched {r : Reg} (h : r.untouched = true) (s : State) (cmd : Command) : s.openAt cmd r = 0 := by
  cases r with
  | status | ctxinfo | dout | iv | dataMem => cases h
  | _ => rfl

theorem readReg_idle_of_untouched {r : Reg} (h : r.untouched = true) (s : State) :
    ({ s with seq := .idle } : State).readReg r = s.readReg r := by
  cases r with
  | status => cases h
  | _ => rfl

/-- The register indices of STATUS, CTXINFO, DOUT and IV are all that a running command touches (R22, R331). -/
theorem untouched_ofRegisterIndex {i : Nat} (hstatus : i ≠ 0x02) (hctxinfo : i ≠ 0x09) (hblock : i < 0x1C ∨ 0x24 ≤ i) :
    (Reg.ofRegisterIndex i).untouched = true := by
  have low : ∀ i < 0x30, i ≠ 0x02 → i ≠ 0x09 → i < 0x1C ∨ 0x24 ≤ i → (Reg.ofRegisterIndex i).untouched = true := by decide
  rcases Nat.lt_or_ge i 0x30 with h | h
  · exact low i h hstatus hctxinfo hblock
  · rw [ofRegisterIndex_reserved (.inr (.inr h))]
    rfl

/-! DATA_MEM, byte by byte (log 17). -/

theorem cbcMayWrite_iff (s : State) (a : Nat) : s.cbcMayWrite a = true ↔ isOutput s a := by
  simp [State.cbcMayWrite, isOutput]

theorem byteLane_or (v w : Word) (k : Fin 4) : byteLane (v ||| w) k = byteLane v k ||| byteLane w k := BitVec.extractLsb'_or

theorem byteLane_laneMask (b : Bool) :
    ∀ j < 4, ∀ k : Fin 4, byteLane (laneMask b j) k = if j = k.val ∧ b = true then 0xFF else 0 := by
  revert b
  decide

/-- Lane k of the mask is the byte at off + k. -/
theorem byteLane_cbcOpenLanes (s : State) (off : Nat) (k : Fin 4) :
    byteLane (s.cbcOpenLanes off) k = if s.cbcMayWrite (off + k.val) then 0xFF else 0 := by
  rw [State.cbcOpenLanes, byteLane_or, byteLane_or, byteLane_or, byteLane_laneMask _ 0 (by decide),
    byteLane_laneMask _ 1 (by decide), byteLane_laneMask _ 2 (by decide), byteLane_laneMask _ 3 (by decide)]
  fin_cases k <;> simp

/-- A byte of a read with no unspecified bit is the byte of the location. -/
theorem byteLane_readData (r : Reg) (k : Fin 4) (h : byteLane (s.openBits r) k = 0) :
    byteLane (s.readData r) k = byteLane (s.readReg r) k := by
  apply BitVec.eq_of_getLsbD_eq
  intro i hi
  have hopen : (s.openBits r).getLsbD (8 * k.val + i) = false := by
    have hbit := congrArg (fun b : Byte => b.getLsbD i) h
    simpa only [getLsbD_byteLane, hi, decide_true, Bool.true_and, BitVec.ofNat_eq_ofNat, BitVec.getLsbD_zero] using hbit
  rw [getLsbD_byteLane, getLsbD_byteLane, getLsbD_readData s r _ hopen]

/-- A byte of DATA_MEM that no running CRYPT_CBC may write reads its present value. -/
theorem byteLane_readData_dataMem (hs : s.seq = .busy cmd phase) (w : Nat) (k : Fin 4)
    (h : isCbc cmd = false ∨ ¬ isOutput s (4 * w + k.val)) :
    byteLane (s.readData (.dataMem w)) k = s.memByte (4 * w + k.val) := by
  have hopen : byteLane (s.openBits (.dataMem w)) k = 0 := by
    rw [openBits_of_busy hs, State.openAt]
    rcases h with h | h
    · rw [h]
      exact byteLane_zero k
    · rw [← cbcMayWrite_iff] at h
      split
      · rw [byteLane_cbcOpenLanes, if_neg h]
      · exact byteLane_zero k
  rw [byteLane_readData _ k hopen]
  exact byteLane_wordOf (fun k => s.memByte (4 * w + k.val)) k

/-! STATUS (R26, R331). -/

/-- Every bit of STATUS but TBL_DONE reads its present value. -/
theorem getLsbD_readData_status (s : State) {i : Nat} (h : i ≠ 12) : (s.readData .status).getLsbD i = s.statusWord.getLsbD i :=
  getLsbD_readData s .status i (getLsbD_openBits_status s i h)

theorem extractLsb'_readData_status (s : State) : (s.readData .status).extractLsb' 4 4 = s.err.toBits := by
  rw [← extractLsb'_statusWord]
  apply BitVec.eq_of_getLsbD_eq
  intro i hi
  rw [BitVec.getLsbD_extractLsb', BitVec.getLsbD_extractLsb', getLsbD_readData_status s (by omega)]

/-- STATUS while cmd runs. -/
theorem readData_status_of_busy (hs : s.seq = .busy cmd phase) (hflags : s.BusyFlags) :
    (s.readData .status).getLsbD 0 = true ∧ (s.readData .status).getLsbD 1 = false ∧
      (s.readData .status).extractLsb' 4 4 = 0 ∧ (s.readData .status).getLsbD 8 = s.haz ∧
      (s.readData .status).getLsbD 9 = s.undef ∧ (mayBuild cmd = false → (s.readData .status).getLsbD 12 = s.tblDone) ∧
      (s.readData .status).getLsbD 13 = s.trig := by
  obtain ⟨hdone, herr⟩ := hflags (isBusy_of_busy hs)
  obtain ⟨busy, done, -, haz, undef, tblDone, trig, -⟩ := statusFields s
  have bit {i : Nat} {b : Bool} (h : i ≠ 12) (hb : s.statusWord.getLsbD i = b) : (s.readData .status).getLsbD i = b :=
    (getLsbD_readData_status s h).trans hb
  refine ⟨bit (by decide) (busy.mpr ⟨cmd, phase, hs⟩), bit (by decide) (done.trans hdone), ?_, bit (by decide) haz,
    bit (by decide) undef, fun hm => ?_, bit (by decide) trig⟩
  · rw [extractLsb'_readData_status, herr]
    rfl
  · have hclosed : s.openAt cmd .status = 0 := congrArg (bitAt · 12) hm
    rw [readData_of_closed hs hclosed]
    exact tblDone

end OpenBits

/-! ### A read while BUSY (R331, R69) -/

theorem eq_offsetAt {o : BitVec 13} {base n : Nat} (h : o.toNat = base + 4 * n) : o = offsetAt base n := by
  apply BitVec.eq_of_toNat_eq
  rw [offsetAt, BitVec.toNat_ofNat, ← h, Nat.mod_eq_of_lt o.isLt]

/-- Every other offset below the DATA_MEM window names a location that no command touches. -/
theorem untouched_ofOffset (bufBytes : Nat) {o : BitVec 13} (ha : o.toNat % 4 = 0) (hlt : o.toNat < 0x1000) (hstatus : o ≠ 0x008)
    (hctxinfo : o ≠ 0x024) (hblock : ∀ n : Fin 4, o ≠ offsetAt 0x070 n.val ∧ o ≠ offsetAt 0x080 n.val) :
    (Reg.ofOffset bufBytes o).untouched = true := by
  rw [ofOffset_register _ _ hlt]
  refine untouched_ofRegisterIndex (fun h => hstatus ?_) (fun h => hctxinfo ?_) ?_
  · exact eq_offsetAt (base := 0x008) (n := 0) (by omega)
  · exact eq_offsetAt (base := 0x024) (n := 0) (by omega)
  · by_contra h
    rcases Nat.lt_or_ge (o.toNat / 4) 0x20 with hi | hi
    · exact (hblock ⟨o.toNat / 4 - 0x1C, by omega⟩).1 (eq_offsetAt (by simp only; omega))
    · exact (hblock ⟨o.toNat / 4 - 0x20, by omega⟩).2 (eq_offsetAt (by simp only; omega))

/-- Settles O45: the offset names a location, and the command that runs says which of its bits read their present value. -/
theorem busyReads : Obligations.BusyReads := by
  intro s cmd phase o rest hr hs hflags ha hi
  have loc {o' : BitVec 13} {r : Reg} (hl : Located s.params.bufBytes o' r) (ho : o = o') :
      s.readData (Reg.ofOffset s.params.bufBytes o) = s.readData r := by rw [ho, hl.2]
  have reg {o' : BitVec 13} {r : Reg} (ho : o = o')
      (hl : o'.toNat % 4 = 0 ∧ o'.toNat < 0x1000 ∧ Reg.ofRegisterIndex (o'.toNat / 4) = r) :
      s.readData (Reg.ofOffset s.params.bufBytes o) = s.readData r := loc (located_of_index _ hl) ho
  refine ⟨_, s.readData (Reg.ofOffset s.params.bufBytes o), step_readEvent hr ha hi, rfl, fun ho => ?_, fun ho => ?_,
    fun ho hc => ?_, fun n ho hc => ?_, fun n ho hc => ?_, fun w k hw hb ho hc => ?_, fun w hw hb ho => ?_,
    fun hlt hstatus hctxinfo hblock => ?_⟩
  · rw [reg (r := .id) ho (by decide)]
    exact readData_of_closed hs rfl
  · rw [reg (r := .status) ho (by decide)]
    exact readData_status_of_busy hs hflags
  · rw [reg (r := .ctxinfo) ho (by decide)]
    exact readData_of_closed hs (by rw [State.openAt, hc]; rfl)
  · rw [loc (located_dout _ n) ho]
    exact readData_of_closed hs (by rw [State.openAt, hc]; rfl)
  · rw [loc (located_iv _ n) ho]
    exact readData_of_closed hs (by rw [State.openAt, hc]; rfl)
  · rw [loc (located_dataMem hb hw) ho]
    exact byteLane_readData_dataMem hs w k hc
  · rw [loc (located_aboveDataMem hw hb) ho]
    exact readData_of_closed hs rfl
  · have hu := untouched_ofOffset s.params.bufBytes ha hlt hstatus hctxinfo hblock
    rw [readData_of_closed hs (openAt_of_untouched hu s cmd), ← readReg_idle_of_untouched hu s]
    exact readsAs_of_located (s := { s with seq := .idle }) rfl hr ⟨ha, rfl⟩

end Sys2Proof.Machine
